-- ==== Sys2Proof/Word.lean ====
section
/-! DEFINITION. The word types of the block (00_scope.md R9: every quantity is unsigned). -/

namespace Sys2Proof

/-- A byte: 8 bits (00_scope.md R9). -/
abbrev Byte := BitVec 8

/-- A 16-bit quantity: the checksum, a read result (10_state.md R20, 00_scope.md R10). -/
abbrev Half := BitVec 16

/-- An operation word: 32 bits (30_encoding.md R80, `OPW` of 00_scope.md R7). -/
abbrev OpWord := BitVec 32

end Sys2Proof
end

