-- ==== Sys2Proof/Config.lean ====
section
/-! DEFINITION. What an instance of the block fixes: the constants of 00_scope.md R7, and the four packet
parameters of R8, whose bytes the spec leaves OPEN (92_eei_decisions.md D14). -/

namespace Sys2Proof

namespace Config

/-- `TILE`: tile edge in pixels (R7). -/
@[simp] abbrev tile : Nat := 8
/-- `TILE_BYTES`: bytes per encoded tile (R7). -/
@[simp] abbrev tileBytes : Nat := 16
/-- `MAX_W`: largest image width in pixels (R7). -/
@[simp] abbrev maxW : Nat := 160
/-- `TROW_BYTES`: bytes reserved per tile row in a chunk (R7). -/
@[simp] abbrev trowBytes : Nat := 320
/-- `CHUNK_BYTES`: bytes per chunk, the DATA payload length (R7). -/
@[simp] abbrev chunkBytes : Nat := 640
/-- `H_UNIT`: the image height is a multiple of this (R7). -/
@[simp] abbrev hUnit : Nat := 16
/-- `MAX_CHUNKS`: largest number of chunks in one job (R7). -/
@[simp] abbrev maxChunks : Nat := 9
/-- `MAGIC1` (R7). -/
@[simp] abbrev magic1 : Byte := 0x88
/-- `MAGIC2` (R7). -/
@[simp] abbrev magic2 : Byte := 0x33
/-- `CMD_DATA`: command byte of a DATA frame (R7). -/
@[simp] abbrev cmdData : Byte := 0x04
/-- `COMP_DATA`: compression byte of a DATA frame (R7). -/
@[simp] abbrev compData : Byte := 0x00
/-- `ACK_FILL`: the value sent in the two placeholder bytes (R7). -/
@[simp] abbrev ackFill : Byte := 0x00
/-- `REPORT_COUNT`: REPORT frames per job (R7). -/
@[simp] abbrev reportCount : Nat := 10
/-- The largest payload length that fits the two length bytes (70_reset_and_hazards.md R200). -/
@[simp] abbrev maxPayload : Nat := 65535

end Config

/-- One packet parameter: (command byte, compression byte, payload byte list), 00_scope.md R8. The payload sent is
`Packet.payload`, at most 65535 bytes, so EVERY value of this type is an instance that R200 allows, and every
instance that R200 allows is a value of this type (log 5). -/
structure Packet where
  cmd : Byte
  comp : Byte
  body : List Byte
  deriving DecidableEq, Repr, Inhabited

/-- The payload of a packet parameter, at most 65535 bytes (R8, R200). -/
def Packet.payload (p : Packet) : List Byte := p.body.take Config.maxPayload

/-- The four packet parameters `P_INIT`, `P_EMPTY`, `P_PRINT`, `P_REPORT` (R8). -/
structure Packets where
  pInit : Packet
  pEmpty : Packet
  pPrint : Packet
  pReport : Packet
  deriving DecidableEq, Repr, Inhabited

/-- The packet parameters of the instance, which the spec leaves OPEN (D14; DESIGN CHOICE, a free value, log 4):
no body, so that nothing can be proved of any one value. -/
opaque Config.packets : Packets

end Sys2Proof
end

