-- ==== Sys2Proof/Syntax.lean ====
section
/-! DEFINITION. The operations of GBP-TEF-OPS version 1 (30_encoding.md R85), one constructor per row of
spec/opcode_table.json, over decoded operands. -/

namespace Sys2Proof

/-- A pixel operand (30_encoding.md R82): the match flag `m` and the palette index `idx`. All eight values are
legal; when `m` is false the index is ignored by the converter (41_tile_encoder.md R121). -/
structure Pixel where
  m : Bool
  idx : BitVec 2
  deriving DecidableEq, Repr

/-- `MODE` (10_state.md R28), also the operand of START (30_encoding.md R84): 0 print, 1 dump. -/
inductive Mode where
  | print
  | dump
  deriving DecidableEq, Repr

/-- The registers RD can name, numbers 0 to 7 in this order (30_encoding.md R87). -/
inductive RegName where
  | imgW
  | imgH
  | stat
  | pos
  | chk
  | cks
  | rsp
  | shr
  deriving DecidableEq, Repr

/-- The fourteen operations (30_encoding.md R85). -/
inductive Instr where
  /-- `RST` (40_config_control.md R100). -/
  | rst
  /-- `SETW v` (R101). -/
  | setw (v : Byte)
  /-- `SETH v` (R102). -/
  | seth (v : Byte)
  /-- `START d` (R103). -/
  | start (d : Mode)
  /-- `PIX p` (41_tile_encoder.md R126). -/
  | pix (p : Pixel)
  /-- `ROW p0 .. p7`, leftmost pixel first (R127). -/
  | row (p0 p1 p2 p3 p4 p5 p6 p7 : Pixel)
  /-- `FRAME.INIT` (42_checksum_framer.md R146). -/
  | frameInit
  /-- `FRAME.DATA` (R147). -/
  | frameData
  /-- `FRAME.EMPTY` (R148). -/
  | frameEmpty
  /-- `FRAME.PRINT` (R149). -/
  | framePrint
  /-- `FRAME.REPORT` (R150). -/
  | frameReport
  /-- `DUMP` (R153). -/
  | dump
  /-- `RD n` (40_config_control.md R105). -/
  | rd (n : RegName)
  /-- `RDCB a` (R106); legal only for `a < 640` (30_encoding.md R90). -/
  | rdcb (a : BitVec 10)
  deriving DecidableEq, Repr

end Sys2Proof
end

