-- ==== Sys2Proof/WellFormed.lean ====
section
/-! DEFINITION. Which terms of `Instr` are legal operations (30_encoding.md R90). -/

namespace Sys2Proof

/-- The one operand the types leave to check: an RDCB address names a byte of the buffer, `a < 640`
(30_encoding.md R85, R90 item 4). -/
def Instr.wellFormed : Instr → Bool
  | .rdcb a => decide (a.toNat < Config.chunkBytes)
  | .rst | .setw _ | .seth _ | .start _ | .pix _ | .row _ _ _ _ _ _ _ _ => true
  | .frameInit | .frameData | .frameEmpty | .framePrint | .frameReport => true
  | .dump | .rd _ => true

end Sys2Proof
end

