-- ==== Sys2Proof/Decode.lean ====
section
/-! DEFINITION. Decode, total on 32-bit operation words (30_encoding.md R80 to R91), and after it the encoder. -/

namespace Sys2Proof

/-- Why a word is illegal (30_encoding.md R90, items 1 to 4). -/
inductive DecodeError where
  /-- Item 1: `opc` is 0xA to 0xF. -/
  | unassignedOpcode
  /-- Item 2: an MBZ bit of the word's format is 1. -/
  | nonzeroMbz
  /-- Item 3: `opc = 0x6` and the frame kind is 5, 6 or 7. -/
  | reservedFrameKind
  /-- Item 4: `opc = 0x9` and the address is 640 or more. -/
  | addressBeyondBuffer
  deriving DecidableEq, Repr

/-- A decoded word: a legal operation, or an illegal word with its reason. -/
inductive Decoded where
  | legal (i : Instr)
  | illegal (why : DecodeError)
  deriving DecidableEq, Repr

/-- The operation of a decoded word, if it is legal. -/
def Decoded.instr? : Decoded → Option Instr
  | .legal i => some i
  | .illegal _ => none

/-- `opc = w[31:28]` (R80). -/
def opcField (w : OpWord) : BitVec 4 := w.extractLsb' 28 4

/-- `arg = w[27:0]` (R80). -/
def argField (w : OpWord) : BitVec 28 := w.extractLsb' 0 28

/-- A pixel operand `p[2] = m`, `p[1:0] = idx` (R82). -/
def pixelOfBits (b : BitVec 3) : Pixel := { m := b.getLsbD 2, idx := b.extractLsb' 0 2 }

/-- The 3-bit slice of a row operand whose lowest bit is `lo` (R83). -/
def rowPixel (arg : BitVec 28) (lo : Nat) : Pixel := pixelOfBits (arg.extractLsb' lo 3)

/-- The mode operand of START: 0 print, 1 dump (R84). -/
def modeOfBit (b : BitVec 1) : Mode := if b = 1#1 then .dump else .print

/-- The register a number names (R87). -/
def regOfBits (n : BitVec 3) : RegName :=
  match n.toNat with
  | 0 => .imgW
  | 1 => .imgH
  | 2 => .stat
  | 3 => .pos
  | 4 => .chk
  | 5 => .cks
  | 6 => .rsp
  | _ => .shr

/-- The frame operation a kind names; 5, 6 and 7 are reserved (R86, R90 item 3). -/
def frameOfBits (k : BitVec 3) : Decoded :=
  match k.toNat with
  | 0 => .legal .frameInit
  | 1 => .legal .frameData
  | 2 => .legal .frameEmpty
  | 3 => .legal .framePrint
  | 4 => .legal .frameReport
  | _ => .illegal .reservedFrameKind

/-- `d` if the MBZ bits are zero (R90 item 2). -/
def ifMbzZero (zero : Bool) (d : Decoded) : Decoded := if zero then d else .illegal .nonzeroMbz

/-- `decode` of R91. -/
def decodeWord (w : OpWord) : Decoded :=
  let arg := argField w
  match (opcField w).toNat with
  | 0x0 => ifMbzZero (decide (arg = 0#28)) (.legal .rst)
  | 0x1 => ifMbzZero (decide (arg.extractLsb' 8 20 = 0#20)) (.legal (.setw (arg.extractLsb' 0 8)))
  | 0x2 => ifMbzZero (decide (arg.extractLsb' 8 20 = 0#20)) (.legal (.seth (arg.extractLsb' 0 8)))
  | 0x3 => ifMbzZero (decide (arg.extractLsb' 1 27 = 0#27)) (.legal (.start (modeOfBit (arg.extractLsb' 0 1))))
  | 0x4 => ifMbzZero (decide (arg.extractLsb' 3 25 = 0#25)) (.legal (.pix (rowPixel arg 0)))
  | 0x5 => ifMbzZero (decide (arg.extractLsb' 24 4 = 0#4))
      (.legal (.row (rowPixel arg 21) (rowPixel arg 18) (rowPixel arg 15) (rowPixel arg 12)
        (rowPixel arg 9) (rowPixel arg 6) (rowPixel arg 3) (rowPixel arg 0)))
  | 0x6 => ifMbzZero (decide (arg.extractLsb' 3 25 = 0#25)) (frameOfBits (arg.extractLsb' 0 3))
  | 0x7 => ifMbzZero (decide (arg = 0#28)) (.legal .dump)
  | 0x8 => ifMbzZero (decide (arg.extractLsb' 3 25 = 0#25)) (.legal (.rd (regOfBits (arg.extractLsb' 0 3))))
  | 0x9 => ifMbzZero (decide (arg.extractLsb' 10 18 = 0#18))
      (if (arg.extractLsb' 0 10).toNat < Config.chunkBytes then .legal (.rdcb (arg.extractLsb' 0 10))
        else .illegal .addressBeyondBuffer)
  | _ => .illegal .unassignedOpcode

/-- The operation the decoder reads from a table row's word: bit 0 of `w` is the word's bit 0, every bit from
`nbits` up is 0. An operation is one 32-bit word that the host hands over whole (R80), so no byte order enters. -/
def decodeTableWord (nbits w : Nat) : Option Instr :=
  (decodeWord (BitVec.ofNat 32 (w % 2 ^ nbits))).instr?

/-- The bits of a pixel operand (R82). -/
def pixelBits (p : Pixel) : BitVec 3 := BitVec.ofBool p.m ++ p.idx

/-- The bit of a mode operand (R84). -/
def modeBit : Mode → BitVec 1
  | .print => 0#1
  | .dump => 1#1

/-- The number of a register (R87). -/
def regBits : RegName → BitVec 3
  | .imgW => 0#3
  | .imgH => 1#3
  | .stat => 2#3
  | .pos => 3#3
  | .chk => 4#3
  | .cks => 5#3
  | .rsp => 6#3
  | .shr => 7#3

/-- The word of an operation, from the formats of R81 and the codes of R85. -/
def encode : Instr → OpWord
  | .rst => 0x0#4 ++ 0#28
  | .setw v => 0x1#4 ++ 0#20 ++ v
  | .seth v => 0x2#4 ++ 0#20 ++ v
  | .start d => 0x3#4 ++ 0#27 ++ modeBit d
  | .pix p => 0x4#4 ++ 0#25 ++ pixelBits p
  | .row p0 p1 p2 p3 p4 p5 p6 p7 =>
      0x5#4 ++ 0#4 ++ pixelBits p0 ++ pixelBits p1 ++ pixelBits p2 ++ pixelBits p3
        ++ pixelBits p4 ++ pixelBits p5 ++ pixelBits p6 ++ pixelBits p7
  | .frameInit => 0x6#4 ++ 0#25 ++ 0#3
  | .frameData => 0x6#4 ++ 0#25 ++ 1#3
  | .frameEmpty => 0x6#4 ++ 0#25 ++ 2#3
  | .framePrint => 0x6#4 ++ 0#25 ++ 3#3
  | .frameReport => 0x6#4 ++ 0#25 ++ 4#3
  | .dump => 0x7#4 ++ 0#28
  | .rd n => 0x8#4 ++ 0#25 ++ regBits n
  | .rdcb a => 0x9#4 ++ 0#18 ++ a

end Sys2Proof
end

