-- ==== Sys2Proof/Machine/State.lean ====
section
/-! DEFINITION. The state of the block (10_state.md R20 to R38), the inputs and outputs of a step (00_scope.md R13),
and the state after reset. -/

namespace Sys2Proof.Machine

/-- `ENC`, the encoder phase (10_state.md R26). -/
inductive EncPhase where
  /-- 0 `E_IDLE`: no job started. -/
  | idle
  /-- 1 `E_FILL`: a chunk is being filled. -/
  | fill
  /-- 2 `E_FULL`: the chunk buffer holds a complete chunk. -/
  | full
  /-- 3 `E_DONE`: every chunk has been drained. -/
  | done
  deriving DecidableEq, Repr

/-- `SEQ`, the packet sequencer phase (10_state.md R27); the values 6 and 7 never occur, so they have no name (log 9). -/
inductive SeqPhase where
  /-- 0 `S_IDLE`: no print job. -/
  | idle
  /-- 1 `S_READY`: print job started, INIT not yet sent. -/
  | ready
  /-- 2 `S_DATA`: INIT sent, DATA frames being sent. -/
  | data
  /-- 3 `S_EMPTIED`: EMPTY sent. -/
  | emptied
  /-- 4 `S_REPORT`: PRINT sent, fewer than ten REPORTs sent. -/
  | report
  /-- 5 `S_DONE`: the tenth REPORT is sent. -/
  | done
  deriving DecidableEq, Repr

/-- `ERR`, the sticky error code (10_state.md R29, 60_exceptions.md R170), in the order of the codes 0 to 7. -/
inductive ErrCode where
  /-- 0: no error. -/
  | noError
  /-- 1: raised by START. -/
  | invalidDimensions
  /-- 2: reserved for host software, never raised (R171). -/
  | unsupportedColorMode
  /-- 3: reserved for host software, never raised (R171). -/
  | tooManyColors
  /-- 4: raised by START. -/
  | unsupportedChunkCount
  /-- 5: raised by FRAME and DUMP. -/
  | transportFailure
  /-- 6: raised by an operation whose precondition is false. -/
  | sequenceError
  /-- 7: raised by an illegal word. -/
  | illegalOperation
  deriving DecidableEq, Repr

/-- Which way a byte exchange failed (00_scope.md R13): `w`, the byte was not taken; `r`, it was taken and no
response came. -/
inductive FailKind where
  | w
  | r
  deriving DecidableEq, Repr

/-- An event of the history (00_scope.md R13). -/
inductive Event where
  | tx (b : Byte)
  | rx (r : Byte)
  | fail (kind : FailKind)
  deriving DecidableEq, Repr

/-- What the print link does with one byte (`Xfer`, 00_scope.md R13): one of the three answers, or `never`, no
answer at all (70_reset_and_hazards.md R199). -/
inductive XferAnswer where
  | ok (r : Byte)
  | wfail
  | rfail
  | never
  deriving DecidableEq, Repr

/-- What the dump sink does with one byte (`Put`, 00_scope.md R13): one of the two answers, or `never`, no answer at
all (70_reset_and_hazards.md R199). -/
inductive PutAnswer where
  | ok
  | wfail
  | never
  deriving DecidableEq, Repr

/-- What the host does next: presents an operation word (00_scope.md R6), or resets the block between two operations
(70_reset_and_hazards.md R190). -/
inductive HostInput where
  | word (w : OpWord)
  | reset
  deriving DecidableEq, Repr

/-- The chunk buffer (10_state.md R35): the bytes that are not 0x00, by address, addresses strictly rising. -/
abbrev Memory := List Host.Cell

/-- The whole state: the hardware state of 10_state.md R20 (every register in its fields), and after it the fields
that are the model's own: instance constants, inputs still to come, outputs so far. -/
structure State where
  /-- `IMG_W` (R23). -/
  imgW : BitVec 8
  /-- `IMG_H` (R24). -/
  imgH : BitVec 8
  /-- `STAT.ENC` (R26). -/
  enc : EncPhase
  /-- `STAT.SEQ` (R27). -/
  seq : SeqPhase
  /-- `STAT.MODE` (R28). -/
  mode : Mode
  /-- `STAT.ERR` (R29). -/
  err : ErrCode
  /-- `POS.TR` (R30). -/
  tr : BitVec 5
  /-- `POS.TC` (R30). -/
  tc : BitVec 5
  /-- `POS.Y` (R30). -/
  y : BitVec 3
  /-- `POS.X` (R30). -/
  x : BitVec 3
  /-- `CHK.CHUNK` (R31). -/
  chunk : BitVec 4
  /-- `CHK.NCHUNK` (R31). -/
  nchunk : BitVec 4
  /-- `CHK.RPT` (R31). -/
  rpt : BitVec 4
  /-- `CKS` (R32). -/
  cks : Half
  /-- `RSP.RSP1` (R33). -/
  rsp1 : Byte
  /-- `RSP.RSP2` (R33). -/
  rsp2 : Byte
  /-- `SHR.LO` (R34). -/
  lo : Byte
  /-- `SHR.HI` (R34). -/
  hi : Byte
  /-- `CB[0..639]` (R35). -/
  cb : Memory
  /-- The packet parameters of the instance (00_scope.md R8, R37): constants that no step changes (log 4). -/
  packets : Packets
  /-- What the host presents from here on, next first (00_scope.md R6; log 1). -/
  port : List HostInput
  /-- What the print link answers from here on, next first; past the end it never answers (R13, R199; log 2, log 3). -/
  xferAnswers : List XferAnswer
  /-- What the dump sink answers from here on, next first; past the end it never answers (R13, R199; log 2, log 3). -/
  putAnswers : List PutAnswer
  /-- A FRAME or DUMP whose byte the transport never answered is still in progress (R199; log 3). -/
  stuck : Bool
  /-- `HIST`, the transport events in order (R13). -/
  hist : List Event
  /-- The read results `rd` returned to the host, in order (00_scope.md R10; log 7). -/
  reads : List Half
  deriving DecidableEq, Repr

/-- Why the machine stops with a fault: never. Every operation word has a defined effect in every state (00_scope.md
R12: an operation completes or raises an error, and an error is a next state), so there is no constructor. -/
inductive Fault where
  deriving DecidableEq, Repr

/-- Why the machine refuses an operation. -/
inductive Refusal where
  /-- Raised by an arm of `exec` whose operation has no meaning yet; no arm is left so. Safe: the model stops. -/
  | notModelled (mnemonic : String)
  deriving DecidableEq, Repr

/-- What one operation or one step answers. -/
abbrev Result := Host.Outcome State Fault Refusal

/-- The state after reset: every register 0, the chunk buffer all 0x00 (10_state.md R38, 70_reset_and_hazards.md
R190), the history empty, no input placed, the packet parameters free (log 1, log 2, log 4, log 8). -/
def State.reset : State where
  imgW := 0#8
  imgH := 0#8
  enc := .idle
  seq := .idle
  mode := .print
  err := .noError
  tr := 0#5
  tc := 0#5
  y := 0#3
  x := 0#3
  chunk := 0#4
  nchunk := 0#4
  rpt := 0#4
  cks := 0#16
  rsp1 := 0#8
  rsp2 := 0#8
  lo := 0#8
  hi := 0#8
  cb := []
  packets := Config.packets
  port := []
  xferAnswers := []
  putAnswers := []
  stuck := false
  hist := []
  reads := []

end Sys2Proof.Machine
end

