-- ==== Sys2Proof/Machine/Flags.lean ====
section
/-! DEFINITION. The status fields as bits, and the words RD reads: `STAT`, `POS`, `CHK`, `RSP`, `SHR`
(10_state.md R20, R25, R30, R31, R33, R34). The block has no arithmetic flags (R29). -/

namespace Sys2Proof.Machine

/-- The value of `ENC` (R26). -/
def encCode : EncPhase → BitVec 2
  | .idle => 0#2
  | .fill => 1#2
  | .full => 2#2
  | .done => 3#2

/-- The value of `SEQ` (R27). -/
def seqCode : SeqPhase → BitVec 3
  | .idle => 0#3
  | .ready => 1#3
  | .data => 2#3
  | .emptied => 3#3
  | .report => 4#3
  | .done => 5#3

/-- The value of `MODE` (R28). -/
def modeCode : Mode → BitVec 1
  | .print => 0#1
  | .dump => 1#1

/-- The value of `ERR` (60_exceptions.md R170). -/
def errCode : ErrCode → BitVec 3
  | .noError => 0#3
  | .invalidDimensions => 1#3
  | .unsupportedColorMode => 2#3
  | .tooManyColors => 3#3
  | .unsupportedChunkCount => 4#3
  | .transportFailure => 5#3
  | .sequenceError => 6#3
  | .illegalOperation => 7#3

/-- `STAT`: zero in 15:9, `ERR` in 8:6, `MODE` in 5, `SEQ` in 4:2, `ENC` in 1:0 (R25). -/
def statWord (s : State) : Half := 0#7 ++ errCode s.err ++ modeCode s.mode ++ seqCode s.seq ++ encCode s.enc

/-- `POS`: `TR` in 15:11, `TC` in 10:6, `Y` in 5:3, `X` in 2:0 (R30). -/
def posWord (s : State) : Half := s.tr ++ s.tc ++ s.y ++ s.x

/-- `CHK`: zero in 15:12, `RPT` in 11:8, `NCHUNK` in 7:4, `CHUNK` in 3:0 (R31). -/
def chkWord (s : State) : Half := 0#4 ++ s.rpt ++ s.nchunk ++ s.chunk

/-- `RSP`: `RSP2` in 15:8, `RSP1` in 7:0 (R33). -/
def rspWord (s : State) : Half := s.rsp2 ++ s.rsp1

/-- `SHR`: `HI` in 15:8, `LO` in 7:0 (R34). -/
def shrWord (s : State) : Half := s.hi ++ s.lo

/-- The register RD names, zero-extended to 16 bits (R20, 30_encoding.md R87). -/
def readRegister (n : RegName) (s : State) : Half :=
  match n with
  | .imgW => s.imgW.setWidth 16
  | .imgH => s.imgH.setWidth 16
  | .stat => statWord s
  | .pos => posWord s
  | .chk => chkWord s
  | .cks => s.cks
  | .rsp => rspWord s
  | .shr => shrWord s

end Sys2Proof.Machine
end

