-- ==== Sys2Proof/Machine/Ops.lean ====
section
/-! DEFINITION. The named operations over memory and registers: byte reads and writes of the chunk buffer, the raise
of an error, the common prologue, the clearing of the block, the read results, the checksum, the chunk hand-over. -/

namespace Sys2Proof.Machine

/-- What comes after, in order (20_memory.md R70): `k` runs on the state `r` answers, and a stop stays. -/
def Result.andThen (r : Result) (k : State → Result) : Result :=
  match r with
  | .next s => k s
  | .fault f => .fault f
  | .refused f => .refused f

/-! ## The chunk buffer -/

/-- What a byte that nothing has written since the last clearing reads as: 0x00 (10_state.md R38, R41). -/
def blankByte : Byte := 0#8

/-- `CB[a]` (00_scope.md R10). -/
def Memory.read : Memory → Nat → Byte
  | [], _ => blankByte
  | (b, v) :: m, a => if a = b then v else Memory.read m a

/-- `CB[a] <- v` (00_scope.md R10), keeping the canonical form: writing the blank byte removes the entry. -/
def Memory.write : Memory → Nat → Byte → Memory
  | [], a, v => if v = blankByte then [] else [(a, v)]
  | (b, u) :: m, a, v =>
    if a < b then (if v = blankByte then (b, u) :: m else (a, v) :: (b, u) :: m)
    else if a = b then (if v = blankByte then m else (a, v) :: m)
    else (b, u) :: Memory.write m a v

/-- Every entry of `m` lies at `lo` or above, below 640, in strictly rising order, and none is blank. -/
def Memory.wfFrom : Nat → Memory → Bool
  | _, [] => true
  | lo, (a, v) :: m =>
    decide (lo ≤ a) && decide (a < Config.chunkBytes) && (v != blankByte) && Memory.wfFrom (a + 1) m

/-- The canonical form of the chunk buffer: addresses 0 to 639 strictly rising, no entry equal to what an unlisted
address reads as. -/
def Memory.wf (m : Memory) : Bool := Memory.wfFrom 0 m

/-- `MemWrite(a, 1, v)` (00_scope.md R10). Addresses from 640 up do not exist (10_state.md R35): a write to one, which
no reachable state makes (20_memory.md R67), finds no byte to change, and the operation goes on (R12; DESIGN CHOICE,
log 10). -/
def memWrite (a : Nat) (v : Byte) (s : State) : State :=
  if a < Config.chunkBytes then { s with cb := s.cb.write a v } else s

/-- `MemRead(a, 1)` (00_scope.md R10), which has no side effect (20_memory.md R68). -/
def memRead (a : Nat) (s : State) : Byte := s.cb.read a

/-- `[CB[0], CB[1], ..., CB[639]]`, ascending (20_memory.md R63). -/
def chunkBytesOf (s : State) : List Byte := (List.range Config.chunkBytes).map fun a => memRead a s

/-- `ClearCB()` (00_scope.md R10, 10_state.md R41). -/
def clearCB (s : State) : State := { s with cb := [] }

/-! ## Errors: entry and exit -/

/-- `raise E` (60_exceptions.md R174): the first code is kept, and nothing else changes. This is the block's one way
of taking an exception: nothing is saved, no mode changes, there is no program counter. -/
def raise (e : ErrCode) (s : State) : State := { s with err := if s.err = .noError then e else s.err }

/-- Every register and the buffer at the reset values of 10_state.md R38; the history, the packet parameters and the
transport are not touched (70_reset_and_hazards.md R191), nor are the host's inputs and read results. It is the body
of RST, the block's one exit from an error (40_config_control.md R100, 60_exceptions.md R176). -/
def resetBlock (s : State) : State :=
  clearCB { s with
    imgW := 0#8, imgH := 0#8
    enc := .idle, seq := .idle, mode := .print, err := .noError
    tr := 0#5, tc := 0#5, y := 0#3, x := 0#3
    chunk := 0#4, nchunk := 0#4, rpt := 0#4
    cks := 0#16, rsp1 := 0#8, rsp2 := 0#8, lo := 0#8, hi := 0#8 }

/-- A reset from outside (70_reset_and_hazards.md R190): the effect of RST; it also ends an operation whose byte the
transport never answered (R199). -/
def externalReset (s : State) : State := { resetBlock s with stuck := false }

/-- The prologue of every operation but RST, RD and RDCB, after decode (60_exceptions.md R173, steps 3, 5 and 6). -/
def prologue (pre : Bool) (body : State → Result) (s : State) : Result :=
  if s.err ≠ .noError then .next s
  else if pre then body s
  else .next (raise .sequenceError s)

/-- An illegal word (60_exceptions.md R172, R173 steps 3 and 4): `IllegalOperation` if there is no error yet,
otherwise nothing; no read result. -/
def illegalWord (s : State) : Result := .next (raise .illegalOperation s)

/-! ## Results, checksum, chunk hand-over -/

/-- `rd <- v`: a read result is returned to the host (00_scope.md R10). -/
def returnRead (v : Half) (s : State) : State := { s with reads := s.reads ++ [v] }

/-- `CksAdd(b)` on the accumulator's value (42_checksum_framer.md R140): addition modulo 65536. -/
def cksAdd (cks : Half) (b : Byte) : Half := cks + b.setWidth 16

/-- `AdvanceChunk()` (42_checksum_framer.md R151). -/
def advanceChunk (s : State) : State :=
  let chunk := s.chunk + 1#4
  clearCB { s with chunk := chunk, enc := if chunk = s.nchunk then .done else .fill }

end Sys2Proof.Machine
end

