-- ==== Sys2Proof/Machine/Operands.lean ====
section
/-! DEFINITION. What the operations do with their operands: the colour code of a pixel, the shift into the plane
registers, the place a pixel row goes, the dimension checks of START. -/

namespace Sys2Proof.Machine

/-- `Code(m, idx) = (low, high)`, the table of 41_tile_encoder.md R121. -/
def colourCode (p : Pixel) : Bool × Bool :=
  if p.m then
    match p.idx.toNat with
    | 0 => (true, true)
    | 1 => (false, true)
    | 2 => (true, false)
    | _ => (false, false)
  else (false, false)

/-- An 8-bit left shift with the new bit entering at bit 0 (R122). -/
def shiftBit (r : Byte) (b : Bool) : Byte := (r <<< 1) ||| (BitVec.ofBool b).setWidth 8

/-- `ShiftIn(p)` (R122). -/
def shiftIn (p : Pixel) (s : State) : State :=
  { s with lo := shiftBit s.lo (colourCode p).1, hi := shiftBit s.hi (colourCode p).2 }

/-- `ShiftIn` of several pixels in order (R127: `for x = 0 to 7`). -/
def shiftInAll (ps : List Pixel) (s : State) : State := ps.foldl (fun t p => shiftIn p t) s

/-- `Off(tr, tc, y)` (20_memory.md R60). -/
def off (tr tc y : Nat) : Nat := (tr % 2) * Config.trowBytes + tc * Config.tileBytes + y * 2

/-- The address of the low-plane byte of the pixel row the block is at (R124). -/
def rowAddress (s : State) : Nat := off s.tr.toNat s.tc.toNat s.y.toNat

/-- `CommitRow()` (R124): the low-plane byte, then the high-plane byte. -/
def commitRow (s : State) : State := memWrite (rowAddress s + 1) s.hi (memWrite (rowAddress s) s.lo s)

/-- The number of tile columns, `IMG_W div 8` (10_state.md R23). -/
def tileColumns (s : State) : Nat := s.imgW.toNat / Config.tile

/-- `Advance()` (R125). -/
def advance (s : State) : State :=
  if s.y.toNat < 7 then { s with x := 0#3, y := s.y + 1#3 }
  else if s.tc.toNat < tileColumns s - 1 then { s with x := 0#3, y := 0#3, tc := s.tc + 1#5 }
  else
    let tr := s.tr + 1#5
    { s with x := 0#3, y := 0#3, tc := 0#5, tr := tr, enc := if tr.toNat % 2 = 0 then .full else s.enc }

/-- Check 1 of START (40_config_control.md R103). -/
def badDimensions (w h : BitVec 8) : Bool :=
  decide (w.toNat = 0) || decide (w.toNat > Config.maxW) || decide (w.toNat % Config.tile ≠ 0)
    || decide (h.toNat = 0) || decide (h.toNat % Config.hUnit ≠ 0)

/-- Check 2 of START (R103). -/
def tooManyChunks (h : BitVec 8) : Bool := decide (h.toNat / Config.hUnit > Config.maxChunks)

end Sys2Proof.Machine
end

