-- ==== Sys2Proof/Machine/Control.lean ====
section
/-! DEFINITION. The configuration and control operations (40_config_control.md): RST, SETW, SETH, START, RD, RDCB. -/

namespace Sys2Proof.Machine

/-- RST (R100): runs in every state, error states included. -/
def execRst (s : State) : Result := .next (resetBlock s)

/-- SETW v (R101). -/
def execSetw (v : Byte) (s : State) : Result :=
  prologue (decide (s.enc = .idle)) (fun s => .next { s with imgW := v }) s

/-- SETH v (R102). -/
def execSeth (v : Byte) (s : State) : Result :=
  prologue (decide (s.enc = .idle)) (fun s => .next { s with imgH := v }) s

/-- The state a successful START leaves (R103). -/
def startedJob (d : Mode) (s : State) : State :=
  clearCB { s with
    mode := d
    nchunk := BitVec.ofNat 4 (s.imgH.toNat / Config.hUnit), chunk := 0#4, rpt := 0#4
    tr := 0#5, tc := 0#5, y := 0#3, x := 0#3
    enc := .fill
    seq := match d with
      | .print => .ready
      | .dump => .idle }

/-- START d (R103): check 1, then check 2, then the job. -/
def execStart (d : Mode) (s : State) : Result :=
  prologue (decide (s.enc = .idle)) (fun s =>
    if badDimensions s.imgW s.imgH then .next (raise .invalidDimensions s)
    else if tooManyChunks s.imgH then .next (raise .unsupportedChunkCount s)
    else .next (startedJob d s)) s

/-- RD n (R105): runs in every state. -/
def execRd (n : RegName) (s : State) : Result := .next (returnRead (readRegister n s) s)

/-- RDCB a (R106): runs in every state; an address of 640 or more is an illegal operation (R106, 30_encoding.md R90
item 4; decode never gives one, log 12). -/
def execRdcb (a : BitVec 10) (s : State) : Result :=
  if a.toNat < Config.chunkBytes then .next (returnRead ((memRead a.toNat s).setWidth 16) s) else illegalWord s

end Sys2Proof.Machine
end

