-- ==== Sys2Proof/Machine/Link.lean ====
section
/-! DEFINITION. The transport exchanges (00_scope.md R13) and the frame emission `EmitFrame`
(42_checksum_framer.md R141, R142): bytes are generated one at a time as they are sent; no frame is stored. -/

namespace Sys2Proof.Machine

/-- How a run of exchanges ends: every byte answered, one byte answered with a failure, one byte never answered. -/
inductive Ending where
  | done
  | failed
  | silent
  deriving DecidableEq, Repr

/-- One place of a frame (R141): a byte sent as it is, a byte that is summed and sent, or a byte of the checksum. -/
inductive Slot where
  | plain (b : Byte)
  | summed (b : Byte)
  | cksLo
  | cksHi
  deriving DecidableEq, Repr

/-- The byte of a slot when the accumulator holds `cks` (R142: `6+n` and `7+n` read `CKS`). -/
def slotByte (cks : Half) : Slot → Byte
  | .plain b => b
  | .summed b => b
  | .cksLo => BitVec.ofNat 8 (cks.toNat % 256)
  | .cksHi => BitVec.ofNat 8 (cks.toNat / 256)

/-- The accumulator once a slot's byte is generated: a summed byte is added BEFORE it is exchanged (R142). -/
def slotSum (cks : Half) : Slot → Half
  | .summed b => cksAdd cks b
  | .plain _ | .cksLo | .cksHi => cks

/-- What a run of `Xfer` exchanges leaves: the accumulator, the events and responses in order, the answers not yet
asked for, and how it ended. -/
structure Emission where
  cks : Half
  events : List Event
  responses : List Byte
  rest : List XferAnswer
  ending : Ending
  deriving DecidableEq, Repr

/-- The run that begins with byte `b` answered `ok(r)` and goes on as `e` (00_scope.md R13: `tx(b)`, `rx(r)`). -/
def Emission.exchanged (b r : Byte) : Emission → Emission
  | ⟨cks, events, responses, rest, ending⟩ => ⟨cks, .tx b :: .rx r :: events, r :: responses, rest, ending⟩

/-- The loop of `EmitFrame` (R142): each slot's byte is generated, summed where it is to be, and exchanged by `Xfer`;
the first failure ends it (R145), and so does a byte that is never answered (70_reset_and_hazards.md R199). -/
def emitSlots : List Slot → Half → List XferAnswer → Emission
  | [], cks, answers => ⟨cks, [], [], answers, .done⟩
  | slot :: slots, cks, answers =>
    match answers with
    | .ok r :: rest => (emitSlots slots (slotSum cks slot) rest).exchanged (slotByte cks slot) r
    | .wfail :: rest => ⟨slotSum cks slot, [.fail .w], [], rest, .failed⟩
    | .rfail :: rest => ⟨slotSum cks slot, [.tx (slotByte cks slot), .fail .r], [], rest, .failed⟩
    | .never :: rest => ⟨slotSum cks slot, [], [], rest, .silent⟩
    | [] => ⟨slotSum cks slot, [], [], [], .silent⟩

/-- The places of a frame in index order (R141, R142). -/
def frameSlots (cmd comp : Byte) (pl : List Byte) : List Slot :=
  [.plain Config.magic1, .plain Config.magic2, .summed cmd, .summed comp,
    .summed (BitVec.ofNat 8 (pl.length % 256)), .summed (BitVec.ofNat 8 (pl.length / 256))]
  ++ pl.map .summed
  ++ [.cksLo, .cksHi, .plain Config.ackFill, .plain Config.ackFill]

/-- `EmitFrame(cmd, comp, pl)` (R142), and `onDone` if it answers done. `CKS` is cleared first; `RSP` is written only
when every byte is answered (R144), from the responses to bytes 8+n and 9+n; a failure raises `TransportFailure`
(R145); silence leaves the operation in progress (R199). -/
def emitFrame (cmd comp : Byte) (pl : List Byte) (onDone : State → State) (s : State) : Result :=
  let e := emitSlots (frameSlots cmd comp pl) 0 s.xferAnswers
  let sent := { s with cks := e.cks, hist := s.hist ++ e.events, xferAnswers := e.rest }
  match e.ending with
  | .done =>
    .next (onDone { sent with
      rsp1 := e.responses.getD (8 + pl.length) 0, rsp2 := e.responses.getD (9 + pl.length) 0 })
  | .failed => .next (raise .transportFailure sent)
  | .silent => .next { sent with stuck := true }

/-- What a run of `Put` exchanges leaves. -/
structure PutRun where
  events : List Event
  rest : List PutAnswer
  ending : Ending
  deriving DecidableEq, Repr

/-- The run that begins with byte `b` taken and goes on as `e`. -/
def PutRun.taken (b : Byte) : PutRun → PutRun
  | ⟨events, rest, ending⟩ => ⟨.tx b :: events, rest, ending⟩

/-- The loop of DUMP (42_checksum_framer.md R153): one `Put` a byte, the first failure ends it. -/
def putBytes : List Byte → List PutAnswer → PutRun
  | [], answers => ⟨[], answers, .done⟩
  | b :: bs, answers =>
    match answers with
    | .ok :: rest => (putBytes bs rest).taken b
    | .wfail :: rest => ⟨[.fail .w], rest, .failed⟩
    | .never :: rest => ⟨[], rest, .silent⟩
    | [] => ⟨[], [], .silent⟩

/-- The body of DUMP (R153): neither `CKS` nor `RSP` is touched. -/
def dumpChunk (onDone : State → State) (s : State) : Result :=
  let e := putBytes (chunkBytesOf s) s.putAnswers
  let sent := { s with hist := s.hist ++ e.events, putAnswers := e.rest }
  match e.ending with
  | .done => .next (onDone sent)
  | .failed => .next (raise .transportFailure sent)
  | .silent => .next { sent with stuck := true }

end Sys2Proof.Machine
end

