-- ==== Sys2Proof/Machine/Frame.lean ====
section
/-! DEFINITION. The frame operations and the dump (42_checksum_framer.md): FRAME.INIT, FRAME.DATA, FRAME.EMPTY,
FRAME.PRINT, FRAME.REPORT, DUMP. -/

namespace Sys2Proof.Machine

/-- FRAME.INIT (R146). -/
def execFrameInit (s : State) : Result :=
  prologue (decide (s.seq = .ready)) (fun s =>
    emitFrame s.packets.pInit.cmd s.packets.pInit.comp s.packets.pInit.payload
      (fun t => { t with seq := .data }) s) s

/-- FRAME.DATA (R147). -/
def execFrameData (s : State) : Result :=
  prologue (decide (s.seq = .data) && decide (s.enc = .full)) (fun s =>
    emitFrame Config.cmdData Config.compData (chunkBytesOf s) advanceChunk s) s

/-- FRAME.EMPTY (R148). -/
def execFrameEmpty (s : State) : Result :=
  prologue (decide (s.seq = .data) && decide (s.enc = .done)) (fun s =>
    emitFrame s.packets.pEmpty.cmd s.packets.pEmpty.comp s.packets.pEmpty.payload
      (fun t => { t with seq := .emptied }) s) s

/-- FRAME.PRINT (R149). -/
def execFramePrint (s : State) : Result :=
  prologue (decide (s.seq = .emptied)) (fun s =>
    emitFrame s.packets.pPrint.cmd s.packets.pPrint.comp s.packets.pPrint.payload
      (fun t => { t with seq := .report, rpt := 0#4 }) s) s

/-- One more REPORT is sent; the tenth ends the job (R150). -/
def countReport (s : State) : State :=
  let rpt := s.rpt + 1#4
  { s with rpt := rpt, seq := if rpt.toNat = Config.reportCount then .done else s.seq }

/-- FRAME.REPORT (R150). -/
def execFrameReport (s : State) : Result :=
  prologue (decide (s.seq = .report)) (fun s =>
    emitFrame s.packets.pReport.cmd s.packets.pReport.comp s.packets.pReport.payload countReport s) s

/-- DUMP (R153). -/
def execDump (s : State) : Result :=
  prologue (decide (s.mode = .dump) && decide (s.enc = .full)) (fun s => dumpChunk advanceChunk s) s

end Sys2Proof.Machine
end

