-- ==== Sys2Proof/Machine/Tile.lean ====
section
/-! DEFINITION. The tile encoder's operations (41_tile_encoder.md): PIX, ROW. -/

namespace Sys2Proof.Machine

/-- PIX p (R126). -/
def execPix (p : Pixel) (s : State) : Result :=
  prologue (decide (s.enc = .fill)) (fun s =>
    let t := shiftIn p s
    if t.x.toNat < 7 then .next { t with x := t.x + 1#3 }
    else .next (advance (commitRow t))) s

/-- ROW p0 .. p7 (R127). -/
def execRow (p0 p1 p2 p3 p4 p5 p6 p7 : Pixel) (s : State) : Result :=
  prologue (decide (s.enc = .fill) && decide (s.x = 0#3)) (fun s =>
    .next (advance (commitRow (shiftInAll [p0, p1, p2, p3, p4, p5, p6, p7] s)))) s

end Sys2Proof.Machine
end

