-- ==== Sys2Proof/Machine/Dispatch.lean ====
section
/-! DEFINITION. One arm per operation: the meaning it has. -/

namespace Sys2Proof.Machine

def exec (i : Instr) (s : State) : Host.Outcome State Fault Refusal :=
  match i with
  | .rst => Sys2Proof.Machine.execRst s
  | .setw v => Sys2Proof.Machine.execSetw v s
  | .seth v => Sys2Proof.Machine.execSeth v s
  | .start d => Sys2Proof.Machine.execStart d s
  | .pix p => Sys2Proof.Machine.execPix p s
  | .row p0 p1 p2 p3 p4 p5 p6 p7 => Sys2Proof.Machine.execRow p0 p1 p2 p3 p4 p5 p6 p7 s
  | .frameInit => Sys2Proof.Machine.execFrameInit s
  | .frameData => Sys2Proof.Machine.execFrameData s
  | .frameEmpty => Sys2Proof.Machine.execFrameEmpty s
  | .framePrint => Sys2Proof.Machine.execFramePrint s
  | .frameReport => Sys2Proof.Machine.execFrameReport s
  | .dump => Sys2Proof.Machine.execDump s
  | .rd n => Sys2Proof.Machine.execRd n s
  | .rdcb a => Sys2Proof.Machine.execRdcb a s

end Sys2Proof.Machine
end

