-- ==== Sys2Proof/Machine/Exec.lean ====
section
/-! DEFINITION. Taking the host's next input: `Exec(w)` of a word (60_exceptions.md R173), a reset, or waiting. -/

namespace Sys2Proof.Machine

/-- `Exec(w)` (R173): decode, then the operation's meaning, or the error of an illegal word. -/
def execWord (w : OpWord) (s : State) : Result :=
  match decodeWord w with
  | .legal i => exec i s
  | .illegal _ => illegalWord s

/-- One step of the block on the host's next input. With none, the block waits (70_reset_and_hazards.md R191). A
reset may come between any two operations (R190). A block whose last operation is still in progress takes no word,
not even RST, and only a reset recovers it (R199). Otherwise the word is taken and executed (log 1, log 3). -/
def takeInput (s : State) : Result :=
  match s.port with
  | [] => .next s
  | .reset :: rest => .next (externalReset { s with port := rest })
  | .word w :: rest => if s.stuck then .next s else execWord w { s with port := rest }

/-- The port with `w` as the word the host presents next, in place of what it would have presented. -/
def presentWord (w : OpWord) (s : State) : State :=
  { s with port := .word w :: s.port.drop 1, stuck := false }

end Sys2Proof.Machine
end

