-- ==== Sys2Proof/Machine/Step.lean ====
section
/-! DEFINITION. The step function. -/

namespace Sys2Proof.Machine

/-- One step: the complete execution of one operation word (00_scope.md R5), or a reset, or waiting for a word. -/
def step (s : State) : Host.Outcome State Fault Refusal := takeInput s

/-- `s` with the operation word whose bits are `w` (bits from `nbits` up zero) as the word the host presents next, to
a block that takes it (log 6). -/
def State.withFetchWord (s : State) (nbits w : Nat) : State := presentWord (BitVec.ofNat 32 (w % 2 ^ nbits)) s

end Sys2Proof.Machine
end

