-- ==== Sys2Proof/Safety.lean ====
section
/-! DEFINITION. The terms claims use: the opcode table as the spec prints it, the preconditions of
60_exceptions.md R180, the invariant of 10_state.md R39, the bytes of a frame (42_checksum_framer.md R141), what a job
has sent (R155, R156), and the encoding of an image (41_tile_encoder.md R130). None of it is used by the machine. -/

namespace Sys2Proof.Safety

open Sys2Proof.Machine

/-! ## The opcode table (30_encoding.md R85) -/

/-- One row of the table: a word `w` selects it when `w & mask = pattern`. -/
structure TableRow where
  mnemonic : String
  pattern : OpWord
  mask : OpWord
  deriving DecidableEq, Repr

/-- The fourteen rows, as R85 prints them. -/
def opcodeTable : List TableRow :=
  [⟨"RST", 0x00000000, 0xFFFFFFFF⟩,
   ⟨"SETW", 0x10000000, 0xFFFFFF00⟩,
   ⟨"SETH", 0x20000000, 0xFFFFFF00⟩,
   ⟨"START", 0x30000000, 0xFFFFFFFE⟩,
   ⟨"PIX", 0x40000000, 0xFFFFFFF8⟩,
   ⟨"ROW", 0x50000000, 0xFF000000⟩,
   ⟨"FRAME.INIT", 0x60000000, 0xFFFFFFFF⟩,
   ⟨"FRAME.DATA", 0x60000001, 0xFFFFFFFF⟩,
   ⟨"FRAME.EMPTY", 0x60000002, 0xFFFFFFFF⟩,
   ⟨"FRAME.PRINT", 0x60000003, 0xFFFFFFFF⟩,
   ⟨"FRAME.REPORT", 0x60000004, 0xFFFFFFFF⟩,
   ⟨"DUMP", 0x70000000, 0xFFFFFFFF⟩,
   ⟨"RD", 0x80000000, 0xFFFFFFF8⟩,
   ⟨"RDCB", 0x90000000, 0xFFFFFC00⟩]

/-- `w` selects the row `r`; for RDCB the extra condition `a < 640` also applies (R85). -/
def Selects (w : OpWord) (r : TableRow) : Prop :=
  w &&& r.mask = r.pattern ∧ (r.mnemonic = "RDCB" → (w &&& 0x3FF).toNat < 640)

/-- The row's mnemonic of each operation. -/
def mnemonicOf : Instr → String
  | .rst => "RST"
  | .setw _ => "SETW"
  | .seth _ => "SETH"
  | .start _ => "START"
  | .pix _ => "PIX"
  | .row _ _ _ _ _ _ _ _ => "ROW"
  | .frameInit => "FRAME.INIT"
  | .frameData => "FRAME.DATA"
  | .frameEmpty => "FRAME.EMPTY"
  | .framePrint => "FRAME.PRINT"
  | .frameReport => "FRAME.REPORT"
  | .dump => "DUMP"
  | .rd _ => "RD"
  | .rdcb _ => "RDCB"

/-- The bits of `arg` that must be zero, by `opc` (R81). -/
def mbzMask (opc : Nat) : OpWord :=
  match opc with
  | 0x0 | 0x7 => 0x0FFFFFFF
  | 0x1 | 0x2 => 0x0FFFFF00
  | 0x3 => 0x0FFFFFFE
  | 0x4 | 0x6 | 0x8 => 0x0FFFFFF8
  | 0x5 => 0x0F000000
  | 0x9 => 0x0FFFFC00
  | _ => 0

/-- A word is illegal when one of the four items of 30_encoding.md R90 holds. -/
def IllegalByR90 (w : OpWord) : Prop :=
  0xA ≤ (w >>> 28).toNat
  ∨ w &&& mbzMask (w >>> 28).toNat ≠ 0
  ∨ ((w >>> 28).toNat = 0x6 ∧ 5 ≤ (w &&& 0x7).toNat)
  ∨ ((w >>> 28).toNat = 0x9 ∧ 640 ≤ (w &&& 0x3FF).toNat)

/-! ## Errors and phases (60_exceptions.md) -/

/-- The operations that run in every state, error states included (R175). -/
def AlwaysRuns : Instr → Prop
  | .rst | .rd _ | .rdcb _ => True
  | .setw _ | .seth _ | .start _ | .pix _ | .row _ _ _ _ _ _ _ _ => False
  | .frameInit | .frameData | .frameEmpty | .framePrint | .frameReport | .dump => False

/-- `Pre`, the table of R180. -/
def Pre : Instr → State → Prop
  | .rst, _ | .rd _, _ | .rdcb _, _ => True
  | .setw _, s | .seth _, s | .start _, s => s.enc = .idle
  | .pix _, s => s.enc = .fill
  | .row _ _ _ _ _ _ _ _, s => s.enc = .fill ∧ s.x = 0#3
  | .frameInit, s => s.seq = .ready
  | .frameData, s => s.seq = .data ∧ s.enc = .full
  | .frameEmpty, s => s.seq = .data ∧ s.enc = .done
  | .framePrint, s => s.seq = .emptied
  | .frameReport, s => s.seq = .report
  | .dump, s => s.mode = .dump ∧ s.enc = .full

/-- The host resets the block, or presents the word of RST (10_state.md R26; the port is the model's own, log 1). -/
def ResetComesNext (s : State) : Prop :=
  ∃ rest, s.port = .reset :: rest ∨ ∃ w, s.port = .word w :: rest ∧ decodeWord w = .legal .rst

/-- The hardware state of `s` is the one after reset (10_state.md R38): every register 0, every buffer byte 0x00. -/
structure IsReset (s : State) : Prop where
  imgW : s.imgW = 0#8
  imgH : s.imgH = 0#8
  stat : s.enc = .idle ∧ s.seq = .idle ∧ s.mode = .print ∧ s.err = .noError
  pos : s.tr = 0#5 ∧ s.tc = 0#5 ∧ s.y = 0#3 ∧ s.x = 0#3
  chk : s.chunk = 0#4 ∧ s.nchunk = 0#4 ∧ s.rpt = 0#4
  cks : s.cks = 0#16
  rsp : s.rsp1 = 0#8 ∧ s.rsp2 = 0#8
  shr : s.lo = 0#8 ∧ s.hi = 0#8
  cb : ∀ a, s.cb.read a = 0

/-- What neither RST nor a reset touches: the history, the packet parameters and the transport
(70_reset_and_hazards.md R191), and the list of read results, which no rule names (the model's choice, log 7). -/
structure SameSurroundings (s t : State) : Prop where
  hist : t.hist = s.hist
  packets : t.packets = s.packets
  /-- The transport's answers still to come (their form is the model's choice, log 2). -/
  xferAnswers : t.xferAnswers = s.xferAnswers
  putAnswers : t.putAnswers = s.putAnswers
  /-- The model's choice, log 7. -/
  reads : t.reads = s.reads

/-- The number RD returns for each register, by the layouts of 10_state.md R20, R25, R30, R31, R33, R34. -/
def registerValue (n : RegName) (s : State) : Nat :=
  match n with
  | .imgW => s.imgW.toNat
  | .imgH => s.imgH.toNat
  | .stat => (encCode s.enc).toNat + 4 * (seqCode s.seq).toNat + 32 * (modeCode s.mode).toNat + 64 * (errCode s.err).toNat
  | .pos => s.x.toNat + 8 * s.y.toNat + 64 * s.tc.toNat + 2048 * s.tr.toNat
  | .chk => s.chunk.toNat + 16 * s.nchunk.toNat + 256 * s.rpt.toNat
  | .cks => s.cks.toNat
  | .rsp => s.rsp1.toNat + 256 * s.rsp2.toNat
  | .shr => s.lo.toNat + 256 * s.hi.toNat

/-! ## Places in the chunk buffer (20_memory.md R60, R61; 41_tile_encoder.md R130) -/

/-- Which tile row of the band the address lies in. -/
def halfOf (a : Nat) : Nat := a / 320
/-- Which tile column. -/
def tileColOf (a : Nat) : Nat := (a % 320) / 16
/-- Which pixel row of the tile. -/
def pixelRowOf (a : Nat) : Nat := (a % 16) / 2
/-- Which bitplane: 0 low, 1 high. -/
def planeOf (a : Nat) : Nat := a % 2

/-- Address `a` belongs to a pixel row completed since the chunk began (R39 item 9): its tile column exists, and its
(tile row of the band, tile column, pixel row) comes before `POS` in scan order (41_tile_encoder.md R125). -/
def rowDone (s : State) (a : Nat) : Bool :=
  decide (tileColOf a < s.imgW.toNat / 8) &&
    (decide (halfOf a < s.tr.toNat % 2) ||
      (decide (halfOf a = s.tr.toNat % 2) &&
        (decide (tileColOf a < s.tc.toNat) ||
          (decide (tileColOf a = s.tc.toNat) && decide (pixelRowOf a < s.y.toNat)))))

/-! ## The invariant of reachable states (10_state.md R39) -/

/-- The ten items of R39, with the canonical form of the buffer and the reserved codes of R171. -/
structure BlockInv (s : State) : Prop where
  /-- The buffer is in canonical form, with addresses 0 to 639 only. -/
  cb_wf : s.cb.wf = true
  /-- Item 1. -/
  idle_blank : s.enc = .idle →
    s.seq = .idle ∧ s.mode = .print ∧ s.tr = 0#5 ∧ s.tc = 0#5 ∧ s.y = 0#3 ∧ s.x = 0#3
      ∧ s.chunk = 0#4 ∧ s.nchunk = 0#4 ∧ s.rpt = 0#4 ∧ s.cks = 0#16 ∧ s.rsp1 = 0#8 ∧ s.rsp2 = 0#8
      ∧ s.lo = 0#8 ∧ s.hi = 0#8 ∧ s.cb = []
  /-- Item 2. -/
  job_dims : s.enc ≠ .idle →
    8 ≤ s.imgW.toNat ∧ s.imgW.toNat ≤ 160 ∧ s.imgW.toNat % 8 = 0
      ∧ 16 ≤ s.imgH.toNat ∧ s.imgH.toNat ≤ 144 ∧ s.imgH.toNat % 16 = 0
      ∧ s.nchunk.toNat = s.imgH.toNat / 16 ∧ 1 ≤ s.nchunk.toNat ∧ s.nchunk.toNat ≤ 9
  /-- Item 3. -/
  fill_place : s.enc = .fill →
    s.chunk.toNat < s.nchunk.toNat ∧ s.tr.toNat / 2 = s.chunk.toNat ∧ s.tc.toNat < s.imgW.toNat / 8
  /-- Item 4. -/
  full_place : s.enc = .full →
    s.chunk.toNat < s.nchunk.toNat ∧ s.tr.toNat = 2 * (s.chunk.toNat + 1) ∧ s.tc = 0#5 ∧ s.y = 0#3 ∧ s.x = 0#3
  /-- Item 5. -/
  done_place : s.enc = .done →
    s.chunk = s.nchunk ∧ s.tr.toNat = 2 * s.nchunk.toNat ∧ s.tc = 0#5 ∧ s.y = 0#3 ∧ s.x = 0#3 ∧ s.cb = []
  /-- Item 6, first sentence. -/
  dump_seq : s.mode = .dump → s.seq = .idle
  /-- Item 6, second sentence. -/
  print_seq : s.mode = .print → s.enc ≠ .idle → s.seq ≠ .idle
  /-- Item 7, first sentence. -/
  ready_chunk : s.seq = .ready → s.chunk = 0#4
  /-- Item 7, second sentence. -/
  late_seq : s.seq = .emptied ∨ s.seq = .report ∨ s.seq = .done → s.enc = .done
  /-- Item 8. -/
  report_count : (s.seq = .report → s.rpt.toNat ≤ 9) ∧ (s.seq = .done → s.rpt.toNat = 10)
    ∧ (s.seq ≠ .report → s.seq ≠ .done → s.rpt = 0#4)
  /-- Item 9. -/
  fill_unwritten : s.enc = .fill → ∀ a, rowDone s a = false → s.cb.read a = 0
  /-- Item 10. -/
  reserved_bits : seqCode s.seq ≠ 6 ∧ seqCode s.seq ≠ 7 ∧ (statWord s).toNat < 2 ^ 9 ∧ (chkWord s).toNat < 2 ^ 12
  /-- R171: the two codes that are never raised. -/
  err_codes : s.err ≠ .unsupportedColorMode ∧ s.err ≠ .tooManyColors

/-- The states that some run from reset reaches, whatever the host presents and the transport answers (R39: "any
sequence of operation words and any transport answers"): before each step the inputs may be any. -/
inductive Reachable : State → Prop where
  | reset : Reachable State.reset
  | step (s s' : State) (port : List HostInput) (xs : List XferAnswer) (ps : List PutAnswer) :
      Reachable s →
      Machine.step { s with port := port, xferAnswers := xs, putAnswers := ps } = .next s' → Reachable s'

/-! ## Bytes sent (42_checksum_framer.md R141; 00_scope.md R13) -/

/-- `TXBYTES(HIST)` (00_scope.md R13). -/
def txBytes (h : List Event) : List Byte :=
  h.filterMap fun
    | .tx b => some b
    | .rx _ | .fail _ => none

/-- The sum of some bytes, as a number. -/
def byteSum (bs : List Byte) : Nat := (bs.map BitVec.toNat).sum

/-- The part of a frame that is summed: command, compression, the two length bytes, payload (R141). -/
def summedBytes (cmd comp : Byte) (pl : List Byte) : List Byte :=
  [cmd, comp, BitVec.ofNat 8 (pl.length % 256), BitVec.ofNat 8 (pl.length / 256)] ++ pl

/-- `S` of R141. -/
def checksumOf (cmd comp : Byte) (pl : List Byte) : Nat := byteSum (summedBytes cmd comp pl) % 65536

/-- The frame `F` of R141, written whole. -/
def frameBytes (cmd comp : Byte) (pl : List Byte) : List Byte :=
  [0x88, 0x33] ++ summedBytes cmd comp pl
    ++ [BitVec.ofNat 8 (checksumOf cmd comp pl % 256), BitVec.ofNat 8 (checksumOf cmd comp pl / 256), 0x00, 0x00]

/-- The frame of a packet parameter (R154). -/
def packetFrame (p : Packet) : List Byte := frameBytes p.cmd p.comp p.payload

/-- The events of bytes sent and answered, in order: `tx(F[i]), rx(r_i)` (R143). -/
def exchanges : List Byte → List Byte → List Event
  | b :: bs, r :: rs => .tx b :: .rx r :: exchanges bs rs
  | _, _ => []

/-- What a completed emission of the frame of (cmd, comp, pl) with responses `rs` does to the state (R143, R144). -/
def afterFrame (cmd comp : Byte) (pl rs : List Byte) (rest : List XferAnswer) (s : State) : State :=
  { s with
    cks := BitVec.ofNat 16 (checksumOf cmd comp pl)
    rsp1 := rs.getD (8 + pl.length) 0
    rsp2 := rs.getD (9 + pl.length) 0
    hist := s.hist ++ exchanges (frameBytes cmd comp pl) rs
    xferAnswers := rest }

/-- The partial sum of R145 when byte `i` is the one that fails: `F[2] + ... + F[min(i, 5+n)]`, 0 for `i < 2`. -/
def partialSum (cmd comp : Byte) (pl : List Byte) (i : Nat) : Nat :=
  byteSum (((frameBytes cmd comp pl).take (min i (5 + pl.length) + 1)).drop 2) % 65536

/-- The (command, compression, payload) each FRAME operation sends (R146 to R150). -/
def frameOf (i : Instr) (s : State) : Option (Byte × Byte × List Byte) :=
  match i with
  | .frameInit => some (s.packets.pInit.cmd, s.packets.pInit.comp, s.packets.pInit.payload)
  | .frameData => some (0x04, 0x00, chunkBytesOf s)
  | .frameEmpty => some (s.packets.pEmpty.cmd, s.packets.pEmpty.comp, s.packets.pEmpty.payload)
  | .framePrint => some (s.packets.pPrint.cmd, s.packets.pPrint.comp, s.packets.pPrint.payload)
  | .frameReport => some (s.packets.pReport.cmd, s.packets.pReport.comp, s.packets.pReport.payload)
  | .rst | .setw _ | .seth _ | .start _ | .pix _ | .row _ _ _ _ _ _ _ _ | .dump | .rd _ | .rdcb _ => none

/-- The operations that may raise each error code (60_exceptions.md R170); no operation raises the reserved codes
(R171). Of the operations only the term of an ill-formed RDCB is an illegal word (log 12). -/
def MayRaise (i : Instr) (s : State) : ErrCode → Prop
  | .noError | .unsupportedColorMode | .tooManyColors => False
  | .invalidDimensions | .unsupportedChunkCount => ∃ d, i = .start d
  | .transportFailure => (frameOf i s).isSome ∨ i = .dump
  | .sequenceError => ¬ AlwaysRuns i
  | .illegalOperation => ∃ a, i = .rdcb a ∧ 640 ≤ a.toNat

/-- The operations that take pixels. -/
def TakesPixels : Instr → Prop
  | .pix _ | .row _ _ _ _ _ _ _ _ => True
  | .rst | .setw _ | .seth _ | .start _ | .rd _ | .rdcb _ => False
  | .frameInit | .frameData | .frameEmpty | .framePrint | .frameReport | .dump => False

/-- The operations that drain the chunk (42_checksum_framer.md R151). -/
def Drains : Instr → Prop
  | .frameData | .dump => True
  | .rst | .setw _ | .seth _ | .start _ | .pix _ | .row _ _ _ _ _ _ _ _ | .rd _ | .rdcb _ => False
  | .frameInit | .frameEmpty | .framePrint | .frameReport => False

/-! ## What a job has sent (42_checksum_framer.md R155, R156) -/

/-- The DATA frame of a chunk. -/
def dataFrame (chunk : List Byte) : List Byte := frameBytes 0x04 0x00 chunk

/-- What a print job in phase `seq` has sent: INIT, one DATA frame per drained chunk, EMPTY, PRINT, the REPORTs. -/
def printJobBytes (pk : Packets) (seq : SeqPhase) (chunks : List (List Byte)) (reports : Nat) : List Byte :=
  let started := packetFrame pk.pInit ++ (chunks.map dataFrame).flatten
  match seq with
  | .idle | .ready => []
  | .data => started
  | .emptied => started ++ packetFrame pk.pEmpty
  | .report | .done =>
    started ++ packetFrame pk.pEmpty ++ packetFrame pk.pPrint
      ++ (List.replicate reports (packetFrame pk.pReport)).flatten

/-- `chunks` are 640-byte chunks, one per drain of the job so far. -/
def DrainedChunks (chunks : List (List Byte)) (s : State) : Prop :=
  chunks.length = s.chunk.toNat ∧ ∀ c ∈ chunks, c.length = 640

/-- Since the bytes `base`, the print job of `s` has sent exactly its frames so far, with `chunks` as DATA payloads. -/
def PrintJob (base : List Byte) (chunks : List (List Byte)) (s : State) : Prop :=
  DrainedChunks chunks s ∧ txBytes s.hist = base ++ printJobBytes s.packets s.seq chunks s.rpt.toNat

/-- Since the bytes `base`, the dump job of `s` has sent exactly its drained chunks. -/
def DumpJob (base : List Byte) (chunks : List (List Byte)) (s : State) : Prop :=
  DrainedChunks chunks s ∧ txBytes s.hist = base ++ chunks.flatten

/-! ## The encoding of an image (41_tile_encoder.md R129, R130) -/

/-- The bit of a pixel in a plane: 0 low, 1 high (R121). -/
def planeBit (plane : Nat) (p : Pixel) : Bool := if plane = 0 then (colourCode p).1 else (colourCode p).2

/-- The plane byte of eight pixels, leftmost in the most significant bit (R123). -/
def planeSum (plane : Nat) (ps : List Pixel) : Nat :=
  let bit (j : Nat) : Nat := (planeBit plane (ps.getD j ⟨false, 0⟩)).toNat
  128 * bit 0 + 64 * bit 1 + 32 * bit 2 + 16 * bit 3 + 8 * bit 4 + 4 * bit 5 + 2 * bit 6 + bit 7

/-- What `Advance()` does to the place and the phase (R125). -/
def Advanced (s t : State) : Prop :=
  t.x = 0#3 ∧
    ((s.y.toNat < 7 ∧ t.y = s.y + 1#3 ∧ t.tc = s.tc ∧ t.tr = s.tr ∧ t.enc = s.enc)
      ∨ (s.y.toNat = 7 ∧ s.tc.toNat + 1 < s.imgW.toNat / 8 ∧ t.y = 0#3 ∧ t.tc = s.tc + 1#5 ∧ t.tr = s.tr ∧ t.enc = s.enc)
      ∨ (s.y.toNat = 7 ∧ s.imgW.toNat / 8 ≤ s.tc.toNat + 1 ∧ t.y = 0#3 ∧ t.tc = 0#5 ∧ t.tr = s.tr + 1#5
          ∧ t.enc = if (s.tr + 1#5).toNat % 2 = 0 then .full else s.enc))

/-- The state after a completed pixel row: `lo` and `hi` are in the shift registers and, at `Off` and `Off + 1`, in the
buffer (R124); the place has advanced (R125); nothing else has changed. -/
def RowCommitted (lo hi : Byte) (s t : State) : Prop :=
  t = { s with
        lo := lo, hi := hi, cb := t.cb, tr := t.tr, tc := t.tc, y := t.y, x := t.x, enc := t.enc }
    ∧ Advanced s t
    ∧ t.cb.read (off s.tr.toNat s.tc.toNat s.y.toNat) = lo
    ∧ t.cb.read (off s.tr.toNat s.tc.toNat s.y.toNat + 1) = hi
    ∧ ∀ a, a ≠ off s.tr.toNat s.tc.toNat s.y.toNat → a ≠ off s.tr.toNat s.tc.toNat s.y.toNat + 1 →
        t.cb.read a = s.cb.read a

/-- Operations executed one after the other (20_memory.md R70). -/
def runAll (is : List Instr) (s : State) : Result := is.foldl (fun r i => r.andThen (exec i)) (.next s)

/-- The ROW of row `y` of a tile, and its eight PIX. -/
def tileRow (tile : Nat → Nat → Pixel) (y : Nat) : Instr :=
  .row (tile y 0) (tile y 1) (tile y 2) (tile y 3) (tile y 4) (tile y 5) (tile y 6) (tile y 7)

/-- The eight pixels of row `y` of a tile, leftmost first. -/
def tilePixels (tile : Nat → Nat → Pixel) (y : Nat) : List Pixel := (List.range 8).map (tile y)

/-- An image: the pixel operand of column `px`, row `py` (R130: `img(px, py) = (m, idx)`). -/
abbrev Image := Nat → Nat → Pixel

/-- `K_c[a][b]` of R130 for an image of width `w`. -/
def chunkBit (img : Image) (w c a b : Nat) : Bool :=
  let px := 8 * tileColOf a + (7 - b)
  let py := 16 * c + 8 * halfOf a + pixelRowOf a
  decide (px < w) && planeBit (planeOf a) (img px py)

/-- `K_c[a]` of R130, from its bits, 7 the most significant. -/
def chunkByte (img : Image) (w c a : Nat) : Byte :=
  let bit (b : Nat) : Nat := (chunkBit img w c a b).toNat
  BitVec.ofNat 8
    (128 * bit 7 + 64 * bit 6 + 32 * bit 5 + 16 * bit 4 + 8 * bit 3 + 4 * bit 2 + 2 * bit 1 + bit 0)

/-- The chunk `K_c` of R130. -/
def encodedChunk (img : Image) (w c : Nat) : List Byte := (List.range 640).map (chunkByte img w c)

/-- The ROWs of band `c` of an image of width `w`, in the order of R129 (70_reset_and_hazards.md R193 step 6): tile row
by tile row, tile by tile, row by row. -/
def bandRows (img : Image) (w c : Nat) : List Instr :=
  (List.range 2).flatMap fun half =>
    (List.range (w / 8)).flatMap fun tc =>
      (List.range 8).map fun y => tileRow (fun y x => img (8 * tc + x) (16 * c + 8 * half + y)) y

/-- The operations of a whole job in dump mode (70_reset_and_hazards.md R193 steps 3, 4, 6). -/
def dumpJobOps (img : Image) (w h : Byte) : List Instr :=
  [.setw w, .seth h, .start .dump]
    ++ (List.range (h.toNat / 16)).flatMap fun c => bandRows img w.toNat c ++ [.dump]

/-- The operations of a whole job in print mode (70_reset_and_hazards.md R193 steps 3 to 7). -/
def printJobOps (img : Image) (w h : Byte) : List Instr :=
  [.setw w, .seth h, .start .print, .frameInit]
    ++ ((List.range (h.toNat / 16)).flatMap fun c => bandRows img w.toNat c ++ [.frameData])
    ++ [.frameEmpty, .framePrint] ++ List.replicate 10 .frameReport

/-- The dimensions START accepts (40_config_control.md R103). -/
def GoodDimensions (w h : Byte) : Prop :=
  0 < w.toNat ∧ w.toNat ≤ 160 ∧ w.toNat % 8 = 0 ∧ 0 < h.toNat ∧ h.toNat ≤ 144 ∧ h.toNat % 16 = 0

/-- The encoder has taken the pixels of `img` so far (R129, R130): every completed pixel row of the chunk is in the
buffer as R130 places it and every other byte is 0x00, the pixels of the row begun are in `LO` and `HI`, leftmost
highest, and a full chunk is `K_c`. -/
structure Encodes (img : Image) (s : State) : Prop where
  rows : s.enc = .fill → ∀ a, a < 640 → ∀ b, b < 8 →
    (s.cb.read a).getLsbD b = (rowDone s a && chunkBit img s.imgW.toNat s.chunk.toNat a b)
  begun : s.enc = .fill → ∀ j, j < s.x.toNat →
    s.lo.getLsbD (s.x.toNat - 1 - j) = planeBit 0 (img (8 * s.tc.toNat + j) (8 * s.tr.toNat + s.y.toNat))
      ∧ s.hi.getLsbD (s.x.toNat - 1 - j) = planeBit 1 (img (8 * s.tc.toNat + j) (8 * s.tr.toNat + s.y.toNat))
  whole : s.enc = .full → ∀ a, a < 640 → ∀ b, b < 8 →
    (s.cb.read a).getLsbD b = chunkBit img s.imgW.toNat s.chunk.toNat a b

end Sys2Proof.Safety
end

