-- ==== Sys2Proof/Certificates/Slice0/Obligations.lean ====
section
/-! DEFINITION. The statements for the provers. Each docstring names the rule of spec/ it formalises; the terms are
those of Sys2Proof/Safety.lean. -/

open Sys2Proof Sys2Proof.Machine Sys2Proof.Safety

/-! ## Encoding (30_encoding.md) -/

/-- R91: `decode(encode(op)) = op` for every legal operation, every operand at every value. -/
def Obligations.DecodeOfEncodeIsIdentity : Prop :=
  ∀ i : Instr, i.wellFormed = true → decodeWord (encode i) = .legal i

/-- R91: `encode(decode(w)) = w` for every legal word; what decode gives is well-formed. -/
def Obligations.EncodeOfDecodeIsIdentity : Prop :=
  ∀ (w : OpWord) (i : Instr), decodeWord w = .legal i → encode i = w ∧ i.wellFormed = true

/-- R85: a word decodes to an operation of a row exactly when it selects the row, and a word that selects no row is
illegal. -/
def Obligations.DecodeAgreesWithOpcodeTable : Prop :=
  (∀ r ∈ opcodeTable, ∀ w : OpWord, Selects w r ↔ ∃ i, decodeWord w = .legal i ∧ mnemonicOf i = r.mnemonic)
    ∧ ∀ w : OpWord, (∃ e, decodeWord w = .illegal e) ↔ ∀ r ∈ opcodeTable, ¬ Selects w r

/-- R90: decode refuses exactly the words of items 1 to 4, and executing one raises `IllegalOperation` if `ERR = 0`
and otherwise does nothing; it changes nothing else and produces no read result. -/
def Obligations.IllegalWordsAreTheFourKinds : Prop :=
  ∀ w : OpWord, ((∃ e, decodeWord w = .illegal e) ↔ IllegalByR90 w)
    ∧ (IllegalByR90 w → ∀ s : State,
        execWord w s = .next { s with err := if s.err = .noError then .illegalOperation else s.err })

/-- R95: the worked encodings, bit by bit from the spec's table. -/
def Obligations.WorkedEncodingsDecode : Prop :=
  decodeWord 0x100000A0 = .legal (.setw 160) ∧ decodeWord 0x20000090 = .legal (.seth 144)
    ∧ decodeWord 0x40000006 = .legal (.pix ⟨true, 2⟩) ∧ decodeWord 0x40000003 = .legal (.pix ⟨false, 3⟩)
    ∧ decodeWord 0x50977977 = .legal (.row ⟨true, 0⟩ ⟨true, 1⟩ ⟨true, 2⟩ ⟨true, 3⟩ ⟨true, 0⟩ ⟨true, 1⟩ ⟨true, 2⟩ ⟨true, 3⟩)
    ∧ decodeWord 0x50FACFAC = .legal (.row ⟨true, 3⟩ ⟨true, 2⟩ ⟨true, 1⟩ ⟨true, 0⟩ ⟨true, 3⟩ ⟨true, 2⟩ ⟨true, 1⟩ ⟨true, 0⟩)
    ∧ decodeWord 0x50924FFF = .legal (.row ⟨true, 0⟩ ⟨true, 0⟩ ⟨true, 0⟩ ⟨true, 0⟩ ⟨true, 3⟩ ⟨true, 3⟩ ⟨true, 3⟩ ⟨true, 3⟩)
    ∧ decodeWord 0x50000924 = .legal (.row ⟨false, 0⟩ ⟨false, 0⟩ ⟨false, 0⟩ ⟨false, 0⟩ ⟨true, 0⟩ ⟨true, 0⟩ ⟨true, 0⟩ ⟨true, 0⟩)
    ∧ decodeWord 0x60000001 = .legal .frameData ∧ decodeWord 0x80000002 = .legal (.rd .stat)
    ∧ decodeWord 0x9000027F = .legal (.rdcb 639)
    ∧ (decodeWord 0x90000280).instr? = none ∧ (decodeWord 0x10000100).instr? = none

/-! ## The step (00_scope.md R5, R6; 60_exceptions.md R173; 70_reset_and_hazards.md) -/

/-- A step runs the decoded operation: a block that is not stuck takes the next word, moves past it, and is where
`exec` of the operation it decodes to leaves it (R173; the port is the model's own, log 1). -/
def Obligations.StepRunsTheDecodedOperation : Prop :=
  ∀ (s : State) (w : OpWord) (rest : List HostInput) (i : Instr),
    s.stuck = false → s.port = .word w :: rest → decodeWord w = .legal i → step s = exec i { s with port := rest }

/-- R172: a step on an illegal word sets `ERR` to 7 if it is 0 and changes nothing else (the word is taken from the
port, which is the model's own, log 1). -/
def Obligations.StepOnAnIllegalWord : Prop :=
  ∀ (s : State) (w : OpWord) (rest : List HostInput),
    s.stuck = false → s.port = .word w :: rest → IllegalByR90 w →
      step s = .next { s with port := rest, err := if s.err = .noError then .illegalOperation else s.err }

/-- R191: with no word presented the block waits. -/
def Obligations.BlockWaitsForAWord : Prop :=
  ∀ s : State, s.port = [] → step s = .next s

/-- R190, R191: a reset leaves every register and every buffer byte 0, touches neither history nor parameters nor
transport, and does to the block exactly what RST does; it ends an operation in progress (R199). The port (log 1), the
`stuck` mark (log 3) and that the read results stay (log 7) are the model's choices. -/
def Obligations.ExternalResetDoesWhatRstDoes : Prop :=
  ∀ (s : State) (rest : List HostInput), s.port = .reset :: rest →
    ∃ t u, step s = .next t ∧ exec .rst { s with port := rest } = .next u
      ∧ IsReset t ∧ SameSurroundings s t ∧ t.port = rest ∧ t = { u with stuck := false }

/-- R38: after reset and after RST every register and every buffer byte is 0. -/
def Obligations.ResetAndRstLeaveEverythingZero : Prop :=
  (IsReset State.reset ∧ ∀ n, registerValue n State.reset = 0)
    ∧ ∀ s : State, ∃ t, exec .rst s = .next t ∧ IsReset t ∧ ∀ n, registerValue n t = 0

/-- R199: a block whose last operation is still in progress takes no word, not even RST; a reset recovers it. -/
def Obligations.StuckBlockTakesOnlyAReset : Prop :=
  ∀ s : State, s.stuck = true →
    (∀ w rest, s.port = .word w :: rest → step s = .next s)
      ∧ (∀ rest, s.port = .reset :: rest → ∃ t, step s = .next t ∧ t.stuck = false ∧ IsReset t ∧ t.port = rest)

/-! ## Errors and phases (60_exceptions.md) -/

/-- R175: while `ERR ≠ 0` every operation other than RST, RD and RDCB, an illegal word too, changes nothing at all; RD
and RDCB work normally; and no byte follows a failure on the wire: no step adds to the history. (That a read result goes
into the list `reads` is the model's choice, log 7, and so is the port that a step takes its word from, log 1.) -/
def Obligations.ErrorStateIgnoresOperations : Prop :=
  (∀ (i : Instr) (s : State), s.err ≠ .noError →
    (¬ AlwaysRuns i → exec i s = .next s)
      ∧ (∀ n, i = .rd n → ∃ v, exec i s = .next { s with reads := s.reads ++ [v] } ∧ v.toNat = registerValue n s)
      ∧ (∀ a, i = .rdcb a → a.toNat < 640 →
          exec i s = .next { s with reads := s.reads ++ [(s.cb.read a.toNat).setWidth 16] }))
    ∧ (∀ (w : OpWord) (s : State), s.err ≠ .noError → (∃ e, decodeWord w = .illegal e) → execWord w s = .next s)
    ∧ ∀ s s' : State, s.err ≠ .noError → step s = .next s' → s'.hist = s.hist

/-- R177, R180: an operation whose `Pre` is false raises `SequenceError` and changes nothing else. -/
def Obligations.FalsePreconditionRaisesSequenceError : Prop :=
  ∀ (i : Instr) (s : State), s.err = .noError → ¬ Pre i s → exec i s = .next { s with err := .sequenceError }

/-- R176: the only exit from the error state is RST or a reset, and both clear everything with it. (The port, log 1, and
that the read results stay, log 7, are the model's choices.) -/
def Obligations.OnlyRstOrResetLeavesTheErrorState : Prop :=
  ∀ s s' : State, s.err ≠ .noError → step s = .next s' →
    s'.err = s.err
      ∨ (IsReset s' ∧ SameSurroundings s s' ∧ ResetComesNext s)

/-- R174: errors other than `TransportFailure` are precise: the state after is the state before with `ERR` set. -/
def Obligations.ErrorsBeforeAnyEffectArePrecise : Prop :=
  ∀ (i : Instr) (s t : State), s.err = .noError → exec i s = .next t → t.err ≠ .noError →
    t.err ≠ .transportFailure → t = { s with err := t.err }

/-- R171: no step raises code 2 or 3. -/
def Obligations.ReservedCodesAreNeverRaised : Prop :=
  ∀ s s' : State, step s = .next s' → s'.err = .unsupportedColorMode ∨ s'.err = .tooManyColors → s'.err = s.err

/-! ## Configuration and control (40_config_control.md) -/

/-- R100, 70_reset_and_hazards.md R191: RST runs in every state and leaves every register and every buffer byte 0;
history, parameters and transport are untouched. (So are, by the model's choices, the rest of the port, log 1, the
`stuck` mark, log 3, and the read results, log 7: no rule says so.) -/
def Obligations.RstClearsTheBlock : Prop :=
  ∀ s : State, ∃ t, exec .rst s = .next t ∧ IsReset t ∧ SameSurroundings s t ∧ t.port = s.port ∧ t.stuck = s.stuck

/-- R101, R102: SETW and SETH store any value and change nothing else. -/
def Obligations.SetwAndSethStoreTheDimension : Prop :=
  ∀ (v : Byte) (s : State), s.err = .noError → s.enc = .idle →
    exec (.setw v) s = .next { s with imgW := v } ∧ exec (.seth v) s = .next { s with imgH := v }

/-- R103: check 1 before check 2, each changing nothing but `ERR`; a START that passes both begins the job. -/
def Obligations.StartChecksThenBegins : Prop :=
  ∀ (d : Mode) (s : State), s.err = .noError → s.enc = .idle →
    if s.imgW.toNat = 0 ∨ s.imgW.toNat > 160 ∨ s.imgW.toNat % 8 ≠ 0 ∨ s.imgH.toNat = 0 ∨ s.imgH.toNat % 16 ≠ 0 then
      exec (.start d) s = .next { s with err := .invalidDimensions }
    else if s.imgH.toNat / 16 > 9 then
      exec (.start d) s = .next { s with err := .unsupportedChunkCount }
    else
      exec (.start d) s = .next { s with
        mode := d
        nchunk := BitVec.ofNat 4 (s.imgH.toNat / 16), chunk := 0#4, rpt := 0#4
        tr := 0#5, tc := 0#5, y := 0#3, x := 0#3
        cb := []
        enc := .fill
        seq := if d = .print then .ready else .idle }

/-- R105, 10_state.md R20: RD returns the register's value, zero-extended, in every state, and changes no state of the
block. -/
def Obligations.RdReturnsTheRegister : Prop :=
  ∀ (n : RegName) (s : State),
    ∃ v : Half, exec (.rd n) s = .next { s with reads := s.reads ++ [v] } ∧ v.toNat = registerValue n s

/-- R106: RDCB returns the byte, zero-extended, in every state, and changes no state of the block; an address of 640
or more is an illegal operation with no read result. -/
def Obligations.RdcbReturnsTheByte : Prop :=
  ∀ (a : BitVec 10) (s : State),
    if a.toNat < 640 then
      ∃ v : Half, exec (.rdcb a) s = .next { s with reads := s.reads ++ [v] } ∧ v.toNat = (s.cb.read a.toNat).toNat
    else exec (.rdcb a) s = .next { s with err := if s.err = .noError then .illegalOperation else s.err }

/-! ## The tile encoder (41_tile_encoder.md, 20_memory.md) -/

/-- R121: the colour code, its equations, and the code as the number `3 - idx`. -/
def Obligations.ColourCodeFollowsTheTable : Prop :=
  (colourCode ⟨true, 0⟩ = (true, true) ∧ colourCode ⟨true, 1⟩ = (false, true)
      ∧ colourCode ⟨true, 2⟩ = (true, false) ∧ colourCode ⟨true, 3⟩ = (false, false))
    ∧ (∀ idx, colourCode ⟨false, idx⟩ = (false, false))
    ∧ (∀ p : Pixel, colourCode p = (p.m && !p.idx.getLsbD 0, p.m && !p.idx.getLsbD 1))
    ∧ (∀ idx : BitVec 2, 2 * (colourCode ⟨true, idx⟩).2.toNat + (colourCode ⟨true, idx⟩).1.toNat = 3 - idx.toNat)

/-- R122: `ShiftIn` doubles each plane register, adds the pixel's bit and drops the bit shifted out of bit 7; after
eight steps pixel `x` is in bit `7 - x`. -/
def Obligations.ShiftInDoublesAndAddsTheBit : Prop :=
  (∀ (p : Pixel) (s : State), ∃ lo hi : Byte, shiftIn p s = { s with lo := lo, hi := hi }
    ∧ lo.toNat = (2 * s.lo.toNat + (planeBit 0 p).toNat) % 256
    ∧ hi.toNat = (2 * s.hi.toNat + (planeBit 1 p).toNat) % 256)
    ∧ ∀ (row : Nat → Pixel) (s : State) (x : Nat), x < 8 →
      (shiftInAll ((List.range 8).map row) s).lo.getLsbD (7 - x) = planeBit 0 (row x)
        ∧ (shiftInAll ((List.range 8).map row) s).hi.getLsbD (7 - x) = planeBit 1 (row x)

/-- R123: after eight pixels the plane registers are the two sums, whatever they held before. -/
def Obligations.EightShiftsMakeThePlaneBytes : Prop :=
  ∀ (p0 p1 p2 p3 p4 p5 p6 p7 : Pixel) (s : State),
    ∃ t, t = shiftInAll [p0, p1, p2, p3, p4, p5, p6, p7] s
      ∧ t.lo.toNat = planeSum 0 [p0, p1, p2, p3, p4, p5, p6, p7]
      ∧ t.hi.toNat = planeSum 1 [p0, p1, p2, p3, p4, p5, p6, p7]
      ∧ t = { s with lo := t.lo, hi := t.hi }

/-- R60: `Off` is the source's formula, and (tile row mod 2, tile column, pixel row, plane) is a bijection onto
0..639. -/
def Obligations.BufferMapIsABijection : Prop :=
  (∀ tr tc y, off tr tc y = (tr % 2) * 320 + tc * 16 + y * 2)
    ∧ (∀ tr tc y, tc < 20 → y < 8 → off tr tc y % 2 = 0 ∧ off tr tc y + 1 < 640)
    ∧ ∀ a, a < 640 → ∃ h tc y plane, h < 2 ∧ tc < 20 ∧ y < 8 ∧ plane < 2 ∧ off h tc y + plane = a
        ∧ ∀ h' tc' y' plane', h' < 2 → tc' < 20 → y' < 8 → plane' < 2 → off h' tc' y' + plane' = a →
            h' = h ∧ tc' = tc ∧ y' = y ∧ plane' = plane

/-- R126: a PIX that does not complete its row shifts the pixel in and counts it; nothing else changes, memory
included. -/
def Obligations.PixInsideARow : Prop :=
  ∀ (p : Pixel) (s : State), s.err = .noError → s.enc = .fill → s.x.toNat < 7 →
    ∃ lo hi : Byte, exec (.pix p) s = .next { s with lo := lo, hi := hi, x := s.x + 1#3 }
      ∧ lo.toNat = (2 * s.lo.toNat + (planeBit 0 p).toNat) % 256
      ∧ hi.toNat = (2 * s.hi.toNat + (planeBit 1 p).toNat) % 256

/-- R126, R124, R125: the PIX that completes its row writes the two plane bytes at `Off` and `Off + 1`, advances the
place, and changes nothing else. (The tile column is one that exists, as 10_state.md R30 says of every reachable
state.) -/
def Obligations.PixCompletesARow : Prop :=
  ∀ (p : Pixel) (s : State), s.err = .noError → s.enc = .fill → s.x = 7#3 → s.tc.toNat ≤ 19 → s.cb.wf = true →
    ∃ (t : State) (lo hi : Byte), exec (.pix p) s = .next t ∧ RowCommitted lo hi s t
      ∧ lo.toNat = (2 * s.lo.toNat + (planeBit 0 p).toNat) % 256
      ∧ hi.toNat = (2 * s.hi.toNat + (planeBit 1 p).toNat) % 256

/-- R127, R123, R124, R125: ROW writes the two plane bytes of its eight pixels at `Off` and `Off + 1`, advances the
place, and changes nothing else. -/
def Obligations.RowWritesItsTwoBytes : Prop :=
  ∀ (p0 p1 p2 p3 p4 p5 p6 p7 : Pixel) (s : State),
    s.err = .noError → s.enc = .fill → s.x = 0#3 → s.tc.toNat ≤ 19 → s.cb.wf = true →
    ∃ (t : State) (lo hi : Byte), exec (.row p0 p1 p2 p3 p4 p5 p6 p7) s = .next t ∧ RowCommitted lo hi s t
      ∧ lo.toNat = planeSum 0 [p0, p1, p2, p3, p4, p5, p6, p7]
      ∧ hi.toNat = planeSum 1 [p0, p1, p2, p3, p4, p5, p6, p7]

/-- R127: a ROW equals the eight PIX of its pixels. -/
def Obligations.RowEqualsEightPix : Prop :=
  ∀ (p0 p1 p2 p3 p4 p5 p6 p7 : Pixel) (s : State), s.err = .noError → s.enc = .fill → s.x = 0#3 →
    exec (.row p0 p1 p2 p3 p4 p5 p6 p7) s
      = runAll [.pix p0, .pix p1, .pix p2, .pix p3, .pix p4, .pix p5, .pix p6, .pix p7] s

/-- R128: the eight ROWs, or the 64 PIX, of one tile write its 16 bytes and no other byte. -/
def Obligations.EightRowsWriteTheTile : Prop :=
  ∀ (tile : Nat → Nat → Pixel) (s : State),
    s.err = .noError → s.enc = .fill → s.x = 0#3 → s.y = 0#3 → s.tc.toNat ≤ 19 → s.cb.wf = true →
    ∃ t, runAll ((List.range 8).map (tileRow tile)) s = .next t
      ∧ runAll (((List.range 8).flatMap (tilePixels tile)).map .pix) s = .next t
      ∧ (∀ y, y < 8 →
          (t.cb.read ((s.tr.toNat % 2) * 320 + s.tc.toNat * 16 + 2 * y)).toNat = planeSum 0 (tilePixels tile y)
          ∧ (t.cb.read ((s.tr.toNat % 2) * 320 + s.tc.toNat * 16 + 2 * y + 1)).toNat = planeSum 1 (tilePixels tile y))
      ∧ ∀ a, a < (s.tr.toNat % 2) * 320 + s.tc.toNat * 16 ∨ (s.tr.toNat % 2) * 320 + s.tc.toNat * 16 + 16 ≤ a →
          t.cb.read a = s.cb.read a

/-- R129, R130: a PIX of the pixel of the image at the block's place completes, and keeps the encoding of the image. -/
def Obligations.PixelsOfAnImageKeepItsEncoding : Prop :=
  ∀ (img : Image) (s : State), BlockInv s → Encodes img s → s.err = .noError → s.enc = .fill →
    ∃ t, exec (.pix (img (8 * s.tc.toNat + s.x.toNat) (8 * s.tr.toNat + s.y.toNat))) s = .next t
      ∧ BlockInv t ∧ Encodes img t

/-- R129, R130: a ROW of the eight pixels of the image at the block's place completes, and keeps the encoding of the
image. -/
def Obligations.RowsOfAnImageKeepItsEncoding : Prop :=
  ∀ (img : Image) (s : State), BlockInv s → Encodes img s → s.err = .noError → s.enc = .fill → s.x = 0#3 →
    ∃ t, exec (tileRow (fun y x => img (8 * s.tc.toNat + x) (8 * s.tr.toNat + y)) s.y.toNat) s = .next t
      ∧ BlockInv t ∧ Encodes img t

/-- R103, R151, R41: START, and every drain that leaves chunks to fill, begin the encoding of an image with nothing
taken. -/
def Obligations.StartAndDrainBeginAnEncoding : Prop :=
  ∀ (img : Image) (i : Instr) (s t : State), BlockInv s → s.err = .noError → exec i s = .next t → t.enc = .fill →
    s.enc ≠ .fill → Encodes img t

/-- R130, R63: a full chunk that encodes the image is `K_c`, byte for byte and bit for bit, as it is drained. -/
def Obligations.FullChunkIsTheChunkOfTheImage : Prop :=
  ∀ (img : Image) (s : State), Encodes img s → s.enc = .full →
    ∀ (a b : Nat) (h : a < (chunkBytesOf s).length), b < 8 →
      (chunkBytesOf s)[a].getLsbD b = chunkBit img s.imgW.toNat s.chunk.toNat a b

/-- R129, R130: the ROWs of band `c` of an image, from the place where the band begins, fill the chunk with `K_c`; the
rest of the state is as it was, but for the place, the shift registers and the phase. -/
def Obligations.BandOfAnImageFillsTheChunk : Prop :=
  ∀ (img : Image) (s : State), BlockInv s → s.err = .noError → s.enc = .fill → s.cb = [] →
    s.tr.toNat = 2 * s.chunk.toNat → s.tc = 0#5 → s.y = 0#3 → s.x = 0#3 →
    ∃ t, runAll (bandRows img s.imgW.toNat s.chunk.toNat) s = .next t
      ∧ chunkBytesOf t = encodedChunk img s.imgW.toNat s.chunk.toNat
      ∧ t = { s with enc := .full, tr := s.tr + 2#5, lo := t.lo, hi := t.hi, cb := t.cb }

/-- R156, R130, 20_memory.md R63: a whole job in dump mode of any image of good dimensions, to a sink that takes every
byte, ends in `E_DONE` without error and has sent `K_0`, `K_1`, ... in order and nothing else. -/
def Obligations.DumpJobSendsTheEncodedImage : Prop :=
  ∀ (img : Image) (w h : Byte) (s : State) (rest : List PutAnswer), GoodDimensions w h →
    s.err = .noError → s.enc = .idle → s.putAnswers = List.replicate (640 * (h.toNat / 16)) .ok ++ rest →
    ∃ t, runAll (dumpJobOps img w h) s = .next t ∧ t.enc = .done ∧ t.mode = .dump ∧ t.err = .noError
      ∧ t.chunk.toNat = h.toNat / 16 ∧ t.cb = [] ∧ t.cks = s.cks ∧ t.rsp1 = s.rsp1 ∧ t.rsp2 = s.rsp2
      ∧ t.hist = s.hist ++ ((List.range (h.toNat / 16)).flatMap (encodedChunk img w.toNat)).map .tx

/-- R155, R130: a whole job in print mode of any image of good dimensions, over a link that answers every byte, ends in
`S_DONE` without error and has sent INIT, the DATA frames of `K_0`, `K_1`, ..., EMPTY, PRINT and ten REPORTs, and
nothing else; the status is that of the last REPORT. -/
def Obligations.PrintJobSendsTheEncodedImage : Prop :=
  ∀ (img : Image) (w h : Byte) (s : State) (rs : List Byte) (rest : List XferAnswer), GoodDimensions w h →
    s.err = .noError → s.enc = .idle → s.xferAnswers = rs.map .ok ++ rest →
    rs.length = (s.packets.pInit.payload.length + 10) + 650 * (h.toNat / 16) + (s.packets.pEmpty.payload.length + 10)
      + (s.packets.pPrint.payload.length + 10) + 10 * (s.packets.pReport.payload.length + 10) →
    ∃ t, runAll (printJobOps img w h) s = .next t ∧ t.seq = .done ∧ t.enc = .done ∧ t.err = .noError
      ∧ t.chunk.toNat = h.toNat / 16 ∧ t.rpt.toNat = 10 ∧ t.cb = []
      ∧ t.rsp1 = rs.getD (rs.length - 2) 0 ∧ t.rsp2 = rs.getD (rs.length - 1) 0
      ∧ txBytes t.hist = txBytes s.hist ++ packetFrame s.packets.pInit
          ++ ((List.range (h.toNat / 16)).map fun c => dataFrame (encodedChunk img w.toNat c)).flatten
          ++ packetFrame s.packets.pEmpty ++ packetFrame s.packets.pPrint
          ++ (List.replicate 10 (packetFrame s.packets.pReport)).flatten

/-- R130: two images of matched pixels whose chunks agree are the same image (the round trip: the map of bits is a
bijection and the code determines the index). -/
def Obligations.ChunksDetermineTheImage : Prop :=
  ∀ (img img' : Image) (w h : Nat), w ≤ 160 → w % 8 = 0 → h % 16 = 0 →
    (∀ px py, px < w → py < h → (img px py).m = true ∧ (img' px py).m = true) →
    (∀ c a b, c < h / 16 → a < 640 → b < 8 → chunkBit img w c a b = chunkBit img' w c a b) →
    ∀ px py, px < w → py < h → img px py = img' px py

/-! ## Frames and drains (42_checksum_framer.md) -/

/-- R146, R141 to R144: FRAME.INIT sends the frame of `P_INIT`, byte by byte with every byte answered, leaves its
checksum and status, and moves to `S_DATA`; nothing else changes. -/
def Obligations.FrameInitSendsItsFrame : Prop :=
  ∀ (s : State) (rs : List Byte) (rest : List XferAnswer), s.err = .noError → s.seq = .ready →
    s.xferAnswers = rs.map .ok ++ rest → rs.length = s.packets.pInit.payload.length + 10 →
    exec .frameInit s = .next
      { afterFrame s.packets.pInit.cmd s.packets.pInit.comp s.packets.pInit.payload rs rest s with seq := .data }

/-- R147, R141 to R144, R151: FRAME.DATA sends the 650 bytes of the chunk's DATA frame, leaves its checksum and
status, clears the buffer and moves to the next chunk; nothing else changes. -/
def Obligations.FrameDataSendsTheChunk : Prop :=
  ∀ (s : State) (rs : List Byte) (rest : List XferAnswer), s.err = .noError → s.seq = .data → s.enc = .full →
    s.xferAnswers = rs.map .ok ++ rest → rs.length = 650 →
    (frameBytes 0x04 0x00 (chunkBytesOf s)).length = 650
      ∧ (frameBytes 0x04 0x00 (chunkBytesOf s)).take 6 = [0x88, 0x33, 0x04, 0x00, 0x80, 0x02]
      ∧ checksumOf 0x04 0x00 (chunkBytesOf s) = (0x86 + byteSum (chunkBytesOf s)) % 65536
      ∧ exec .frameData s = .next
          { afterFrame 0x04 0x00 (chunkBytesOf s) rs rest s with
            chunk := s.chunk + 1#4
            enc := if s.chunk + 1#4 = s.nchunk then .done else .fill
            cb := [] }

/-- R148, R141 to R144: FRAME.EMPTY sends the frame of `P_EMPTY` and moves to `S_EMPTIED`; nothing else changes. -/
def Obligations.FrameEmptySendsItsFrame : Prop :=
  ∀ (s : State) (rs : List Byte) (rest : List XferAnswer), s.err = .noError → s.seq = .data → s.enc = .done →
    s.xferAnswers = rs.map .ok ++ rest → rs.length = s.packets.pEmpty.payload.length + 10 →
    exec .frameEmpty s = .next
      { afterFrame s.packets.pEmpty.cmd s.packets.pEmpty.comp s.packets.pEmpty.payload rs rest s with seq := .emptied }

/-- R149, R141 to R144: FRAME.PRINT sends the frame of `P_PRINT`, moves to `S_REPORT` and counts no REPORT yet;
nothing else changes. -/
def Obligations.FramePrintSendsItsFrame : Prop :=
  ∀ (s : State) (rs : List Byte) (rest : List XferAnswer), s.err = .noError → s.seq = .emptied →
    s.xferAnswers = rs.map .ok ++ rest → rs.length = s.packets.pPrint.payload.length + 10 →
    exec .framePrint s = .next
      { afterFrame s.packets.pPrint.cmd s.packets.pPrint.comp s.packets.pPrint.payload rs rest s with
        seq := .report, rpt := 0#4 }

/-- R150, R141 to R144: FRAME.REPORT sends the frame of `P_REPORT` and counts it; the tenth moves to `S_DONE`; nothing
else changes. -/
def Obligations.FrameReportSendsAndCounts : Prop :=
  ∀ (s : State) (rs : List Byte) (rest : List XferAnswer), s.err = .noError → s.seq = .report →
    s.xferAnswers = rs.map .ok ++ rest → rs.length = s.packets.pReport.payload.length + 10 →
    exec .frameReport s = .next
      { afterFrame s.packets.pReport.cmd s.packets.pReport.comp s.packets.pReport.payload rs rest s with
        rpt := s.rpt + 1#4, seq := if (s.rpt + 1#4).toNat = 10 then .done else .report }

/-- R145: a transport failure at byte `i` of any FRAME operation ends it there: `ERR` is 5, `CKS` keeps the partial
sum, the history has the exchanges before it and the failure, and nothing else changes. -/
def Obligations.FrameFailureKeepsThePartialSum : Prop :=
  ∀ (op : Instr) (s : State) (cmd comp : Byte) (pl : List Byte) (rs : List Byte) (rest : List XferAnswer),
    s.err = .noError → Pre op s → frameOf op s = some (cmd, comp, pl) → rs.length < pl.length + 10 →
    (s.xferAnswers = rs.map .ok ++ .wfail :: rest →
      exec op s = .next { s with
        err := .transportFailure
        cks := BitVec.ofNat 16 (partialSum cmd comp pl rs.length)
        hist := s.hist ++ exchanges ((frameBytes cmd comp pl).take rs.length) rs ++ [.fail .w]
        xferAnswers := rest })
    ∧ (s.xferAnswers = rs.map .ok ++ .rfail :: rest →
      exec op s = .next { s with
        err := .transportFailure
        cks := BitVec.ofNat 16 (partialSum cmd comp pl rs.length)
        hist := s.hist ++ exchanges ((frameBytes cmd comp pl).take rs.length) rs
          ++ [.tx ((frameBytes cmd comp pl).getD rs.length 0), .fail .r]
        xferAnswers := rest })

/-- R199: a byte that the transport never answers leaves the FRAME operation in progress: the block is stuck, with no
error, phase, counter, status or buffer change (the `stuck` mark, and `CKS` and the history as far as the operation
came, are the model's choice, log 3). -/
def Obligations.SilentTransportLeavesTheFrameStuck : Prop :=
  ∀ (op : Instr) (s : State) (cmd comp : Byte) (pl : List Byte) (rs : List Byte) (rest : List XferAnswer),
    s.err = .noError → Pre op s → frameOf op s = some (cmd, comp, pl) → rs.length < pl.length + 10 →
    s.xferAnswers = rs.map .ok ++ .never :: rest ∨ (s.xferAnswers = rs.map .ok ∧ rest = []) →
    exec op s = .next { s with
      stuck := true
      cks := BitVec.ofNat 16 (partialSum cmd comp pl rs.length)
      hist := s.hist ++ exchanges ((frameBytes cmd comp pl).take rs.length) rs
      xferAnswers := rest }

/-- R153, R151: DUMP sends the 640 bytes raw, clears the buffer and moves to the next chunk; neither `CKS` nor `RSP`
nor anything else changes. -/
def Obligations.DumpSendsTheChunk : Prop :=
  ∀ (s : State) (rest : List PutAnswer), s.err = .noError → s.mode = .dump → s.enc = .full →
    s.putAnswers = List.replicate 640 .ok ++ rest →
    exec .dump s = .next { s with
      hist := s.hist ++ (chunkBytesOf s).map .tx
      putAnswers := rest
      chunk := s.chunk + 1#4
      enc := if s.chunk + 1#4 = s.nchunk then .done else .fill
      cb := [] }

/-- R153: a failed write at byte `a` ends DUMP there: bytes 0 to a-1 are sent, `ERR` is 5, and buffer, phase and count
are unchanged. -/
def Obligations.DumpFailureKeepsTheChunk : Prop :=
  ∀ (s : State) (a : Nat) (rest : List PutAnswer), s.err = .noError → s.mode = .dump → s.enc = .full → a < 640 →
    s.putAnswers = List.replicate a .ok ++ .wfail :: rest →
    exec .dump s = .next { s with
      err := .transportFailure
      hist := s.hist ++ ((chunkBytesOf s).take a).map .tx ++ [.fail .w]
      putAnswers := rest }

/-- R199: a byte that the dump sink never answers leaves DUMP in progress: the block is stuck (the `stuck` mark is the
model's choice, log 3). -/
def Obligations.SilentSinkLeavesTheDumpStuck : Prop :=
  ∀ (s : State) (a : Nat) (rest : List PutAnswer), s.err = .noError → s.mode = .dump → s.enc = .full → a < 640 →
    s.putAnswers = List.replicate a .ok ++ .never :: rest ∨ (s.putAnswers = List.replicate a .ok ∧ rest = []) →
    exec .dump s = .next { s with
      stuck := true
      hist := s.hist ++ ((chunkBytesOf s).take a).map .tx
      putAnswers := rest }

/-! ## Whole-machine statements -/

/-- 10_state.md R39 at reset. -/
def Obligations.InvariantHoldsAtReset : Prop := BlockInv State.reset

/-- 10_state.md R39: every step keeps the invariant, from every state that has it. -/
def Obligations.StepKeepsTheInvariant : Prop :=
  ∀ s s' : State, BlockInv s → step s = .next s' → BlockInv s'

/-- 10_state.md R39: every reachable state has the invariant, whatever words and answers come. -/
def Obligations.ReachableStatesHaveTheInvariant : Prop := ∀ s : State, Reachable s → BlockInv s

/-- 00_scope.md R12: the step is total in every state, one that no run reaches too: every operation completes or raises
an error (or leaves the block stuck, R199), and all of these are next states. (What a completed pixel row does where
its two bytes do not exist is the model's choice, log 10; the `stuck` mark is log 3.) -/
def Obligations.StepNeverStops : Prop :=
  (∀ (w : OpWord) (s : State), ∃ t, execWord w s = .next t) ∧ ∀ s : State, ∃ s', step s = .next s'

/-- 42_checksum_framer.md R155, step by step: a print job without error has sent, since the bytes before it, exactly
its frames so far in the mandated order, and a chunk is added to the DATA frames only when it is the full buffer. -/
def Obligations.PrintJobSendsItsFramesInOrder : Prop :=
  ∀ (base : List Byte) (chunks : List (List Byte)) (s s' : State),
    BlockInv s → s.mode = .print → s.enc ≠ .idle → PrintJob base chunks s →
    step s = .next s' → s'.err = .noError → s'.stuck = false → s'.enc ≠ .idle →
    PrintJob base chunks s' ∨ (s.enc = .full ∧ PrintJob base (chunks ++ [chunkBytesOf s]) s')

/-- 42_checksum_framer.md R155: what a finished print job has sent, and how many bytes that is. -/
def Obligations.FinishedPrintJobHasSentEverything : Prop :=
  ∀ (base : List Byte) (chunks : List (List Byte)) (s : State), BlockInv s → PrintJob base chunks s → s.seq = .done →
    chunks.length = s.nchunk.toNat
      ∧ txBytes s.hist = base ++ packetFrame s.packets.pInit ++ (chunks.map dataFrame).flatten
          ++ packetFrame s.packets.pEmpty ++ packetFrame s.packets.pPrint
          ++ (List.replicate 10 (packetFrame s.packets.pReport)).flatten
      ∧ (txBytes s.hist).length = base.length + (s.packets.pInit.payload.length + 10) + 650 * s.nchunk.toNat
          + (s.packets.pEmpty.payload.length + 10) + (s.packets.pPrint.payload.length + 10)
          + 10 * (s.packets.pReport.payload.length + 10)

/-- 42_checksum_framer.md R156, 20_memory.md R63, step by step: a dump job without error has sent exactly its drained
chunks in order, and a chunk is added only when it is the full buffer. -/
def Obligations.DumpJobSendsItsChunksInOrder : Prop :=
  ∀ (base : List Byte) (chunks : List (List Byte)) (s s' : State),
    BlockInv s → s.mode = .dump → s.enc ≠ .idle → DumpJob base chunks s →
    step s = .next s' → s'.err = .noError → s'.stuck = false → s'.enc ≠ .idle →
    DumpJob base chunks s' ∨ (s.enc = .full ∧ DumpJob base (chunks ++ [chunkBytesOf s]) s')

/-- 40_config_control.md R103: START emits nothing; the job it begins has sent nothing since. -/
def Obligations.StartBeginsAJob : Prop :=
  ∀ (d : Mode) (s t : State), s.err = .noError → exec (.start d) s = .next t → t.err = .noError →
    t.hist = s.hist
      ∧ (d = .print → PrintJob (txBytes s.hist) [] t) ∧ (d = .dump → DumpJob (txBytes s.hist) [] t)

/-- 70_reset_and_hazards.md R191, 10_state.md R37: no step takes back a sent byte or a read result, and none changes
the packet parameters. -/
def Obligations.HistoryOnlyGrows : Prop :=
  ∀ s s' : State, step s = .next s' →
    (∃ l, s'.hist = s.hist ++ l) ∧ (∃ l, s'.reads = s.reads ++ l) ∧ s'.packets = s.packets

/-- 10_state.md R20 to R35, 60_exceptions.md R170: which operations write each register and field, the buffer and the
history; RST aside, every other operation leaves them as they are. -/
def Obligations.OnlyTheseOperationsWriteThese : Prop :=
  ∀ (i : Instr) (s t : State), exec i s = .next t → i ≠ .rst →
    ((∀ v, i ≠ .setw v) → t.imgW = s.imgW)
      ∧ ((∀ v, i ≠ .seth v) → t.imgH = s.imgH)
      ∧ ((∀ d, i ≠ .start d) → t.mode = s.mode ∧ t.nchunk = s.nchunk)
      ∧ ((∀ d, i ≠ .start d) → ¬ TakesPixels i → t.tr = s.tr ∧ t.tc = s.tc ∧ t.y = s.y ∧ t.x = s.x)
      ∧ (¬ TakesPixels i → t.lo = s.lo ∧ t.hi = s.hi)
      ∧ ((∀ d, i ≠ .start d) → ¬ Drains i → t.chunk = s.chunk)
      ∧ ((∀ d, i ≠ .start d) → ¬ TakesPixels i → ¬ Drains i → t.enc = s.enc ∧ ∀ a, t.cb.read a = s.cb.read a)
      ∧ ((∀ d, i ≠ .start d) → i ≠ .framePrint → i ≠ .frameReport → t.rpt = s.rpt)
      ∧ ((∀ d, i ≠ .start d) → frameOf i s = none ∨ i = .frameData → t.seq = s.seq)
      ∧ (t.err = s.err ∨ (s.err = .noError ∧ MayRaise i s t.err))
      ∧ (frameOf i s = none → t.cks = s.cks ∧ t.rsp1 = s.rsp1 ∧ t.rsp2 = s.rsp2)
      ∧ (frameOf i s = none → i ≠ .dump → t.hist = s.hist)

/-- 60_exceptions.md R180, 10_state.md R26, R27: the phases move only along their paths; only RST or a reset goes
back, and it is the input the step took (the port is the model's own, log 1). -/
def Obligations.PhasesMoveOnlyForward : Prop :=
  ∀ s s' : State, BlockInv s → step s = .next s' →
    (IsReset s' ∧ ResetComesNext s)
      ∨ ((s'.enc = s.enc ∨ (s.enc, s'.enc) ∈
            [(EncPhase.idle, EncPhase.fill), (.fill, .full), (.full, .fill), (.full, .done)])
        ∧ (s'.seq = s.seq ∨ (s.seq, s'.seq) ∈
            [(SeqPhase.idle, SeqPhase.ready), (.ready, .data), (.data, .emptied), (.emptied, .report), (.report, .done)]))

/-- 42_checksum_framer.md R157: after the end of a job every operation but RST, RD and RDCB raises `SequenceError`,
and nothing else changes. -/
def Obligations.FinishedJobAcceptsOnlyRstAndReads : Prop :=
  ∀ (i : Instr) (s : State), BlockInv s → s.err = .noError → s.seq = .done ∨ (s.mode = .dump ∧ s.enc = .done) →
    ¬ AlwaysRuns i → exec i s = .next { s with err := .sequenceError }
end

