-- ==== Sys2Proof/Laws/Link.lean ====
section
/-! SUPPORT. What the exchanges and the frame emission can do: a run answered `ok` from end to end, a run stopped at
one byte, and the bytes of the places of a frame. -/

namespace Sys2Proof.Laws

open Sys2Proof.Machine Sys2Proof.Safety

/-- The bytes of some places, generated in order from an accumulator. -/
def slotBytes : List Slot → Half → List Byte
  | [], _ => []
  | slot :: slots, cks => slotByte cks slot :: slotBytes slots (slotSum cks slot)

/-- The accumulator after some places. -/
def slotsSum (slots : List Slot) (cks : Half) : Half := slots.foldl slotSum cks

/-- The run `e` with answered exchanges of `bs` and `rs` before it. -/
def prepend (bs rs : List Byte) (e : Emission) : Emission :=
  { e with events := exchanges bs rs ++ e.events, responses := rs ++ e.responses }

@[simp] theorem slotsSum_nil (cks : Half) : slotsSum [] cks = cks := rfl

@[simp] theorem slotsSum_cons (slot : Slot) (slots : List Slot) (cks : Half) :
    slotsSum (slot :: slots) cks = slotsSum slots (slotSum cks slot) := rfl

theorem slotsSum_append (a b : List Slot) (cks : Half) : slotsSum (a ++ b) cks = slotsSum b (slotsSum a cks) := by
  simp [slotsSum, List.foldl_append]

@[simp] theorem slotBytes_length (slots : List Slot) (cks : Half) :
    (slotBytes slots cks).length = slots.length := by
  induction slots generalizing cks with
  | nil => rfl
  | cons s ss ih => simp [slotBytes, ih]

theorem slotBytes_append (a b : List Slot) (cks : Half) :
    slotBytes (a ++ b) cks = slotBytes a cks ++ slotBytes b (slotsSum a cks) := by
  induction a generalizing cks with
  | nil => rfl
  | cons s ss ih => simp [slotBytes, ih]

/-- The places answered `ok` first, then the others: the whole run is the exchanges of the first before the run of the
others, from the accumulator the first leave. -/
theorem emitSlots_append (a b : List Slot) (cks : Half) (rs : List Byte) (answers : List XferAnswer)
    (h : rs.length = a.length) :
    emitSlots (a ++ b) cks (rs.map .ok ++ answers)
      = prepend (slotBytes a cks) rs (emitSlots b (slotsSum a cks) answers) := by
  induction a generalizing cks rs with
  | nil =>
    obtain rfl := List.eq_nil_of_length_eq_zero (by simpa using h)
    rfl
  | cons s ss ih =>
    cases rs with
    | nil => simp at h
    | cons r rs =>
      have := ih (slotSum cks s) rs (by simpa using h)
      simp only [List.cons_append, List.map_cons, emitSlots, this, slotsSum_cons]
      rfl

/-- A run of places all answered `ok` is done, with every exchange in order. -/
theorem emitSlots_done (a : List Slot) (cks : Half) (rs : List Byte) (rest : List XferAnswer)
    (h : rs.length = a.length) :
    emitSlots a cks (rs.map .ok ++ rest) = ⟨slotsSum a cks, exchanges (slotBytes a cks) rs, rs, rest, .done⟩ := by
  have := emitSlots_append a [] cks rs rest h
  simpa [emitSlots, prepend] using this

/-- A run stopped at place `slot`, after the places `a` answered `ok`: what the stop records comes after their
exchanges, and the byte of `slot` is already summed. -/
theorem emitSlots_stop (a b : List Slot) (slot : Slot) (cks : Half) (rs : List Byte) (rest : List XferAnswer)
    (h : rs.length = a.length) :
    emitSlots (a ++ slot :: b) cks (rs.map .ok ++ .wfail :: rest)
        = ⟨slotsSum (a ++ [slot]) cks, exchanges (slotBytes a cks) rs ++ [.fail .w], rs, rest, .failed⟩
      ∧ emitSlots (a ++ slot :: b) cks (rs.map .ok ++ .rfail :: rest)
        = ⟨slotsSum (a ++ [slot]) cks,
            exchanges (slotBytes a cks) rs ++ [.tx (slotByte (slotsSum a cks) slot), .fail .r], rs, rest, .failed⟩
      ∧ emitSlots (a ++ slot :: b) cks (rs.map .ok ++ .never :: rest)
        = ⟨slotsSum (a ++ [slot]) cks, exchanges (slotBytes a cks) rs, rs, rest, .silent⟩
      ∧ emitSlots (a ++ slot :: b) cks (rs.map .ok)
        = ⟨slotsSum (a ++ [slot]) cks, exchanges (slotBytes a cks) rs, rs, [], .silent⟩ := by
  refine ⟨?_, ?_, ?_, ?_⟩
  · rw [emitSlots_append _ _ _ _ _ h]
    simp [emitSlots, prepend, slotsSum_append]
  · rw [emitSlots_append _ _ _ _ _ h]
    simp [emitSlots, prepend, slotsSum_append]
  · rw [emitSlots_append _ _ _ _ _ h]
    simp [emitSlots, prepend, slotsSum_append]
  · have := emitSlots_append a (slot :: b) cks rs [] h
    simpa [emitSlots, prepend, slotsSum_append] using this

/-- The only ways a run of exchanges ends: done, with every answer it took an `ok`; or stopped at one place. -/
theorem emitSlots_ending (a : List Slot) (cks : Half) (answers : List XferAnswer) :
    (∃ (rs : List Byte) (rest : List XferAnswer), rs.length = a.length ∧ answers = rs.map .ok ++ rest
        ∧ (emitSlots a cks answers).ending = .done)
      ∨ (∃ (rs : List Byte) (rest : List XferAnswer), rs.length < a.length
          ∧ (answers = rs.map .ok ++ .wfail :: rest ∨ answers = rs.map .ok ++ .rfail :: rest)
          ∧ (emitSlots a cks answers).ending = .failed)
      ∨ (∃ (rs : List Byte) (rest : List XferAnswer), rs.length < a.length
          ∧ (answers = rs.map .ok ++ .never :: rest ∨ answers = rs.map .ok)
          ∧ (emitSlots a cks answers).ending = .silent) := by
  induction a generalizing cks answers with
  | nil => exact .inl ⟨[], answers, rfl, rfl, rfl⟩
  | cons s ss ih =>
    match answers with
    | .ok r :: rest =>
      rcases ih (slotSum cks s) rest with ⟨rs, t, h1, h2, h3⟩ | ⟨rs, t, h1, h2, h3⟩ | ⟨rs, t, h1, h2, h3⟩
      · exact .inl ⟨r :: rs, t, by simp [h1], by simp [h2], by
          simpa [emitSlots, Emission.exchanged] using h3⟩
      · exact .inr (.inl ⟨r :: rs, t, by simp [h1], by
          rcases h2 with h2 | h2 <;> simp [h2], by
          simpa [emitSlots, Emission.exchanged] using h3⟩)
      · exact .inr (.inr ⟨r :: rs, t, by simp [h1], by
          rcases h2 with h2 | h2 <;> simp [h2], by
          simpa [emitSlots, Emission.exchanged] using h3⟩)
    | .wfail :: rest => exact .inr (.inl ⟨[], rest, by simp, .inl rfl, rfl⟩)
    | .rfail :: rest => exact .inr (.inl ⟨[], rest, by simp, .inr rfl, rfl⟩)
    | .never :: rest => exact .inr (.inr ⟨[], rest, by simp, .inl rfl, rfl⟩)
    | [] => exact .inr (.inr ⟨[], [], by simp, .inr rfl, rfl⟩)

/-! ## The places of a frame -/

@[simp] theorem frameSlots_length (cmd comp : Byte) (pl : List Byte) :
    (frameSlots cmd comp pl).length = pl.length + 10 := by
  simp [frameSlots]

/-- The places that are summed, as a run of their own. -/
theorem frameSlots_eq (cmd comp : Byte) (pl : List Byte) :
    frameSlots cmd comp pl = [.plain 0x88, .plain 0x33] ++ (summedBytes cmd comp pl).map .summed
      ++ [.cksLo, .cksHi, .plain 0, .plain 0] := by
  simp [frameSlots, summedBytes]

@[simp] theorem byteSum_nil : byteSum [] = 0 := rfl

@[simp] theorem byteSum_cons (b : Byte) (bs : List Byte) : byteSum (b :: bs) = b.toNat + byteSum bs := by
  simp [byteSum]

theorem byteSum_append (a b : List Byte) : byteSum (a ++ b) = byteSum a + byteSum b := by
  simp [byteSum]

/-- Truncating after every byte equals truncating once (42_checksum_framer.md R140). -/
theorem slotsSum_summed (bs : List Byte) (cks : Half) :
    (slotsSum (bs.map .summed) cks).toNat = (cks.toNat + byteSum bs) % 65536 := by
  induction bs generalizing cks with
  | nil => simp [Nat.mod_eq_of_lt cks.isLt]
  | cons b bs ih =>
    have hb : b.toNat < 65536 := Nat.lt_trans b.isLt (by decide)
    simp only [List.map_cons, slotsSum_cons, ih, slotSum, cksAdd, BitVec.toNat_add, BitVec.toNat_setWidth,
      Nat.mod_eq_of_lt hb, byteSum_cons]
    omega

theorem slotBytes_summed (bs : List Byte) (cks : Half) : slotBytes (bs.map .summed) cks = bs := by
  induction bs generalizing cks with
  | nil => rfl
  | cons b bs ih => simp [slotBytes, slotByte, ih]

theorem checksumOf_lt (cmd comp : Byte) (pl : List Byte) : checksumOf cmd comp pl < 65536 :=
  Nat.mod_lt _ (by decide)

theorem slotsSum_frame_upto (cmd comp : Byte) (pl : List Byte) :
    slotsSum ([.plain 0x88, .plain 0x33] ++ (summedBytes cmd comp pl).map .summed) 0
      = BitVec.ofNat 16 (checksumOf cmd comp pl) := by
  apply BitVec.eq_of_toNat_eq
  rw [slotsSum_append, slotsSum_summed]
  simp [slotSum, checksumOf]

/-- The accumulator after a whole frame is `S` of R141. -/
theorem slotsSum_frame (cmd comp : Byte) (pl : List Byte) :
    slotsSum (frameSlots cmd comp pl) 0 = BitVec.ofNat 16 (checksumOf cmd comp pl) := by
  rw [frameSlots_eq, slotsSum_append, slotsSum_frame_upto]
  rfl

/-- The bytes generated for the places of a frame are the frame `F` of R141. -/
theorem slotBytes_frame (cmd comp : Byte) (pl : List Byte) :
    slotBytes (frameSlots cmd comp pl) 0 = frameBytes cmd comp pl := by
  rw [frameSlots_eq, slotBytes_append, slotBytes_append, slotsSum_frame_upto]
  have h := checksumOf_lt cmd comp pl
  rw [slotBytes_summed]
  simp [slotBytes, slotByte, slotSum, frameBytes, Nat.mod_eq_of_lt h]

@[simp] theorem frameBytes_length (cmd comp : Byte) (pl : List Byte) :
    (frameBytes cmd comp pl).length = pl.length + 10 := by
  rw [← slotBytes_frame, slotBytes_length, frameSlots_length]

@[simp] theorem packet_payload_le (p : Packet) : p.payload.length ≤ 65535 := by
  simp [Packet.payload]

/-! ## The dump's exchanges -/

/-- A run of writes all taken is done. -/
theorem putBytes_done (bs : List Byte) (rest : List PutAnswer) :
    putBytes bs (List.replicate bs.length .ok ++ rest) = ⟨bs.map .tx, rest, .done⟩ := by
  induction bs with
  | nil => rfl
  | cons b bs ih => simp [putBytes, List.replicate_succ, ih, PutRun.taken]

/-- A run of writes stopped at the byte after `bs`. -/
theorem putBytes_stop (bs cs : List Byte) (b : Byte) (rest : List PutAnswer) :
    putBytes (bs ++ b :: cs) (List.replicate bs.length .ok ++ .wfail :: rest)
        = ⟨bs.map .tx ++ [.fail .w], rest, .failed⟩
      ∧ putBytes (bs ++ b :: cs) (List.replicate bs.length .ok ++ .never :: rest) = ⟨bs.map .tx, rest, .silent⟩
      ∧ putBytes (bs ++ b :: cs) (List.replicate bs.length .ok) = ⟨bs.map .tx, [], .silent⟩ := by
  induction bs with
  | nil => exact ⟨rfl, rfl, rfl⟩
  | cons c bs ih =>
    obtain ⟨h1, h2, h3⟩ := ih
    simp [putBytes, List.replicate_succ, h1, h2, h3, PutRun.taken]

/-- The only ways a run of writes ends. -/
theorem putBytes_ending (bs : List Byte) (answers : List PutAnswer) :
    (∃ rest, answers = List.replicate bs.length .ok ++ rest ∧ (putBytes bs answers).ending = .done)
      ∨ (∃ k rest, k < bs.length ∧ answers = List.replicate k .ok ++ .wfail :: rest
          ∧ (putBytes bs answers).ending = .failed)
      ∨ (∃ k rest, k < bs.length
          ∧ (answers = List.replicate k .ok ++ .never :: rest ∨ answers = List.replicate k .ok)
          ∧ (putBytes bs answers).ending = .silent) := by
  induction bs generalizing answers with
  | nil => exact .inl ⟨answers, rfl, rfl⟩
  | cons b bs ih =>
    match answers with
    | .ok :: rest =>
      rcases ih rest with ⟨t, h1, h2⟩ | ⟨k, t, h1, h2, h3⟩ | ⟨k, t, h1, h2, h3⟩
      · exact .inl ⟨t, by simp [h1, List.replicate_succ], by simpa [putBytes, PutRun.taken] using h2⟩
      · exact .inr (.inl ⟨k + 1, t, by simp [h1], by simp [h2, List.replicate_succ], by
          simpa [putBytes, PutRun.taken] using h3⟩)
      · exact .inr (.inr ⟨k + 1, t, by simp [h1], by rcases h2 with h2 | h2 <;> simp [h2, List.replicate_succ], by
          simpa [putBytes, PutRun.taken] using h3⟩)
    | .wfail :: rest => exact .inr (.inl ⟨0, rest, by simp, rfl, rfl⟩)
    | .never :: rest => exact .inr (.inr ⟨0, rest, by simp, .inl rfl, rfl⟩)
    | [] => exact .inr (.inr ⟨0, [], by simp, .inr rfl, rfl⟩)

end Sys2Proof.Laws
end

