-- ==== Sys2Proof/Laws/Memory.lean ====
section
/-! SUPPORT. The laws of the chunk buffer: read after write, and every operation keeps the canonical form. -/

namespace Sys2Proof.Machine

@[simp] theorem Memory.read_nil (a : Nat) : Memory.read [] a = 0#8 := rfl

theorem Memory.read_cons (b : Nat) (v : Byte) (m : Memory) (a : Nat) :
    Memory.read ((b, v) :: m) a = if a = b then v else m.read a := rfl

@[simp] theorem Memory.wf_nil : Memory.wf [] = true := rfl

theorem Memory.wfFrom_cons (lo a : Nat) (v : Byte) (m : Memory) :
    Memory.wfFrom lo ((a, v) :: m) = true ↔
      lo ≤ a ∧ a < 640 ∧ v ≠ 0#8 ∧ Memory.wfFrom (a + 1) m = true := by
  simp [Memory.wfFrom, blankByte, and_assoc]

/-- A canonical buffer from `lo` up reads blank below `lo`. -/
theorem Memory.read_below (m : Memory) (lo a : Nat) (h : Memory.wfFrom lo m = true) (ha : a < lo) :
    m.read a = 0#8 := by
  induction m generalizing lo with
  | nil => rfl
  | cons c m ih =>
    obtain ⟨b, v⟩ := c
    obtain ⟨h1, -, -, h4⟩ := (Memory.wfFrom_cons lo b v m).1 h
    rw [Memory.read_cons, if_neg (by omega)]
    exact ih (b + 1) h4 (by omega)

/-- A canonical buffer reads blank at every address that does not exist. -/
theorem Memory.read_beyond (m : Memory) (lo a : Nat) (h : Memory.wfFrom lo m = true) (ha : 640 ≤ a) :
    m.read a = 0#8 := by
  induction m generalizing lo with
  | nil => rfl
  | cons c m ih =>
    obtain ⟨b, v⟩ := c
    obtain ⟨-, h2, -, h4⟩ := (Memory.wfFrom_cons lo b v m).1 h
    rw [Memory.read_cons, if_neg (by omega)]
    exact ih (b + 1) h4

theorem Memory.wfFrom_mono (m : Memory) (lo lo' : Nat) (h : Memory.wfFrom lo m = true) (hl : lo' ≤ lo) :
    Memory.wfFrom lo' m = true := by
  cases m with
  | nil => rfl
  | cons c m =>
    obtain ⟨b, v⟩ := c
    obtain ⟨h1, h2, h3, h4⟩ := (Memory.wfFrom_cons lo b v m).1 h
    exact (Memory.wfFrom_cons lo' b v m).2 ⟨by omega, h2, h3, h4⟩

theorem Memory.wfFrom_write (m : Memory) (lo a : Nat) (v : Byte) (h : Memory.wfFrom lo m = true)
    (hlo : lo ≤ a) (ha : a < 640) : Memory.wfFrom lo (m.write a v) = true := by
  induction m generalizing lo with
  | nil =>
    by_cases hv : v = 0#8
    · simp [Memory.write, blankByte, hv, Memory.wfFrom]
    · simp [Memory.write, blankByte, hv, Memory.wfFrom, hlo, ha]
  | cons c m ih =>
    obtain ⟨b, u⟩ := c
    obtain ⟨h1, h2, h3, h4⟩ := (Memory.wfFrom_cons lo b u m).1 h
    unfold Memory.write
    by_cases hab : a < b
    · by_cases hv : v = 0#8
      · simpa [hab, hv, blankByte] using h
      · simp only [hab, if_true, blankByte, hv, if_false]
        exact (Memory.wfFrom_cons ..).2 ⟨hlo, ha, hv, (Memory.wfFrom_cons ..).2 ⟨by omega, h2, h3, h4⟩⟩
    · by_cases hab' : a = b
      · subst hab'
        by_cases hv : v = 0#8
        · simp only [lt_irrefl, if_false, if_true, hv, blankByte]
          exact Memory.wfFrom_mono m _ _ h4 (by omega)
        · simp only [lt_irrefl, if_false, if_true, hv, blankByte]
          exact (Memory.wfFrom_cons ..).2 ⟨h1, h2, hv, h4⟩
      · simp only [hab, hab', if_false]
        exact (Memory.wfFrom_cons ..).2 ⟨h1, h2, h3, ih (b + 1) h4 (by omega)⟩

/-- Every write to an address that exists keeps the canonical form. -/
theorem Memory.wf_write (m : Memory) (a : Nat) (v : Byte) (h : m.wf = true) (ha : a < 640) :
    (m.write a v).wf = true :=
  Memory.wfFrom_write m 0 a v h (Nat.zero_le a) ha

theorem Memory.read_write_from (m : Memory) (lo a : Nat) (v : Byte) (h : Memory.wfFrom lo m = true) (c : Nat) :
    (m.write a v).read c = if c = a then v else m.read c := by
  induction m generalizing lo with
  | nil =>
    by_cases hv : v = 0#8
    · simp [Memory.write, blankByte, hv]
    · simp [Memory.write, blankByte, hv, Memory.read_cons]
  | cons d m ih =>
    obtain ⟨b, u⟩ := d
    obtain ⟨-, -, -, h4⟩ := (Memory.wfFrom_cons lo b u m).1 h
    unfold Memory.write
    by_cases hab : a < b
    · by_cases hv : v = 0#8
      · simp only [hab, if_true, hv, blankByte]
        by_cases hc : c = a
        · subst hc
          rw [if_pos rfl, Memory.read_cons, if_neg (by omega)]
          exact Memory.read_below m (b + 1) c h4 (by omega)
        · simp [hc]
      · simp only [hab, if_true, hv, if_false, blankByte, Memory.read_cons]
    · by_cases hab' : a = b
      · subst hab'
        by_cases hv : v = 0#8
        · simp only [lt_irrefl, if_false, if_true, hv, blankByte, Memory.read_cons]
          by_cases hc : c = a
          · subst hc
            simpa using Memory.read_below m (c + 1) c h4 (by omega)
          · simp [hc]
        · simp only [lt_irrefl, if_false, if_true, hv, blankByte, Memory.read_cons]
          by_cases hc : c = a <;> simp [hc]
      · simp only [hab, hab', if_false, Memory.read_cons, ih (b + 1) h4]
        by_cases hc : c = b
        · subst hc
          simp [show c ≠ a by omega]
        · simp [hc]

/-- What a byte reads after a write: the written value at its address, as before everywhere else. -/
theorem Memory.read_write (m : Memory) (a : Nat) (v : Byte) (h : m.wf = true) (c : Nat) :
    (m.write a v).read c = if c = a then v else m.read c :=
  Memory.read_write_from m 0 a v h c

/-- The two writes of a completed pixel row (41_tile_encoder.md R124): they land at `o` and `o + 1`, nowhere else, and
keep the canonical form. -/
theorem Memory.write_row (m : Memory) (o : Nat) (lo hi : Byte) (h : m.wf = true) (ho : o + 1 < 640) :
    ((m.write o lo).write (o + 1) hi).wf = true
      ∧ ((m.write o lo).write (o + 1) hi).read o = lo
      ∧ ((m.write o lo).write (o + 1) hi).read (o + 1) = hi
      ∧ ∀ a, a ≠ o → a ≠ o + 1 → ((m.write o lo).write (o + 1) hi).read a = m.read a := by
  have h1 := Memory.wf_write m o lo h (by omega)
  refine ⟨Memory.wf_write _ (o + 1) hi h1 ho, ?_, ?_, ?_⟩
  · rw [Memory.read_write _ _ _ h1, Memory.read_write _ _ _ h]; simp
  · rw [Memory.read_write _ _ _ h1]; simp
  · intro a ha hb
    rw [Memory.read_write _ _ _ h1, Memory.read_write _ _ _ h]; simp [ha, hb]

/-- Two canonical buffers that read alike everywhere are the same list. -/
theorem Memory.eq_of_read_eq_from (m n : Memory) (lo : Nat) (hm : Memory.wfFrom lo m = true)
    (hn : Memory.wfFrom lo n = true) (h : ∀ a, m.read a = n.read a) : m = n := by
  induction m generalizing lo n with
  | nil =>
    cases n with
    | nil => rfl
    | cons d n =>
      obtain ⟨b, u⟩ := d
      obtain ⟨-, -, h3, -⟩ := (Memory.wfFrom_cons lo b u n).1 hn
      exact absurd (by simpa [Memory.read_cons] using (h b).symm) h3
  | cons c m ih =>
    obtain ⟨a, v⟩ := c
    obtain ⟨ha1, ha2, ha3, ha4⟩ := (Memory.wfFrom_cons lo a v m).1 hm
    cases n with
    | nil => exact absurd (by simpa [Memory.read_cons] using h a) ha3
    | cons d n =>
      obtain ⟨b, u⟩ := d
      obtain ⟨hb1, hb2, hb3, hb4⟩ := (Memory.wfFrom_cons lo b u n).1 hn
      have hab : a = b := by
        rcases Nat.lt_trichotomy a b with hlt | heq | hgt
        · have := h a
          rw [Memory.read_cons, if_pos rfl, Memory.read_cons, if_neg (by omega),
            Memory.read_below n (b + 1) a hb4 (by omega)] at this
          exact absurd this ha3
        · exact heq
        · have := h b
          rw [Memory.read_cons, if_neg (by omega), Memory.read_cons, if_pos rfl,
            Memory.read_below m (a + 1) b ha4 (by omega)] at this
          exact absurd this.symm hb3
      subst hab
      have hvu : v = u := by simpa [Memory.read_cons] using h a
      subst hvu
      rw [ih n (a + 1) ha4 hb4]
      intro c
      by_cases hc : c = a
      · subst hc
        rw [Memory.read_below m (c + 1) c ha4 (by omega), Memory.read_below n (c + 1) c hb4 (by omega)]
      · simpa [Memory.read_cons, hc] using h c

/-- Equal memories are equal data: canonical buffers that read alike everywhere are equal. -/
theorem Memory.eq_of_read_eq (m n : Memory) (hm : m.wf = true) (hn : n.wf = true)
    (h : ∀ a, m.read a = n.read a) : m = n :=
  Memory.eq_of_read_eq_from m n 0 hm hn h

/-- Everything a byte write can do: below 640 it writes the one byte, from 640 up there is no byte to change. -/
theorem memWrite_cases (a : Nat) (v : Byte) (s : State) :
    (a < 640 ∧ memWrite a v s = { s with cb := s.cb.write a v }) ∨ (640 ≤ a ∧ memWrite a v s = s) := by
  by_cases h : a < 640
  · exact .inl ⟨h, by simp [memWrite, h]⟩
  · exact .inr ⟨by omega, by simp [memWrite, h]⟩

/-- Every memory operation keeps the canonical form: a byte write. -/
theorem memWrite_keeps_wf (a : Nat) (v : Byte) (s : State) (hw : s.cb.wf = true) : (memWrite a v s).cb.wf = true := by
  rcases memWrite_cases a v s with ⟨ha, he⟩ | ⟨-, he⟩ <;> rw [he]
  · exact Memory.wf_write _ _ _ hw ha
  · exact hw

/-- Every memory operation keeps the canonical form: the clearing. -/
theorem clearCB_wf (s : State) : (clearCB s).cb.wf = true := rfl

/-- The memory after reset has the canonical form. -/
theorem reset_cb_wf : State.reset.cb.wf = true := rfl

@[simp] theorem chunkBytesOf_length (s : State) : (chunkBytesOf s).length = 640 := by
  simp [chunkBytesOf]

theorem chunkBytesOf_getElem (s : State) (a : Nat) (h : a < (chunkBytesOf s).length) :
    (chunkBytesOf s)[a] = s.cb.read a := by
  simp [chunkBytesOf, memRead]

end Sys2Proof.Machine
end

