-- ==== Sys2Proof/Laws/State.lean ====
section
/-! SUPPORT. One lemma per field per named update of the state: no later proof unfolds a record update. -/

namespace Sys2Proof.Machine

/-! ## `raise` (60_exceptions.md R174) writes `ERR` only. -/

@[simp] theorem raise_imgW (e : ErrCode) (s : State) : (raise e s).imgW = s.imgW := rfl
@[simp] theorem raise_imgH (e : ErrCode) (s : State) : (raise e s).imgH = s.imgH := rfl
@[simp] theorem raise_enc (e : ErrCode) (s : State) : (raise e s).enc = s.enc := rfl
@[simp] theorem raise_seq (e : ErrCode) (s : State) : (raise e s).seq = s.seq := rfl
@[simp] theorem raise_mode (e : ErrCode) (s : State) : (raise e s).mode = s.mode := rfl
@[simp] theorem raise_err (e : ErrCode) (s : State) : (raise e s).err = if s.err = .noError then e else s.err := rfl
@[simp] theorem raise_tr (e : ErrCode) (s : State) : (raise e s).tr = s.tr := rfl
@[simp] theorem raise_tc (e : ErrCode) (s : State) : (raise e s).tc = s.tc := rfl
@[simp] theorem raise_y (e : ErrCode) (s : State) : (raise e s).y = s.y := rfl
@[simp] theorem raise_x (e : ErrCode) (s : State) : (raise e s).x = s.x := rfl
@[simp] theorem raise_chunk (e : ErrCode) (s : State) : (raise e s).chunk = s.chunk := rfl
@[simp] theorem raise_nchunk (e : ErrCode) (s : State) : (raise e s).nchunk = s.nchunk := rfl
@[simp] theorem raise_rpt (e : ErrCode) (s : State) : (raise e s).rpt = s.rpt := rfl
@[simp] theorem raise_cks (e : ErrCode) (s : State) : (raise e s).cks = s.cks := rfl
@[simp] theorem raise_rsp1 (e : ErrCode) (s : State) : (raise e s).rsp1 = s.rsp1 := rfl
@[simp] theorem raise_rsp2 (e : ErrCode) (s : State) : (raise e s).rsp2 = s.rsp2 := rfl
@[simp] theorem raise_lo (e : ErrCode) (s : State) : (raise e s).lo = s.lo := rfl
@[simp] theorem raise_hi (e : ErrCode) (s : State) : (raise e s).hi = s.hi := rfl
@[simp] theorem raise_cb (e : ErrCode) (s : State) : (raise e s).cb = s.cb := rfl
@[simp] theorem raise_packets (e : ErrCode) (s : State) : (raise e s).packets = s.packets := rfl
@[simp] theorem raise_port (e : ErrCode) (s : State) : (raise e s).port = s.port := rfl
@[simp] theorem raise_xferAnswers (e : ErrCode) (s : State) : (raise e s).xferAnswers = s.xferAnswers := rfl
@[simp] theorem raise_putAnswers (e : ErrCode) (s : State) : (raise e s).putAnswers = s.putAnswers := rfl
@[simp] theorem raise_stuck (e : ErrCode) (s : State) : (raise e s).stuck = s.stuck := rfl
@[simp] theorem raise_hist (e : ErrCode) (s : State) : (raise e s).hist = s.hist := rfl
@[simp] theorem raise_reads (e : ErrCode) (s : State) : (raise e s).reads = s.reads := rfl

/-! ## `ClearCB` writes the buffer only. -/

@[simp] theorem clearCB_imgW (s : State) : (clearCB s).imgW = s.imgW := rfl
@[simp] theorem clearCB_imgH (s : State) : (clearCB s).imgH = s.imgH := rfl
@[simp] theorem clearCB_enc (s : State) : (clearCB s).enc = s.enc := rfl
@[simp] theorem clearCB_seq (s : State) : (clearCB s).seq = s.seq := rfl
@[simp] theorem clearCB_mode (s : State) : (clearCB s).mode = s.mode := rfl
@[simp] theorem clearCB_err (s : State) : (clearCB s).err = s.err := rfl
@[simp] theorem clearCB_tr (s : State) : (clearCB s).tr = s.tr := rfl
@[simp] theorem clearCB_tc (s : State) : (clearCB s).tc = s.tc := rfl
@[simp] theorem clearCB_y (s : State) : (clearCB s).y = s.y := rfl
@[simp] theorem clearCB_x (s : State) : (clearCB s).x = s.x := rfl
@[simp] theorem clearCB_chunk (s : State) : (clearCB s).chunk = s.chunk := rfl
@[simp] theorem clearCB_nchunk (s : State) : (clearCB s).nchunk = s.nchunk := rfl
@[simp] theorem clearCB_rpt (s : State) : (clearCB s).rpt = s.rpt := rfl
@[simp] theorem clearCB_cks (s : State) : (clearCB s).cks = s.cks := rfl
@[simp] theorem clearCB_rsp1 (s : State) : (clearCB s).rsp1 = s.rsp1 := rfl
@[simp] theorem clearCB_rsp2 (s : State) : (clearCB s).rsp2 = s.rsp2 := rfl
@[simp] theorem clearCB_lo (s : State) : (clearCB s).lo = s.lo := rfl
@[simp] theorem clearCB_hi (s : State) : (clearCB s).hi = s.hi := rfl
@[simp] theorem clearCB_cb (s : State) : (clearCB s).cb = [] := rfl
@[simp] theorem clearCB_packets (s : State) : (clearCB s).packets = s.packets := rfl
@[simp] theorem clearCB_port (s : State) : (clearCB s).port = s.port := rfl
@[simp] theorem clearCB_xferAnswers (s : State) : (clearCB s).xferAnswers = s.xferAnswers := rfl
@[simp] theorem clearCB_putAnswers (s : State) : (clearCB s).putAnswers = s.putAnswers := rfl
@[simp] theorem clearCB_stuck (s : State) : (clearCB s).stuck = s.stuck := rfl
@[simp] theorem clearCB_hist (s : State) : (clearCB s).hist = s.hist := rfl
@[simp] theorem clearCB_reads (s : State) : (clearCB s).reads = s.reads := rfl

/-! ## A read result changes no state of the block (20_memory.md R68). -/

@[simp] theorem returnRead_imgW (v : Half) (s : State) : (returnRead v s).imgW = s.imgW := rfl
@[simp] theorem returnRead_imgH (v : Half) (s : State) : (returnRead v s).imgH = s.imgH := rfl
@[simp] theorem returnRead_enc (v : Half) (s : State) : (returnRead v s).enc = s.enc := rfl
@[simp] theorem returnRead_seq (v : Half) (s : State) : (returnRead v s).seq = s.seq := rfl
@[simp] theorem returnRead_mode (v : Half) (s : State) : (returnRead v s).mode = s.mode := rfl
@[simp] theorem returnRead_err (v : Half) (s : State) : (returnRead v s).err = s.err := rfl
@[simp] theorem returnRead_tr (v : Half) (s : State) : (returnRead v s).tr = s.tr := rfl
@[simp] theorem returnRead_tc (v : Half) (s : State) : (returnRead v s).tc = s.tc := rfl
@[simp] theorem returnRead_y (v : Half) (s : State) : (returnRead v s).y = s.y := rfl
@[simp] theorem returnRead_x (v : Half) (s : State) : (returnRead v s).x = s.x := rfl
@[simp] theorem returnRead_chunk (v : Half) (s : State) : (returnRead v s).chunk = s.chunk := rfl
@[simp] theorem returnRead_nchunk (v : Half) (s : State) : (returnRead v s).nchunk = s.nchunk := rfl
@[simp] theorem returnRead_rpt (v : Half) (s : State) : (returnRead v s).rpt = s.rpt := rfl
@[simp] theorem returnRead_cks (v : Half) (s : State) : (returnRead v s).cks = s.cks := rfl
@[simp] theorem returnRead_rsp1 (v : Half) (s : State) : (returnRead v s).rsp1 = s.rsp1 := rfl
@[simp] theorem returnRead_rsp2 (v : Half) (s : State) : (returnRead v s).rsp2 = s.rsp2 := rfl
@[simp] theorem returnRead_lo (v : Half) (s : State) : (returnRead v s).lo = s.lo := rfl
@[simp] theorem returnRead_hi (v : Half) (s : State) : (returnRead v s).hi = s.hi := rfl
@[simp] theorem returnRead_cb (v : Half) (s : State) : (returnRead v s).cb = s.cb := rfl
@[simp] theorem returnRead_packets (v : Half) (s : State) : (returnRead v s).packets = s.packets := rfl
@[simp] theorem returnRead_port (v : Half) (s : State) : (returnRead v s).port = s.port := rfl
@[simp] theorem returnRead_xferAnswers (v : Half) (s : State) : (returnRead v s).xferAnswers = s.xferAnswers := rfl
@[simp] theorem returnRead_putAnswers (v : Half) (s : State) : (returnRead v s).putAnswers = s.putAnswers := rfl
@[simp] theorem returnRead_stuck (v : Half) (s : State) : (returnRead v s).stuck = s.stuck := rfl
@[simp] theorem returnRead_hist (v : Half) (s : State) : (returnRead v s).hist = s.hist := rfl
@[simp] theorem returnRead_reads (v : Half) (s : State) : (returnRead v s).reads = s.reads ++ [v] := rfl

/-! ## `ShiftIn` (41_tile_encoder.md R122) writes `LO` and `HI` only. -/

@[simp] theorem shiftIn_imgW (p : Pixel) (s : State) : (shiftIn p s).imgW = s.imgW := rfl
@[simp] theorem shiftIn_imgH (p : Pixel) (s : State) : (shiftIn p s).imgH = s.imgH := rfl
@[simp] theorem shiftIn_enc (p : Pixel) (s : State) : (shiftIn p s).enc = s.enc := rfl
@[simp] theorem shiftIn_seq (p : Pixel) (s : State) : (shiftIn p s).seq = s.seq := rfl
@[simp] theorem shiftIn_mode (p : Pixel) (s : State) : (shiftIn p s).mode = s.mode := rfl
@[simp] theorem shiftIn_err (p : Pixel) (s : State) : (shiftIn p s).err = s.err := rfl
@[simp] theorem shiftIn_tr (p : Pixel) (s : State) : (shiftIn p s).tr = s.tr := rfl
@[simp] theorem shiftIn_tc (p : Pixel) (s : State) : (shiftIn p s).tc = s.tc := rfl
@[simp] theorem shiftIn_y (p : Pixel) (s : State) : (shiftIn p s).y = s.y := rfl
@[simp] theorem shiftIn_x (p : Pixel) (s : State) : (shiftIn p s).x = s.x := rfl
@[simp] theorem shiftIn_chunk (p : Pixel) (s : State) : (shiftIn p s).chunk = s.chunk := rfl
@[simp] theorem shiftIn_nchunk (p : Pixel) (s : State) : (shiftIn p s).nchunk = s.nchunk := rfl
@[simp] theorem shiftIn_rpt (p : Pixel) (s : State) : (shiftIn p s).rpt = s.rpt := rfl
@[simp] theorem shiftIn_cks (p : Pixel) (s : State) : (shiftIn p s).cks = s.cks := rfl
@[simp] theorem shiftIn_rsp1 (p : Pixel) (s : State) : (shiftIn p s).rsp1 = s.rsp1 := rfl
@[simp] theorem shiftIn_rsp2 (p : Pixel) (s : State) : (shiftIn p s).rsp2 = s.rsp2 := rfl
@[simp] theorem shiftIn_lo (p : Pixel) (s : State) : (shiftIn p s).lo = shiftBit s.lo (colourCode p).1 := rfl
@[simp] theorem shiftIn_hi (p : Pixel) (s : State) : (shiftIn p s).hi = shiftBit s.hi (colourCode p).2 := rfl
@[simp] theorem shiftIn_cb (p : Pixel) (s : State) : (shiftIn p s).cb = s.cb := rfl
@[simp] theorem shiftIn_packets (p : Pixel) (s : State) : (shiftIn p s).packets = s.packets := rfl
@[simp] theorem shiftIn_port (p : Pixel) (s : State) : (shiftIn p s).port = s.port := rfl
@[simp] theorem shiftIn_xferAnswers (p : Pixel) (s : State) : (shiftIn p s).xferAnswers = s.xferAnswers := rfl
@[simp] theorem shiftIn_putAnswers (p : Pixel) (s : State) : (shiftIn p s).putAnswers = s.putAnswers := rfl
@[simp] theorem shiftIn_stuck (p : Pixel) (s : State) : (shiftIn p s).stuck = s.stuck := rfl
@[simp] theorem shiftIn_hist (p : Pixel) (s : State) : (shiftIn p s).hist = s.hist := rfl
@[simp] theorem shiftIn_reads (p : Pixel) (s : State) : (shiftIn p s).reads = s.reads := rfl

/-! ## RST (40_config_control.md R100) writes every register and the buffer. -/

@[simp] theorem resetBlock_imgW (s : State) : (resetBlock s).imgW = 0#8 := rfl
@[simp] theorem resetBlock_imgH (s : State) : (resetBlock s).imgH = 0#8 := rfl
@[simp] theorem resetBlock_enc (s : State) : (resetBlock s).enc = .idle := rfl
@[simp] theorem resetBlock_seq (s : State) : (resetBlock s).seq = .idle := rfl
@[simp] theorem resetBlock_mode (s : State) : (resetBlock s).mode = .print := rfl
@[simp] theorem resetBlock_err (s : State) : (resetBlock s).err = .noError := rfl
@[simp] theorem resetBlock_tr (s : State) : (resetBlock s).tr = 0#5 := rfl
@[simp] theorem resetBlock_tc (s : State) : (resetBlock s).tc = 0#5 := rfl
@[simp] theorem resetBlock_y (s : State) : (resetBlock s).y = 0#3 := rfl
@[simp] theorem resetBlock_x (s : State) : (resetBlock s).x = 0#3 := rfl
@[simp] theorem resetBlock_chunk (s : State) : (resetBlock s).chunk = 0#4 := rfl
@[simp] theorem resetBlock_nchunk (s : State) : (resetBlock s).nchunk = 0#4 := rfl
@[simp] theorem resetBlock_rpt (s : State) : (resetBlock s).rpt = 0#4 := rfl
@[simp] theorem resetBlock_cks (s : State) : (resetBlock s).cks = 0#16 := rfl
@[simp] theorem resetBlock_rsp1 (s : State) : (resetBlock s).rsp1 = 0#8 := rfl
@[simp] theorem resetBlock_rsp2 (s : State) : (resetBlock s).rsp2 = 0#8 := rfl
@[simp] theorem resetBlock_lo (s : State) : (resetBlock s).lo = 0#8 := rfl
@[simp] theorem resetBlock_hi (s : State) : (resetBlock s).hi = 0#8 := rfl
@[simp] theorem resetBlock_cb (s : State) : (resetBlock s).cb = [] := rfl
@[simp] theorem resetBlock_packets (s : State) : (resetBlock s).packets = s.packets := rfl
@[simp] theorem resetBlock_port (s : State) : (resetBlock s).port = s.port := rfl
@[simp] theorem resetBlock_xferAnswers (s : State) : (resetBlock s).xferAnswers = s.xferAnswers := rfl
@[simp] theorem resetBlock_putAnswers (s : State) : (resetBlock s).putAnswers = s.putAnswers := rfl
@[simp] theorem resetBlock_stuck (s : State) : (resetBlock s).stuck = s.stuck := rfl
@[simp] theorem resetBlock_hist (s : State) : (resetBlock s).hist = s.hist := rfl
@[simp] theorem resetBlock_reads (s : State) : (resetBlock s).reads = s.reads := rfl

/-! ## A reset (70_reset_and_hazards.md R190) does what RST does, and ends a silent operation (R199). -/

@[simp] theorem externalReset_imgW (s : State) : (externalReset s).imgW = 0#8 := rfl
@[simp] theorem externalReset_imgH (s : State) : (externalReset s).imgH = 0#8 := rfl
@[simp] theorem externalReset_enc (s : State) : (externalReset s).enc = .idle := rfl
@[simp] theorem externalReset_seq (s : State) : (externalReset s).seq = .idle := rfl
@[simp] theorem externalReset_mode (s : State) : (externalReset s).mode = .print := rfl
@[simp] theorem externalReset_err (s : State) : (externalReset s).err = .noError := rfl
@[simp] theorem externalReset_tr (s : State) : (externalReset s).tr = 0#5 := rfl
@[simp] theorem externalReset_tc (s : State) : (externalReset s).tc = 0#5 := rfl
@[simp] theorem externalReset_y (s : State) : (externalReset s).y = 0#3 := rfl
@[simp] theorem externalReset_x (s : State) : (externalReset s).x = 0#3 := rfl
@[simp] theorem externalReset_chunk (s : State) : (externalReset s).chunk = 0#4 := rfl
@[simp] theorem externalReset_nchunk (s : State) : (externalReset s).nchunk = 0#4 := rfl
@[simp] theorem externalReset_rpt (s : State) : (externalReset s).rpt = 0#4 := rfl
@[simp] theorem externalReset_cks (s : State) : (externalReset s).cks = 0#16 := rfl
@[simp] theorem externalReset_rsp1 (s : State) : (externalReset s).rsp1 = 0#8 := rfl
@[simp] theorem externalReset_rsp2 (s : State) : (externalReset s).rsp2 = 0#8 := rfl
@[simp] theorem externalReset_lo (s : State) : (externalReset s).lo = 0#8 := rfl
@[simp] theorem externalReset_hi (s : State) : (externalReset s).hi = 0#8 := rfl
@[simp] theorem externalReset_cb (s : State) : (externalReset s).cb = [] := rfl
@[simp] theorem externalReset_packets (s : State) : (externalReset s).packets = s.packets := rfl
@[simp] theorem externalReset_port (s : State) : (externalReset s).port = s.port := rfl
@[simp] theorem externalReset_xferAnswers (s : State) : (externalReset s).xferAnswers = s.xferAnswers := rfl
@[simp] theorem externalReset_putAnswers (s : State) : (externalReset s).putAnswers = s.putAnswers := rfl
@[simp] theorem externalReset_stuck (s : State) : (externalReset s).stuck = false := rfl
@[simp] theorem externalReset_hist (s : State) : (externalReset s).hist = s.hist := rfl
@[simp] theorem externalReset_reads (s : State) : (externalReset s).reads = s.reads := rfl

/-! ## `AdvanceChunk` (42_checksum_framer.md R151) writes `CHUNK`, `ENC` and the buffer. -/

@[simp] theorem advanceChunk_imgW (s : State) : (advanceChunk s).imgW = s.imgW := rfl
@[simp] theorem advanceChunk_imgH (s : State) : (advanceChunk s).imgH = s.imgH := rfl
@[simp] theorem advanceChunk_enc (s : State) : (advanceChunk s).enc = if s.chunk + 1#4 = s.nchunk then .done else .fill := rfl
@[simp] theorem advanceChunk_seq (s : State) : (advanceChunk s).seq = s.seq := rfl
@[simp] theorem advanceChunk_mode (s : State) : (advanceChunk s).mode = s.mode := rfl
@[simp] theorem advanceChunk_err (s : State) : (advanceChunk s).err = s.err := rfl
@[simp] theorem advanceChunk_tr (s : State) : (advanceChunk s).tr = s.tr := rfl
@[simp] theorem advanceChunk_tc (s : State) : (advanceChunk s).tc = s.tc := rfl
@[simp] theorem advanceChunk_y (s : State) : (advanceChunk s).y = s.y := rfl
@[simp] theorem advanceChunk_x (s : State) : (advanceChunk s).x = s.x := rfl
@[simp] theorem advanceChunk_chunk (s : State) : (advanceChunk s).chunk = s.chunk + 1#4 := rfl
@[simp] theorem advanceChunk_nchunk (s : State) : (advanceChunk s).nchunk = s.nchunk := rfl
@[simp] theorem advanceChunk_rpt (s : State) : (advanceChunk s).rpt = s.rpt := rfl
@[simp] theorem advanceChunk_cks (s : State) : (advanceChunk s).cks = s.cks := rfl
@[simp] theorem advanceChunk_rsp1 (s : State) : (advanceChunk s).rsp1 = s.rsp1 := rfl
@[simp] theorem advanceChunk_rsp2 (s : State) : (advanceChunk s).rsp2 = s.rsp2 := rfl
@[simp] theorem advanceChunk_lo (s : State) : (advanceChunk s).lo = s.lo := rfl
@[simp] theorem advanceChunk_hi (s : State) : (advanceChunk s).hi = s.hi := rfl
@[simp] theorem advanceChunk_cb (s : State) : (advanceChunk s).cb = [] := rfl
@[simp] theorem advanceChunk_packets (s : State) : (advanceChunk s).packets = s.packets := rfl
@[simp] theorem advanceChunk_port (s : State) : (advanceChunk s).port = s.port := rfl
@[simp] theorem advanceChunk_xferAnswers (s : State) : (advanceChunk s).xferAnswers = s.xferAnswers := rfl
@[simp] theorem advanceChunk_putAnswers (s : State) : (advanceChunk s).putAnswers = s.putAnswers := rfl
@[simp] theorem advanceChunk_stuck (s : State) : (advanceChunk s).stuck = s.stuck := rfl
@[simp] theorem advanceChunk_hist (s : State) : (advanceChunk s).hist = s.hist := rfl
@[simp] theorem advanceChunk_reads (s : State) : (advanceChunk s).reads = s.reads := rfl

/-! ## One REPORT (42_checksum_framer.md R150) writes `RPT` and `SEQ`. -/

@[simp] theorem countReport_imgW (s : State) : (countReport s).imgW = s.imgW := rfl
@[simp] theorem countReport_imgH (s : State) : (countReport s).imgH = s.imgH := rfl
@[simp] theorem countReport_enc (s : State) : (countReport s).enc = s.enc := rfl
@[simp] theorem countReport_seq (s : State) : (countReport s).seq = if (s.rpt + 1#4).toNat = 10 then .done else s.seq := rfl
@[simp] theorem countReport_mode (s : State) : (countReport s).mode = s.mode := rfl
@[simp] theorem countReport_err (s : State) : (countReport s).err = s.err := rfl
@[simp] theorem countReport_tr (s : State) : (countReport s).tr = s.tr := rfl
@[simp] theorem countReport_tc (s : State) : (countReport s).tc = s.tc := rfl
@[simp] theorem countReport_y (s : State) : (countReport s).y = s.y := rfl
@[simp] theorem countReport_x (s : State) : (countReport s).x = s.x := rfl
@[simp] theorem countReport_chunk (s : State) : (countReport s).chunk = s.chunk := rfl
@[simp] theorem countReport_nchunk (s : State) : (countReport s).nchunk = s.nchunk := rfl
@[simp] theorem countReport_rpt (s : State) : (countReport s).rpt = s.rpt + 1#4 := rfl
@[simp] theorem countReport_cks (s : State) : (countReport s).cks = s.cks := rfl
@[simp] theorem countReport_rsp1 (s : State) : (countReport s).rsp1 = s.rsp1 := rfl
@[simp] theorem countReport_rsp2 (s : State) : (countReport s).rsp2 = s.rsp2 := rfl
@[simp] theorem countReport_lo (s : State) : (countReport s).lo = s.lo := rfl
@[simp] theorem countReport_hi (s : State) : (countReport s).hi = s.hi := rfl
@[simp] theorem countReport_cb (s : State) : (countReport s).cb = s.cb := rfl
@[simp] theorem countReport_packets (s : State) : (countReport s).packets = s.packets := rfl
@[simp] theorem countReport_port (s : State) : (countReport s).port = s.port := rfl
@[simp] theorem countReport_xferAnswers (s : State) : (countReport s).xferAnswers = s.xferAnswers := rfl
@[simp] theorem countReport_putAnswers (s : State) : (countReport s).putAnswers = s.putAnswers := rfl
@[simp] theorem countReport_stuck (s : State) : (countReport s).stuck = s.stuck := rfl
@[simp] theorem countReport_hist (s : State) : (countReport s).hist = s.hist := rfl
@[simp] theorem countReport_reads (s : State) : (countReport s).reads = s.reads := rfl

/-! ## A successful START (40_config_control.md R103). -/

@[simp] theorem startedJob_imgW (d : Mode) (s : State) : (startedJob d s).imgW = s.imgW := rfl
@[simp] theorem startedJob_imgH (d : Mode) (s : State) : (startedJob d s).imgH = s.imgH := rfl
@[simp] theorem startedJob_enc (d : Mode) (s : State) : (startedJob d s).enc = .fill := rfl
@[simp] theorem startedJob_seq (d : Mode) (s : State) : (startedJob d s).seq = (match d with | .print => .ready | .dump => .idle) := rfl
@[simp] theorem startedJob_mode (d : Mode) (s : State) : (startedJob d s).mode = d := rfl
@[simp] theorem startedJob_err (d : Mode) (s : State) : (startedJob d s).err = s.err := rfl
@[simp] theorem startedJob_tr (d : Mode) (s : State) : (startedJob d s).tr = 0#5 := rfl
@[simp] theorem startedJob_tc (d : Mode) (s : State) : (startedJob d s).tc = 0#5 := rfl
@[simp] theorem startedJob_y (d : Mode) (s : State) : (startedJob d s).y = 0#3 := rfl
@[simp] theorem startedJob_x (d : Mode) (s : State) : (startedJob d s).x = 0#3 := rfl
@[simp] theorem startedJob_chunk (d : Mode) (s : State) : (startedJob d s).chunk = 0#4 := rfl
@[simp] theorem startedJob_nchunk (d : Mode) (s : State) : (startedJob d s).nchunk = BitVec.ofNat 4 (s.imgH.toNat / 16) := rfl
@[simp] theorem startedJob_rpt (d : Mode) (s : State) : (startedJob d s).rpt = 0#4 := rfl
@[simp] theorem startedJob_cks (d : Mode) (s : State) : (startedJob d s).cks = s.cks := rfl
@[simp] theorem startedJob_rsp1 (d : Mode) (s : State) : (startedJob d s).rsp1 = s.rsp1 := rfl
@[simp] theorem startedJob_rsp2 (d : Mode) (s : State) : (startedJob d s).rsp2 = s.rsp2 := rfl
@[simp] theorem startedJob_lo (d : Mode) (s : State) : (startedJob d s).lo = s.lo := rfl
@[simp] theorem startedJob_hi (d : Mode) (s : State) : (startedJob d s).hi = s.hi := rfl
@[simp] theorem startedJob_cb (d : Mode) (s : State) : (startedJob d s).cb = [] := rfl
@[simp] theorem startedJob_packets (d : Mode) (s : State) : (startedJob d s).packets = s.packets := rfl
@[simp] theorem startedJob_port (d : Mode) (s : State) : (startedJob d s).port = s.port := rfl
@[simp] theorem startedJob_xferAnswers (d : Mode) (s : State) : (startedJob d s).xferAnswers = s.xferAnswers := rfl
@[simp] theorem startedJob_putAnswers (d : Mode) (s : State) : (startedJob d s).putAnswers = s.putAnswers := rfl
@[simp] theorem startedJob_stuck (d : Mode) (s : State) : (startedJob d s).stuck = s.stuck := rfl
@[simp] theorem startedJob_hist (d : Mode) (s : State) : (startedJob d s).hist = s.hist := rfl
@[simp] theorem startedJob_reads (d : Mode) (s : State) : (startedJob d s).reads = s.reads := rfl

/-! ## `Advance` (41_tile_encoder.md R125) writes `X`, `Y`, `TC`, `TR`, `ENC`. -/

@[simp] theorem advance_imgW (s : State) : (advance s).imgW = s.imgW := by
  unfold advance; split_ifs <;> rfl
@[simp] theorem advance_imgH (s : State) : (advance s).imgH = s.imgH := by
  unfold advance; split_ifs <;> rfl
@[simp] theorem advance_seq (s : State) : (advance s).seq = s.seq := by
  unfold advance; split_ifs <;> rfl
@[simp] theorem advance_mode (s : State) : (advance s).mode = s.mode := by
  unfold advance; split_ifs <;> rfl
@[simp] theorem advance_err (s : State) : (advance s).err = s.err := by
  unfold advance; split_ifs <;> rfl
@[simp] theorem advance_x (s : State) : (advance s).x = 0#3 := by
  unfold advance; split_ifs <;> rfl
@[simp] theorem advance_chunk (s : State) : (advance s).chunk = s.chunk := by
  unfold advance; split_ifs <;> rfl
@[simp] theorem advance_nchunk (s : State) : (advance s).nchunk = s.nchunk := by
  unfold advance; split_ifs <;> rfl
@[simp] theorem advance_rpt (s : State) : (advance s).rpt = s.rpt := by
  unfold advance; split_ifs <;> rfl
@[simp] theorem advance_cks (s : State) : (advance s).cks = s.cks := by
  unfold advance; split_ifs <;> rfl
@[simp] theorem advance_rsp1 (s : State) : (advance s).rsp1 = s.rsp1 := by
  unfold advance; split_ifs <;> rfl
@[simp] theorem advance_rsp2 (s : State) : (advance s).rsp2 = s.rsp2 := by
  unfold advance; split_ifs <;> rfl
@[simp] theorem advance_lo (s : State) : (advance s).lo = s.lo := by
  unfold advance; split_ifs <;> rfl
@[simp] theorem advance_hi (s : State) : (advance s).hi = s.hi := by
  unfold advance; split_ifs <;> rfl
@[simp] theorem advance_cb (s : State) : (advance s).cb = s.cb := by
  unfold advance; split_ifs <;> rfl
@[simp] theorem advance_packets (s : State) : (advance s).packets = s.packets := by
  unfold advance; split_ifs <;> rfl
@[simp] theorem advance_port (s : State) : (advance s).port = s.port := by
  unfold advance; split_ifs <;> rfl
@[simp] theorem advance_xferAnswers (s : State) : (advance s).xferAnswers = s.xferAnswers := by
  unfold advance; split_ifs <;> rfl
@[simp] theorem advance_putAnswers (s : State) : (advance s).putAnswers = s.putAnswers := by
  unfold advance; split_ifs <;> rfl
@[simp] theorem advance_stuck (s : State) : (advance s).stuck = s.stuck := by
  unfold advance; split_ifs <;> rfl
@[simp] theorem advance_hist (s : State) : (advance s).hist = s.hist := by
  unfold advance; split_ifs <;> rfl
@[simp] theorem advance_reads (s : State) : (advance s).reads = s.reads := by
  unfold advance; split_ifs <;> rfl

end Sys2Proof.Machine
end

