-- ==== Sys2Proof/Laws/Ops.lean ====
section
/-! SUPPORT. One lemma per shared operation that says everything it can do: the prologue, statement order, the frame
emission, the dump, the commit of a pixel row, the advance of the place, a step. -/

namespace Sys2Proof.Laws

open Sys2Proof.Machine Sys2Proof.Safety

/-! ## Order and prologue -/

@[simp] theorem andThen_next (s : State) (k : State → Result) : Result.andThen (.next s) k = k s := rfl

theorem raise_of_noError (e : ErrCode) (s : State) (h : s.err = .noError) : raise e s = { s with err := e } := by
  simp [raise, h]

theorem raise_of_error (e : ErrCode) (s : State) (h : s.err ≠ .noError) : raise e s = s := by
  simp [raise, h]

theorem prologue_of_error (pre : Bool) (body : State → Result) (s : State) (h : s.err ≠ .noError) :
    prologue pre body s = .next s := by
  simp [prologue, h]

theorem prologue_of_not_pre (pre : Bool) (body : State → Result) (s : State) (h : s.err = .noError)
    (hp : pre = false) : prologue pre body s = .next { s with err := .sequenceError } := by
  simp [prologue, h, hp, raise]

theorem prologue_of_pre (pre : Bool) (body : State → Result) (s : State) (h : s.err = .noError)
    (hp : pre = true) : prologue pre body s = body s := by
  simp [prologue, h, hp]

/-- Everything the prologue can do (60_exceptions.md R173). -/
theorem prologue_cases (pre : Bool) (body : State → Result) (s : State) :
    (s.err ≠ .noError ∧ prologue pre body s = .next s)
      ∨ (s.err = .noError ∧ pre = false ∧ prologue pre body s = .next { s with err := .sequenceError })
      ∨ (s.err = .noError ∧ pre = true ∧ prologue pre body s = body s) := by
  by_cases h : s.err = .noError
  · cases hp : pre
    · exact .inr (.inl ⟨h, rfl, prologue_of_not_pre _ _ _ h rfl⟩)
    · exact .inr (.inr ⟨h, rfl, prologue_of_pre _ _ _ h rfl⟩)
  · exact .inl ⟨h, prologue_of_error _ _ _ h⟩

/-! ## The frame emission -/

/-- An emission whose bytes are all answered (42_checksum_framer.md R142 to R144). -/
theorem emitFrame_done (cmd comp : Byte) (pl : List Byte) (onDone : State → State) (s : State) (rs : List Byte)
    (rest : List XferAnswer) (ha : s.xferAnswers = rs.map .ok ++ rest) (hl : rs.length = pl.length + 10) :
    emitFrame cmd comp pl onDone s = .next (onDone (afterFrame cmd comp pl rs rest s)) := by
  have h := emitSlots_done (frameSlots cmd comp pl) 0 rs rest (by simp [hl])
  simp only [emitFrame, ha, h, slotsSum_frame, slotBytes_frame, afterFrame]

/-- The places of a frame around place `i`. -/
theorem frameSlots_split (cmd comp : Byte) (pl : List Byte) (i : Nat) (h : i < pl.length + 10) :
    ∃ slot, frameSlots cmd comp pl
        = (frameSlots cmd comp pl).take i ++ slot :: (frameSlots cmd comp pl).drop (i + 1)
      ∧ slotBytes ((frameSlots cmd comp pl).take i) 0 = (frameBytes cmd comp pl).take i
      ∧ slotByte (slotsSum ((frameSlots cmd comp pl).take i) 0) slot = (frameBytes cmd comp pl).getD i 0
      ∧ (frameSlots cmd comp pl).take i ++ [slot] = (frameSlots cmd comp pl).take (i + 1) := by
  have hi : i < (frameSlots cmd comp pl).length := by simpa using h
  refine ⟨(frameSlots cmd comp pl)[i], by rw [← List.drop_eq_getElem_cons hi, List.take_append_drop], ?_, ?_,
    (List.take_succ_eq_append_getElem hi).symm⟩
  · rw [← slotBytes_frame]
    conv_rhs => rw [← List.take_append_drop i (frameSlots cmd comp pl), slotBytes_append]
    rw [List.take_left']
    simp [Nat.le_of_lt h]
  · rw [← slotBytes_frame]
    conv_rhs => rw [← List.take_append_drop i (frameSlots cmd comp pl), slotBytes_append,
      List.drop_eq_getElem_cons hi]
    simp [slotBytes, Nat.le_of_lt h]

theorem slotsSum_tail (cks : Half) (k : Nat) :
    slotsSum (([.cksLo, .cksHi, .plain 0, .plain 0] : List Slot).take k) cks = cks := by
  match k with
  | 0 | 1 | 2 | 3 => rfl
  | k + 4 => rw [List.take_of_length_le (by simp)]; rfl

/-- The accumulator when place `i` has been generated is the partial sum of R145. -/
theorem slotsSum_frame_take (cmd comp : Byte) (pl : List Byte) (i : Nat) :
    slotsSum ((frameSlots cmd comp pl).take (i + 1)) 0 = BitVec.ofNat 16 (partialSum cmd comp pl i) := by
  have hS : (summedBytes cmd comp pl).length = pl.length + 4 := by simp [summedBytes]
  have hF : ((frameBytes cmd comp pl).take (min i (5 + pl.length) + 1)).drop 2
      = (summedBytes cmd comp pl).take (min i (5 + pl.length) - 1) := by
    rw [List.drop_take, frameBytes, List.append_assoc, List.drop_left' (by rfl),
      List.take_append_of_le_length (by omega)]
    congr 1
  rw [partialSum, hF, frameSlots_eq, List.append_assoc]
  apply BitVec.eq_of_toNat_eq
  match i with
  | 0 => simp [slotSum]
  | i + 1 =>
    rw [List.take_append, List.take_of_length_le (by simp), slotsSum_append, List.take_append, slotsSum_append,
      slotsSum_tail, ← List.map_take, slotsSum_summed]
    have hk : (summedBytes cmd comp pl).take (min (i + 1) (5 + pl.length) - 1)
        = (summedBytes cmd comp pl).take (i + 1 + 1 - 2) := by
      rcases Nat.le_total (i + 1) (5 + pl.length) with h | h
      · congr 1; omega
      · rw [List.take_of_length_le (by omega), List.take_of_length_le (by omega)]
    rw [hk]
    simp [slotSum]

/-- An emission stopped at byte `rs.length`, the bytes before it answered (42_checksum_framer.md R145; 70 R199). -/
theorem emitFrame_stop (cmd comp : Byte) (pl : List Byte) (onDone : State → State) (s : State) (rs : List Byte)
    (rest : List XferAnswer) (hl : rs.length < pl.length + 10) :
    (s.xferAnswers = rs.map .ok ++ .wfail :: rest →
      emitFrame cmd comp pl onDone s = .next (raise .transportFailure { s with
        cks := BitVec.ofNat 16 (partialSum cmd comp pl rs.length)
        hist := s.hist ++ exchanges ((frameBytes cmd comp pl).take rs.length) rs ++ [.fail .w]
        xferAnswers := rest }))
    ∧ (s.xferAnswers = rs.map .ok ++ .rfail :: rest →
      emitFrame cmd comp pl onDone s = .next (raise .transportFailure { s with
        cks := BitVec.ofNat 16 (partialSum cmd comp pl rs.length)
        hist := s.hist ++ exchanges ((frameBytes cmd comp pl).take rs.length) rs
          ++ [.tx ((frameBytes cmd comp pl).getD rs.length 0), .fail .r]
        xferAnswers := rest }))
    ∧ (s.xferAnswers = rs.map .ok ++ .never :: rest ∨ (s.xferAnswers = rs.map .ok ∧ rest = []) →
      emitFrame cmd comp pl onDone s = .next { s with
        stuck := true
        cks := BitVec.ofNat 16 (partialSum cmd comp pl rs.length)
        hist := s.hist ++ exchanges ((frameBytes cmd comp pl).take rs.length) rs
        xferAnswers := rest }) := by
  obtain ⟨slot, hs, hb, hc, ht⟩ := frameSlots_split cmd comp pl rs.length hl
  have hlen : rs.length = ((frameSlots cmd comp pl).take rs.length).length := by simp; omega
  obtain ⟨h1, h2, h3, h4⟩ := emitSlots_stop _ ((frameSlots cmd comp pl).drop (rs.length + 1)) slot 0 rs rest hlen
  rw [ht, slotsSum_frame_take, hb, ← hs] at h1 h2 h3 h4
  rw [hc] at h2
  refine ⟨fun ha => ?_, fun ha => ?_, fun ha => ?_⟩
  · simp only [emitFrame, ha, h1, List.append_assoc]
  · simp only [emitFrame, ha, h2, List.append_assoc]
  · rcases ha with ha | ⟨ha, rfl⟩
    · simp only [emitFrame, ha, h3]
    · simp only [emitFrame, ha, h4]

/-- Everything a frame emission can do: it is done, or it fails at a byte, or a byte is never answered; in the last
two cases only `ERR` or the stuck mark, `CKS`, the history and the answers differ. -/
theorem emitFrame_cases (cmd comp : Byte) (pl : List Byte) (onDone : State → State) (s : State) :
    (∃ (rs : List Byte) (rest : List XferAnswer), rs.length = pl.length + 10 ∧ s.xferAnswers = rs.map .ok ++ rest
        ∧ emitFrame cmd comp pl onDone s = .next (onDone (afterFrame cmd comp pl rs rest s)))
      ∨ (∃ (cks : Half) (evs : List Event) (rest : List XferAnswer),
          emitFrame cmd comp pl onDone s
            = .next (raise .transportFailure { s with cks := cks, hist := s.hist ++ evs, xferAnswers := rest }))
      ∨ (∃ (cks : Half) (evs : List Event) (rest : List XferAnswer),
          emitFrame cmd comp pl onDone s
            = .next { s with stuck := true, cks := cks, hist := s.hist ++ evs, xferAnswers := rest }) := by
  rcases emitSlots_ending (frameSlots cmd comp pl) 0 s.xferAnswers with
    ⟨rs, rest, h1, h2, -⟩ | ⟨rs, rest, h1, h2, -⟩ | ⟨rs, rest, h1, h2, -⟩
  · rw [frameSlots_length] at h1
    exact .inl ⟨rs, rest, h1, h2, emitFrame_done _ _ _ _ _ _ _ h2 h1⟩
  · rw [frameSlots_length] at h1
    obtain ⟨hw, hr, -⟩ := emitFrame_stop cmd comp pl onDone s rs rest h1
    rcases h2 with h2 | h2
    · exact .inr (.inl ⟨_, _, rest, by rw [hw h2, List.append_assoc]⟩)
    · exact .inr (.inl ⟨_, _, rest, by rw [hr h2, List.append_assoc]⟩)
  · rw [frameSlots_length] at h1
    rcases h2 with h2 | h2
    · obtain ⟨-, -, hn⟩ := emitFrame_stop cmd comp pl onDone s rs rest h1
      exact .inr (.inr ⟨_, _, rest, hn (.inl h2)⟩)
    · obtain ⟨-, -, hn⟩ := emitFrame_stop cmd comp pl onDone s rs [] h1
      exact .inr (.inr ⟨_, _, [], hn (.inr ⟨h2, rfl⟩)⟩)

/-! ## The dump -/

/-- A dump whose bytes are all taken (42_checksum_framer.md R153). -/
theorem dumpChunk_done (onDone : State → State) (s : State) (rest : List PutAnswer)
    (ha : s.putAnswers = List.replicate 640 .ok ++ rest) :
    dumpChunk onDone s = .next (onDone { s with
      hist := s.hist ++ (chunkBytesOf s).map .tx, putAnswers := rest }) := by
  have h := putBytes_done (chunkBytesOf s) rest
  rw [chunkBytesOf_length] at h
  unfold dumpChunk
  rw [ha, h]

/-- A dump stopped at byte `a`, the bytes before it taken (R153; 70 R199). -/
theorem dumpChunk_stop (onDone : State → State) (s : State) (a : Nat) (rest : List PutAnswer) (hl : a < 640) :
    (s.putAnswers = List.replicate a .ok ++ .wfail :: rest →
      dumpChunk onDone s = .next (raise .transportFailure { s with
        hist := s.hist ++ ((chunkBytesOf s).take a).map .tx ++ [.fail .w], putAnswers := rest }))
    ∧ (s.putAnswers = List.replicate a .ok ++ .never :: rest ∨ (s.putAnswers = List.replicate a .ok ∧ rest = []) →
      dumpChunk onDone s = .next { s with
        stuck := true, hist := s.hist ++ ((chunkBytesOf s).take a).map .tx, putAnswers := rest }) := by
  have hi : a < (chunkBytesOf s).length := by simpa using hl
  have hs : (chunkBytesOf s).take a ++ (chunkBytesOf s)[a] :: (chunkBytesOf s).drop (a + 1) = chunkBytesOf s := by
    rw [← List.drop_eq_getElem_cons hi, List.take_append_drop]
  have hlen : ((chunkBytesOf s).take a).length = a := by simp; omega
  obtain ⟨h1, h2, h3⟩ := putBytes_stop ((chunkBytesOf s).take a) ((chunkBytesOf s).drop (a + 1)) (chunkBytesOf s)[a] rest
  rw [hs, hlen] at h1 h2 h3
  refine ⟨fun ha => ?_, fun ha => ?_⟩
  · unfold dumpChunk
    rw [ha, h1]
    simp only [List.append_assoc]
  · unfold dumpChunk
    rcases ha with ha | ⟨ha, rfl⟩
    · rw [ha, h2]
    · rw [ha, h3]

/-- Everything a dump can do. -/
theorem dumpChunk_cases (onDone : State → State) (s : State) :
    (∃ rest, s.putAnswers = List.replicate 640 .ok ++ rest
        ∧ dumpChunk onDone s = .next (onDone { s with
            hist := s.hist ++ (chunkBytesOf s).map .tx, putAnswers := rest }))
      ∨ (∃ (evs : List Event) (rest : List PutAnswer),
          dumpChunk onDone s
            = .next (raise .transportFailure { s with hist := s.hist ++ evs, putAnswers := rest }))
      ∨ (∃ (evs : List Event) (rest : List PutAnswer),
          dumpChunk onDone s = .next { s with stuck := true, hist := s.hist ++ evs, putAnswers := rest }) := by
  rcases putBytes_ending (chunkBytesOf s) s.putAnswers with ⟨rest, h1, -⟩ | ⟨k, rest, h1, h2, -⟩ | ⟨k, rest, h1, h2, -⟩
  · rw [chunkBytesOf_length] at h1
    exact .inl ⟨rest, h1, dumpChunk_done _ _ _ h1⟩
  · rw [chunkBytesOf_length] at h1
    exact .inr (.inl ⟨_, rest, by rw [(dumpChunk_stop onDone s k rest h1).1 h2, List.append_assoc]⟩)
  · rw [chunkBytesOf_length] at h1
    rcases h2 with h2 | h2
    · exact .inr (.inr ⟨_, rest, (dumpChunk_stop onDone s k rest h1).2 (.inl h2)⟩)
    · exact .inr (.inr ⟨_, [], (dumpChunk_stop onDone s k [] h1).2 (.inr ⟨h2, rfl⟩)⟩)

/-! ## The pixel path -/

theorem shiftBit_toNat (r : Byte) (b : Bool) : (shiftBit r b).toNat = (2 * r.toNat + b.toNat) % 256 := by
  revert r b; decide

@[simp] theorem shiftInAll_nil (s : State) : shiftInAll [] s = s := rfl

@[simp] theorem shiftInAll_cons (p : Pixel) (ps : List Pixel) (s : State) :
    shiftInAll (p :: ps) s = shiftInAll ps (shiftIn p s) := rfl

/-- Shifting pixels in writes `LO` and `HI` only. -/
theorem shiftInAll_frame (ps : List Pixel) (s : State) :
    ∃ lo hi, shiftInAll ps s = { s with lo := lo, hi := hi } := by
  induction ps generalizing s with
  | nil => exact ⟨s.lo, s.hi, rfl⟩
  | cons p ps ih =>
    obtain ⟨lo, hi, h⟩ := ih (shiftIn p s)
    exact ⟨lo, hi, by rw [shiftInAll_cons, h]; rfl⟩

/-- The address of a pixel row's low-plane byte exists exactly with its tile column (20_memory.md R67). -/
theorem rowAddress_lt (s : State) (h : s.tc.toNat ≤ 19) : rowAddress s + 1 < 640 := by
  have := s.y.isLt
  have := Nat.mod_lt s.tr.toNat (show 0 < 2 by decide)
  simp only [rowAddress, off, Config.trowBytes, Config.tileBytes]
  omega

/-- A commit in a tile column that exists writes the two plane bytes (41_tile_encoder.md R124). -/
theorem commitRow_of_column (s : State) (h : s.tc.toNat ≤ 19) :
    commitRow s = { s with cb := (s.cb.write (rowAddress s) s.lo).write (rowAddress s + 1) s.hi } := by
  have := rowAddress_lt s h
  simp [commitRow, memWrite, show rowAddress s < 640 by omega, show rowAddress s + 1 < 640 by omega]

/-- Everything a commit can do: it writes the two plane bytes, both at addresses that exist, or neither address exists
and it changes nothing. -/
theorem commitRow_cases (s : State) :
    (rowAddress s + 1 < 640
        ∧ commitRow s = { s with cb := (s.cb.write (rowAddress s) s.lo).write (rowAddress s + 1) s.hi })
      ∨ (640 ≤ rowAddress s ∧ commitRow s = s) := by
  have he : rowAddress s % 2 = 0 := by simp only [rowAddress, off, Config.trowBytes, Config.tileBytes]; omega
  by_cases h : rowAddress s < 640
  · exact .inl ⟨by omega, by simp [commitRow, memWrite, h, show rowAddress s + 1 < 640 by omega]⟩
  · exact .inr ⟨by omega, by simp [commitRow, memWrite, h, show ¬ rowAddress s + 1 < 640 by omega]⟩

/-- `Advance` does what R125 says, and nothing else (`advance_<field>` of Laws/State.lean). -/
theorem advance_advanced (s : State) : Advanced s (advance s) := by
  have := s.y.isLt
  refine ⟨advance_x s, ?_⟩
  by_cases hy : s.y.toNat < 7
  · exact .inl (by simp [advance, hy])
  · by_cases hc : s.tc.toNat < tileColumns s - 1
    · refine .inr (.inl ⟨by omega, by simp only [tileColumns, Config.tile] at hc; omega, ?_⟩)
      simp [advance, hy, hc]
    · refine .inr (.inr ⟨by omega, by simp only [tileColumns, Config.tile] at hc; omega, ?_⟩)
      simp [advance, hy, hc]

end Sys2Proof.Laws
end

