-- ==== Sys2Proof/Laws/Exec.lean ====
section
/-! SUPPORT. Each operation as the prologue over its body, and everything a step can do. -/

namespace Sys2Proof.Laws

open Sys2Proof.Machine Sys2Proof.Safety

theorem exec_rst (s : State) : exec .rst s = .next (resetBlock s) := rfl

theorem exec_setw (v : Byte) (s : State) :
    exec (.setw v) s = prologue (decide (s.enc = .idle)) (fun s => .next { s with imgW := v }) s := rfl

theorem exec_seth (v : Byte) (s : State) :
    exec (.seth v) s = prologue (decide (s.enc = .idle)) (fun s => .next { s with imgH := v }) s := rfl

theorem exec_start (d : Mode) (s : State) :
    exec (.start d) s = prologue (decide (s.enc = .idle)) (fun s =>
      if badDimensions s.imgW s.imgH then .next (raise .invalidDimensions s)
      else if tooManyChunks s.imgH then .next (raise .unsupportedChunkCount s)
      else .next (startedJob d s)) s := rfl

theorem exec_pix (p : Pixel) (s : State) :
    exec (.pix p) s = prologue (decide (s.enc = .fill)) (fun s =>
      if s.x.toNat < 7 then .next { shiftIn p s with x := s.x + 1#3 }
      else .next (advance (commitRow (shiftIn p s)))) s := rfl

theorem exec_row (p0 p1 p2 p3 p4 p5 p6 p7 : Pixel) (s : State) :
    exec (.row p0 p1 p2 p3 p4 p5 p6 p7) s = prologue (decide (s.enc = .fill) && decide (s.x = 0#3)) (fun s =>
      .next (advance (commitRow (shiftInAll [p0, p1, p2, p3, p4, p5, p6, p7] s)))) s := rfl

theorem exec_frameInit (s : State) :
    exec .frameInit s = prologue (decide (s.seq = .ready)) (fun s =>
      emitFrame s.packets.pInit.cmd s.packets.pInit.comp s.packets.pInit.payload (fun t => { t with seq := .data }) s) s :=
  rfl

theorem exec_frameData (s : State) :
    exec .frameData s = prologue (decide (s.seq = .data) && decide (s.enc = .full)) (fun s =>
      emitFrame 0x04 0x00 (chunkBytesOf s) advanceChunk s) s := rfl

theorem exec_frameEmpty (s : State) :
    exec .frameEmpty s = prologue (decide (s.seq = .data) && decide (s.enc = .done)) (fun s =>
      emitFrame s.packets.pEmpty.cmd s.packets.pEmpty.comp s.packets.pEmpty.payload
        (fun t => { t with seq := .emptied }) s) s := rfl

theorem exec_framePrint (s : State) :
    exec .framePrint s = prologue (decide (s.seq = .emptied)) (fun s =>
      emitFrame s.packets.pPrint.cmd s.packets.pPrint.comp s.packets.pPrint.payload
        (fun t => { t with seq := .report, rpt := 0#4 }) s) s := rfl

theorem exec_frameReport (s : State) :
    exec .frameReport s = prologue (decide (s.seq = .report)) (fun s =>
      emitFrame s.packets.pReport.cmd s.packets.pReport.comp s.packets.pReport.payload countReport s) s := rfl

theorem exec_dump (s : State) :
    exec .dump s = prologue (decide (s.mode = .dump) && decide (s.enc = .full)) (fun s => dumpChunk advanceChunk s) s :=
  rfl

theorem exec_rd (n : RegName) (s : State) : exec (.rd n) s = .next (returnRead (readRegister n s) s) := rfl

theorem exec_rdcb (a : BitVec 10) (s : State) :
    exec (.rdcb a) s
      = if a.toNat < 640 then .next (returnRead ((memRead a.toNat s).setWidth 16) s) else illegalWord s := rfl

/-- The PIX that completes a row in a tile column that exists (41_tile_encoder.md R126, R124, R125). -/
theorem exec_pix_completes (p : Pixel) (s : State) (h : s.err = .noError) (he : s.enc = .fill) (hx : ¬ s.x.toNat < 7)
    (ht : s.tc.toNat ≤ 19) :
    exec (.pix p) s = .next (advance { s with
      lo := shiftBit s.lo (colourCode p).1
      hi := shiftBit s.hi (colourCode p).2
      cb := (s.cb.write (rowAddress s) (shiftBit s.lo (colourCode p).1)).write (rowAddress s + 1)
        (shiftBit s.hi (colourCode p).2) }) := by
  rw [exec_pix, prologue_of_pre _ _ _ h (by simpa using he), if_neg hx, commitRow_of_column (shiftIn p s) ht]
  rfl

/-- A ROW in a tile column that exists (41_tile_encoder.md R127, R124, R125). -/
theorem exec_row_completes (p0 p1 p2 p3 p4 p5 p6 p7 : Pixel) (s : State) (h : s.err = .noError) (he : s.enc = .fill)
    (hx : s.x = 0#3) (ht : s.tc.toNat ≤ 19) :
    ∃ lo hi, shiftInAll [p0, p1, p2, p3, p4, p5, p6, p7] s = { s with lo := lo, hi := hi }
      ∧ exec (.row p0 p1 p2 p3 p4 p5 p6 p7) s = .next (advance { s with
          lo := lo, hi := hi, cb := (s.cb.write (rowAddress s) lo).write (rowAddress s + 1) hi }) := by
  obtain ⟨lo, hi, hs⟩ := shiftInAll_frame [p0, p1, p2, p3, p4, p5, p6, p7] s
  refine ⟨lo, hi, hs, ?_⟩
  rw [exec_row, prologue_of_pre _ _ _ h (by simp [he, hx])]
  simp only [hs]
  rw [commitRow_of_column { s with lo := lo, hi := hi } ht]
  rfl

/-- Operations one after the other (20_memory.md R70). -/
theorem runAll_append (is js : List Instr) (s : State) :
    runAll (is ++ js) s = (runAll is s).andThen (runAll js) := by
  have h : ∀ (js : List Instr) (r : Result), js.foldl (fun r i => r.andThen (exec i)) r = r.andThen (runAll js) := by
    intro js
    induction js with
    | nil => intro r; cases r <;> rfl
    | cons j js ih =>
      intro r
      rw [List.foldl_cons, ih]
      cases r with
      | next s => simp only [Result.andThen]; rw [runAll, List.foldl_cons, ih]; rfl
      | fault f => rfl
      | refused f => rfl
  rw [runAll, List.foldl_append, h]
  rfl

@[simp] theorem runAll_nil (s : State) : runAll [] s = .next s := rfl

theorem runAll_cons (i : Instr) (is : List Instr) (s : State) : runAll (i :: is) s = Result.andThen (exec i s) (runAll is) :=
  runAll_append [i] is s

/-- Everything a step can do: wait, be reset, take no word while stuck, execute the decoded operation, or raise the
error of an illegal word. -/
theorem step_cases (s : State) :
    (s.port = [] ∧ step s = .next s)
      ∨ (∃ rest, s.port = .reset :: rest ∧ step s = .next (externalReset { s with port := rest }))
      ∨ (∃ w rest, s.port = .word w :: rest ∧ s.stuck = true ∧ step s = .next s)
      ∨ (∃ w rest i, s.port = .word w :: rest ∧ s.stuck = false ∧ decodeWord w = .legal i
          ∧ step s = exec i { s with port := rest })
      ∨ (∃ w rest e, s.port = .word w :: rest ∧ s.stuck = false ∧ decodeWord w = .illegal e
          ∧ step s = .next (raise .illegalOperation { s with port := rest })) := by
  unfold step takeInput
  match hp : s.port with
  | [] => exact .inl ⟨rfl, rfl⟩
  | .reset :: rest => exact .inr (.inl ⟨rest, rfl, rfl⟩)
  | .word w :: rest =>
    cases hs : s.stuck
    · cases hd : decodeWord w with
      | legal i => exact .inr (.inr (.inr (.inl ⟨w, rest, i, rfl, rfl, hd, by simp [execWord, hd]⟩)))
      | illegal e => exact .inr (.inr (.inr (.inr ⟨w, rest, e, rfl, rfl, hd, by simp [execWord, hd, illegalWord]⟩)))
    · exact .inr (.inr (.inl ⟨w, rest, rfl, rfl, rfl⟩))

end Sys2Proof.Laws
end

