-- ==== Sys2Proof/Laws/Cases.lean ====
section
/-! SUPPORT. Everything an operation can do, said once: if `exec i s` answers `next t`, then `Does i s t`. -/

namespace Sys2Proof.Laws

open Sys2Proof.Machine Sys2Proof.Safety

/-- What a FRAME operation does once its frame is sent (42_checksum_framer.md R146 to R150). -/
def sentFrame : Instr → State → State
  | .frameInit, t => { t with seq := .data }
  | .frameData, t => advanceChunk t
  | .frameEmpty, t => { t with seq := .emptied }
  | .framePrint, t => { t with seq := .report, rpt := 0#4 }
  | .frameReport, t => countReport t
  | .rst, t | .setw _, t | .seth _, t | .start _, t | .pix _, t | .row _ _ _ _ _ _ _ _, t => t
  | .dump, t | .rd _, t | .rdcb _, t => t

/-- `i` is a PIX or ROW that completes a pixel row, with `lo` and `hi` as its plane bytes. -/
def CompletesRow (i : Instr) (lo hi : Byte) (s : State) : Prop :=
  (∃ p, i = .pix p ∧ ¬ s.x.toNat < 7 ∧ shiftIn p s = { s with lo := lo, hi := hi })
    ∨ ∃ p0 p1 p2 p3 p4 p5 p6 p7, i = .row p0 p1 p2 p3 p4 p5 p6 p7 ∧ s.x = 0#3
        ∧ shiftInAll [p0, p1, p2, p3, p4, p5, p6, p7] s = { s with lo := lo, hi := hi }

/-- The state `t` an operation `i` leaves from `s`, by cases (60_exceptions.md R173). -/
inductive Does (i : Instr) (s : State) : State → Prop
  | ignored : s.err ≠ .noError → ¬ AlwaysRuns i → Does i s s
  | badPhase : s.err = .noError → ¬ AlwaysRuns i → ¬ Pre i s → Does i s { s with err := .sequenceError }
  | rst : i = .rst → Does i s (resetBlock s)
  | setw (v : Byte) : i = .setw v → s.err = .noError → s.enc = .idle → Does i s { s with imgW := v }
  | seth (v : Byte) : i = .seth v → s.err = .noError → s.enc = .idle → Does i s { s with imgH := v }
  | badStart (d : Mode) (e : ErrCode) : i = .start d → s.err = .noError → s.enc = .idle →
      e = .invalidDimensions ∨ e = .unsupportedChunkCount → Does i s { s with err := e }
  | start (d : Mode) : i = .start d → s.err = .noError → s.enc = .idle →
      badDimensions s.imgW s.imgH = false → tooManyChunks s.imgH = false → Does i s (startedJob d s)
  | pixel (p : Pixel) : i = .pix p → s.err = .noError → s.enc = .fill → s.x.toNat < 7 →
      Does i s { shiftIn p s with x := s.x + 1#3 }
  | pixelRow (lo hi : Byte) : CompletesRow i lo hi s →
      s.err = .noError → s.enc = .fill → rowAddress s + 1 < 640 →
      Does i s (advance { s with
        lo := lo, hi := hi, cb := (s.cb.write (rowAddress s) lo).write (rowAddress s + 1) hi })
  | pixelRowNowhere (lo hi : Byte) : CompletesRow i lo hi s → s.err = .noError → s.enc = .fill → 640 ≤ rowAddress s →
      Does i s (advance { s with lo := lo, hi := hi })
  | frame (cmd comp : Byte) (pl rs : List Byte) (rest : List XferAnswer) :
      frameOf i s = some (cmd, comp, pl) → s.err = .noError → Pre i s →
      rs.length = pl.length + 10 → s.xferAnswers = rs.map .ok ++ rest →
      Does i s (sentFrame i (afterFrame cmd comp pl rs rest s))
  | frameFails (cks : Half) (evs : List Event) (rest : List XferAnswer) :
      (frameOf i s).isSome → s.err = .noError → Pre i s →
      Does i s { s with err := .transportFailure, cks := cks, hist := s.hist ++ evs, xferAnswers := rest }
  | frameSilent (cks : Half) (evs : List Event) (rest : List XferAnswer) :
      (frameOf i s).isSome → s.err = .noError → Pre i s →
      Does i s { s with stuck := true, cks := cks, hist := s.hist ++ evs, xferAnswers := rest }
  | dump (rest : List PutAnswer) : i = .dump → s.err = .noError → Pre i s →
      s.putAnswers = List.replicate 640 .ok ++ rest →
      Does i s (advanceChunk { s with hist := s.hist ++ (chunkBytesOf s).map .tx, putAnswers := rest })
  | dumpFails (evs : List Event) (rest : List PutAnswer) : i = .dump → s.err = .noError → Pre i s →
      Does i s { s with err := .transportFailure, hist := s.hist ++ evs, putAnswers := rest }
  | dumpSilent (evs : List Event) (rest : List PutAnswer) : i = .dump → s.err = .noError → Pre i s →
      Does i s { s with stuck := true, hist := s.hist ++ evs, putAnswers := rest }
  | read (v : Half) : ((∃ n, i = .rd n) ∨ ∃ a, i = .rdcb a) → Does i s { s with reads := s.reads ++ [v] }
  | badAddress (a : BitVec 10) : i = .rdcb a → 640 ≤ a.toNat → Does i s (raise .illegalOperation s)

/-- The operations that send a frame. -/
theorem frameOf_isSome (i : Instr) (s : State) (h : (frameOf i s).isSome) :
    i = .frameInit ∨ i = .frameData ∨ i = .frameEmpty ∨ i = .framePrint ∨ i = .frameReport := by
  cases i <;> simp [frameOf] at h ⊢

/-- The prologue in the terms of `Pre` (60_exceptions.md R173). -/
theorem does_of_prologue (i : Instr) (s t : State) (pre : Bool) (body : State → Result) (hr : ¬ AlwaysRuns i)
    (hp : pre = true ↔ Pre i s) (h : prologue pre body s = .next t)
    (hb : s.err = .noError → Pre i s → body s = .next t → Does i s t) : Does i s t := by
  rcases prologue_cases pre body s with ⟨he, e⟩ | ⟨he, hn, e⟩ | ⟨he, ht, e⟩
  · rw [e] at h; cases h; exact .ignored he hr
  · rw [e] at h; cases h; exact .badPhase he hr (by rw [← hp]; simp [hn])
  · exact hb he (hp.mp ht) (e ▸ h)

theorem does_of_emitFrame (i : Instr) (s t : State) (cmd comp : Byte) (pl : List Byte)
    (hf : frameOf i s = some (cmd, comp, pl)) (he : s.err = .noError) (hp : Pre i s)
    (h : emitFrame cmd comp pl (sentFrame i) s = .next t) : Does i s t := by
  rcases emitFrame_cases cmd comp pl (sentFrame i) s with ⟨rs, rest, hl, ha, e⟩ | ⟨cks, evs, rest, e⟩ | ⟨cks, evs, rest, e⟩
  · rw [e] at h; cases h; exact .frame _ _ _ rs rest hf he hp hl ha
  · rw [e, raise_of_noError _ _ (by exact he)] at h; cases h; exact .frameFails _ _ _ (by simp [hf]) he hp
  · rw [e] at h; cases h; exact .frameSilent _ _ _ (by simp [hf]) he hp

theorem exec_does (i : Instr) (s t : State) (h : exec i s = .next t) : Does i s t := by
  cases i with
  | rst => cases h; exact .rst rfl
  | setw v =>
    rw [exec_setw] at h
    exact does_of_prologue _ _ _ _ _ (by simp [AlwaysRuns]) (by simp [Pre]) h
      (fun he hp hb => by cases hb; exact .setw v rfl he hp)
  | seth v =>
    rw [exec_seth] at h
    exact does_of_prologue _ _ _ _ _ (by simp [AlwaysRuns]) (by simp [Pre]) h
      (fun he hp hb => by cases hb; exact .seth v rfl he hp)
  | start d =>
    rw [exec_start] at h
    refine does_of_prologue _ _ _ _ _ (by simp [AlwaysRuns]) (by simp [Pre]) h (fun he hp hb => ?_)
    split at hb
    · rw [raise_of_noError _ _ he] at hb; cases hb; exact .badStart d _ rfl he hp (.inl rfl)
    · split at hb
      · rw [raise_of_noError _ _ he] at hb; cases hb; exact .badStart d _ rfl he hp (.inr rfl)
      · cases hb; exact .start d rfl he hp (by simp_all) (by simp_all)
  | pix p =>
    rw [exec_pix] at h
    refine does_of_prologue _ _ _ _ _ (by simp [AlwaysRuns]) (by simp [Pre]) h (fun he hp hb => ?_)
    split at hb
    · rename_i hx
      cases hb; exact .pixel p rfl he hp hx
    · rename_i hx
      rcases commitRow_cases (shiftIn p s) with ⟨ha, e⟩ | ⟨ha, e⟩
      · rw [e] at hb; cases hb; exact .pixelRow _ _ (.inl ⟨p, rfl, hx, rfl⟩) he hp ha
      · rw [e] at hb; cases hb; exact .pixelRowNowhere _ _ (.inl ⟨p, rfl, hx, rfl⟩) he hp ha
  | row p0 p1 p2 p3 p4 p5 p6 p7 =>
    rw [exec_row] at h
    refine does_of_prologue _ _ _ _ _ (by simp [AlwaysRuns]) (by simp [Pre]) h (fun he hp hb => ?_)
    obtain ⟨lo, hi, hs⟩ := shiftInAll_frame [p0, p1, p2, p3, p4, p5, p6, p7] s
    simp only [hs] at hb
    rcases commitRow_cases { s with lo := lo, hi := hi } with ⟨ha, e⟩ | ⟨ha, e⟩
    · rw [e] at hb; cases hb; exact .pixelRow _ _ (.inr ⟨_, _, _, _, _, _, _, _, rfl, hp.2, hs⟩) he hp.1 ha
    · rw [e] at hb; cases hb; exact .pixelRowNowhere _ _ (.inr ⟨_, _, _, _, _, _, _, _, rfl, hp.2, hs⟩) he hp.1 ha
  | frameInit =>
    rw [exec_frameInit] at h
    exact does_of_prologue _ _ _ _ _ (by simp [AlwaysRuns]) (by simp [Pre]) h
      (fun he hp hb => does_of_emitFrame .frameInit s t _ _ _ rfl he hp hb)
  | frameData =>
    rw [exec_frameData] at h
    exact does_of_prologue _ _ _ _ _ (by simp [AlwaysRuns]) (by simp [Pre]) h
      (fun he hp hb => does_of_emitFrame .frameData s t _ _ _ rfl he hp hb)
  | frameEmpty =>
    rw [exec_frameEmpty] at h
    exact does_of_prologue _ _ _ _ _ (by simp [AlwaysRuns]) (by simp [Pre]) h
      (fun he hp hb => does_of_emitFrame .frameEmpty s t _ _ _ rfl he hp hb)
  | framePrint =>
    rw [exec_framePrint] at h
    exact does_of_prologue _ _ _ _ _ (by simp [AlwaysRuns]) (by simp [Pre]) h
      (fun he hp hb => does_of_emitFrame .framePrint s t _ _ _ rfl he hp hb)
  | frameReport =>
    rw [exec_frameReport] at h
    exact does_of_prologue _ _ _ _ _ (by simp [AlwaysRuns]) (by simp [Pre]) h
      (fun he hp hb => does_of_emitFrame .frameReport s t _ _ _ rfl he hp hb)
  | dump =>
    rw [exec_dump] at h
    refine does_of_prologue _ _ _ _ _ (by simp [AlwaysRuns]) (by simp [Pre]) h (fun he hp hb => ?_)
    rcases dumpChunk_cases advanceChunk s with ⟨rest, ha, e⟩ | ⟨evs, rest, e⟩ | ⟨evs, rest, e⟩
    · rw [e] at hb; cases hb; exact .dump rest rfl he hp ha
    · rw [e, raise_of_noError _ _ (by exact he)] at hb; cases hb; exact .dumpFails _ _ rfl he hp
    · rw [e] at hb; cases hb; exact .dumpSilent _ _ rfl he hp
  | rd n => cases h; exact .read _ (.inl ⟨n, rfl⟩)
  | rdcb a =>
    rw [exec_rdcb] at h
    split at h
    · cases h; exact .read _ (.inr ⟨a, rfl⟩)
    · rename_i ha
      cases h; exact .badAddress a rfl (by omega)

end Sys2Proof.Laws
end

