-- ==== Sys2Proof/Laws/PerInstr.lean ====
section
/-! SUPPORT. Statements made per instruction: each operation's word lies in its row of the opcode table. -/

namespace Sys2Proof.Laws.InTable

open Sys2Proof.Safety

/-- The word the encoder gives a well-formed operation selects the operation's row of the opcode table
(30_encoding.md R85). -/
def Statement (i : Instr) : Prop :=
  i.wellFormed = true → ∃ r ∈ opcodeTable, r.mnemonic = mnemonicOf i ∧ Selects (encode i) r

/-- The bits of a row operand are free, the bits above it are the row's (30_encoding.md R81, format R24). -/
theorem row_word (a0 a1 a2 a3 a4 a5 a6 a7 : BitVec 3) :
    (0x5#4 ++ 0#4 ++ a0 ++ a1 ++ a2 ++ a3 ++ a4 ++ a5 ++ a6 ++ a7 : OpWord) &&& 0xFF000000 = 0x50000000 := by
  apply BitVec.eq_of_getLsbD_eq
  intro i hi
  simp only [BitVec.getLsbD_and, BitVec.getLsbD_append]
  interval_cases i <;> simp

theorem rst : Statement .rst := fun _ => ⟨⟨"RST", 0x00000000, 0xFFFFFFFF⟩, by decide, rfl, by decide, by decide⟩
theorem setw (v : Byte) : Statement (.setw v) := fun _ =>
  ⟨⟨"SETW", 0x10000000, 0xFFFFFF00⟩, by decide, rfl, by revert v; decide +kernel, by simp⟩
theorem seth (v : Byte) : Statement (.seth v) := fun _ =>
  ⟨⟨"SETH", 0x20000000, 0xFFFFFF00⟩, by decide, rfl, by revert v; decide +kernel, by simp⟩
theorem start (d : Mode) : Statement (.start d) := fun _ =>
  ⟨⟨"START", 0x30000000, 0xFFFFFFFE⟩, by decide, rfl, by cases d <;> decide, by simp⟩
theorem pix (p : Pixel) : Statement (.pix p) := fun _ =>
  ⟨⟨"PIX", 0x40000000, 0xFFFFFFF8⟩, by decide, rfl, by obtain ⟨m, i⟩ := p; revert m i; decide +kernel, by simp⟩
theorem row (p0 p1 p2 p3 p4 p5 p6 p7 : Pixel) : Statement (.row p0 p1 p2 p3 p4 p5 p6 p7) := fun _ =>
  ⟨⟨"ROW", 0x50000000, 0xFF000000⟩, by decide, rfl, row_word _ _ _ _ _ _ _ _, by simp⟩
theorem frameInit : Statement .frameInit := fun _ =>
  ⟨⟨"FRAME.INIT", 0x60000000, 0xFFFFFFFF⟩, by decide, rfl, by decide, by simp⟩
theorem frameData : Statement .frameData := fun _ =>
  ⟨⟨"FRAME.DATA", 0x60000001, 0xFFFFFFFF⟩, by decide, rfl, by decide, by simp⟩
theorem frameEmpty : Statement .frameEmpty := fun _ =>
  ⟨⟨"FRAME.EMPTY", 0x60000002, 0xFFFFFFFF⟩, by decide, rfl, by decide, by simp⟩
theorem framePrint : Statement .framePrint := fun _ =>
  ⟨⟨"FRAME.PRINT", 0x60000003, 0xFFFFFFFF⟩, by decide, rfl, by decide, by simp⟩
theorem frameReport : Statement .frameReport := fun _ =>
  ⟨⟨"FRAME.REPORT", 0x60000004, 0xFFFFFFFF⟩, by decide, rfl, by decide, by simp⟩
theorem dump : Statement .dump := fun _ =>
  ⟨⟨"DUMP", 0x70000000, 0xFFFFFFFF⟩, by decide, rfl, by decide, by simp⟩
theorem rd (n : RegName) : Statement (.rd n) := fun _ =>
  ⟨⟨"RD", 0x80000000, 0xFFFFFFF8⟩, by decide, rfl, by cases n <;> decide, by simp⟩
theorem rdcb (a : BitVec 10) : Statement (.rdcb a) := fun h =>
  ⟨⟨"RDCB", 0x90000000, 0xFFFFFC00⟩, by decide, rfl, by clear h; revert a; decide +kernel,
    fun _ => by
      have hw : ∀ a : BitVec 10, ((encode (.rdcb a)) &&& 0x3FF).toNat = a.toNat := by decide +kernel
      rw [hw]; simpa [Instr.wellFormed] using h⟩

end Sys2Proof.Laws.InTable
end

