-- ==== Sys2Proof/Tests/Slice0.lean ====
section
/-! SUPPORT. The model's own tests, expected results from spec/95_test_vectors.md (its vector or program in each
docstring) or from the rule named; and for every statement with hypotheses a state and operands that meet them. -/

namespace Sys2Proof.Tests

open Sys2Proof.Machine Sys2Proof.Safety

/-! ## Helpers -/

/-- The packet parameters the test vectors use (93_implementation_defined.md G1). -/
def vectorPackets : Packets where
  pInit := ⟨0x01, 0x00, []⟩
  pEmpty := ⟨0x04, 0x00, []⟩
  pPrint := ⟨0x02, 0x00, [0x01, 0x13, 0xE4, 0x40]⟩
  pReport := ⟨0x0F, 0x00, []⟩

def blank : State := { State.reset with packets := vectorPackets }

/-- The state an operation or a step answers. -/
def after (r : Result) : State :=
  match r with
  | .next s => s
  | .fault _ | .refused _ => blank

def isNext (r : Result) : Bool :=
  match r with
  | .next _ => true
  | .fault _ | .refused _ => false

theorem next_after (r : Result) (h : isNext r = true) : r = .next (after r) := by
  cases r with
  | next s => rfl
  | fault f => cases h
  | refused f => cases h

def allRegs : List RegName := [.imgW, .imgH, .stat, .pos, .chk, .cks, .rsp, .shr]

/-- The register dump of the test vectors. -/
def registers (s : State) : List Nat := allRegs.map fun n => (readRegister n s).toNat

/-- A started 8 by 16 job. -/
def filling (d : Mode) (q : SeqPhase) : State :=
  { blank with imgW := 8, imgH := 16, mode := d, seq := q, enc := .fill, nchunk := 1 }

/-- The chunk of an 8 by 16 image whose pixels are all darkest. -/
def darkChunk : Memory := (List.range 16).map (fun a => (a, 0xFF)) ++ (List.range 16).map (fun a => (320 + a, 0xFF))

/-- The same job with its only chunk complete. -/
def full (d : Mode) (q : SeqPhase) : State :=
  { filling d q with enc := .full, tr := 2, lo := 0xFF, hi := 0xFF, cb := darkChunk }

/-- The same job with its chunk drained. -/
def drained (d : Mode) (q : SeqPhase) (n : BitVec 4) : State :=
  { filling d q with enc := .done, tr := 2, lo := 0xFF, hi := 0xFF, chunk := 1, rpt := n }

/-- An image whose pixels are all darkest. -/
def dark : Image := fun _ _ => ⟨true, 0⟩

def solid (p : Pixel) : Instr := .row p p p p p p p p

/-- `n` bytes answered with the response 0x00. -/
def answered (n : Nat) (s : State) : State := { s with xferAnswers := List.replicate n (.ok 0x00) }

def taken (n : Nat) (s : State) : State := { s with putAnswers := List.replicate n .ok }

/-! ## Well-formedness and decoding -/

/-- V20, V19: an RDCB of address 640 is no legal operation, one of 639 is. -/
theorem test_wellFormed_refuses_rdcb_640 : (Instr.rdcb 640).wellFormed = false ∧ (Instr.rdcb 639).wellFormed = true := by
  decide
/-- V1. -/
theorem test_decode_rst : decodeWord 0x00000000 = .legal .rst := by decide
/-- V3: 0b0001, twenty zeros, 160 = 0b10100000. -/
theorem test_decode_setw : decodeWord 0b00010000000000000000000010100000 = .legal (.setw 160) := by decide
/-- V6: 0b0010, twenty zeros, 144 = 0b10010000. -/
theorem test_decode_seth : decodeWord 0b00100000000000000000000010010000 = .legal (.seth 144) := by decide
/-- V7, and print mode: 0b0011, twenty-seven zeros, the mode bit. -/
theorem test_decode_start : decodeWord 0b00110000000000000000000000000001 = .legal (.start .dump)
    ∧ decodeWord 0b00110000000000000000000000000000 = .legal (.start .print) := by decide
/-- V9: 0b0100, twenty-five zeros, m = 1, idx = 0b11. -/
theorem test_decode_pix : decodeWord 0b01000000000000000000000000000111 = .legal (.pix ⟨true, 3⟩) := by decide
/-- R95 `ROW 0 1 2 3 0 1 2 3`: 0b0101, 0b0000, then 100 101 110 111 100 101 110 111. -/
theorem test_decode_row : decodeWord 0b01010000100101110111100101110111
    = .legal (.row ⟨true, 0⟩ ⟨true, 1⟩ ⟨true, 2⟩ ⟨true, 3⟩ ⟨true, 0⟩ ⟨true, 1⟩ ⟨true, 2⟩ ⟨true, 3⟩) := by decide
/-- R86: the frame kinds 0 to 4 in the low three bits. -/
theorem test_decode_frames :
    decodeWord 0b01100000000000000000000000000000 = .legal .frameInit
      ∧ decodeWord 0b01100000000000000000000000000001 = .legal .frameData
      ∧ decodeWord 0b01100000000000000000000000000010 = .legal .frameEmpty
      ∧ decodeWord 0b01100000000000000000000000000011 = .legal .framePrint
      ∧ decodeWord 0b01100000000000000000000000000100 = .legal .frameReport := by decide
/-- V15. -/
theorem test_decode_dump : decodeWord 0b01110000000000000000000000000000 = .legal .dump := by decide
/-- R87: the register numbers in their order. -/
theorem test_decode_rd : (List.range 8).map (fun n => decodeWord (0x80000000 + BitVec.ofNat 32 n))
    = allRegs.map fun n => .legal (.rd n) := by decide +kernel
/-- V19: 639 = 0b1001111111. -/
theorem test_decode_rdcb : decodeWord 0b10010000000000000000001001111111 = .legal (.rdcb 639) := by decide
/-- V2, V5, V8, V10, V12, V14, V16, V18, V20 to V23. -/
theorem test_decode_illegal : ([0x00000001, 0x10000100, 0x30000002, 0x40000008, 0x51000000, 0x60000005, 0x60000006,
    0x60000007, 0x70000001, 0x80000008, 0x90000280, 0x900003FF, 0x90000400, 0xA0000000, 0xB0000000, 0xF0000000,
    0xFFFFFFFF] : List OpWord).map (fun w => (decodeWord w).instr?) = List.replicate 17 none := by decide

/-! ## One step of each operation -/

/-- V3 presented to the block after reset. -/
theorem test_step_fetches : (after (step (State.reset.withFetchWord 32 0x100000A0))).imgW = 160 := by decide
/-- V48. -/
theorem test_rst : registers (after (exec .rst { full .print .data with err := .sequenceError, cks := 1 }))
    = [0, 0, 0, 0, 0, 0, 0, 0] := by decide
/-- V46: SETW in a started job. -/
theorem test_setw_refused : registers (after (exec (.setw 16) (filling .print .ready)))
    = [0x0008, 0x0010, 0x0185, 0x0000, 0x0010, 0x0000, 0x0000, 0x0000] := by decide
/-- V50: SETH in the error state. -/
theorem test_seth_ignored : (after (exec (.seth 16) { blank with imgH := 0xA0, err := .unsupportedChunkCount })).imgH
    = 0xA0 := by decide
/-- V33: nine chunks. -/
theorem test_start_nine_chunks : registers (after (exec (.start .print) { blank with imgW := 160, imgH := 144 }))
    = [0x00A0, 0x0090, 0x0005, 0x0000, 0x0090, 0x0000, 0x0000, 0x0000] := by decide
/-- V42: check 1 before check 2. -/
theorem test_start_first_check : registers (after (exec (.start .print) { blank with imgW := 200, imgH := 160 }))
    = [0x00C8, 0x00A0, 0x0040, 0x0000, 0x0000, 0x0000, 0x0000, 0x0000] := by decide
/-- V60: the second pixel. -/
theorem test_pix_shifts : registers (after (exec (.pix ⟨true, 1⟩) { filling .dump .idle with lo := 1, hi := 1, x := 1 }))
    = [0x0008, 0x0010, 0x0021, 0x0002, 0x0010, 0x0000, 0x0000, 0x0302] := by decide
/-- V60: the eighth pixel. -/
theorem test_pix_completes_row :
    let t := after (exec (.pix ⟨false, 3⟩) { filling .dump .idle with lo := 0x50, hi := 0x60, x := 7 })
    registers t = [0x0008, 0x0010, 0x0021, 0x0008, 0x0010, 0x0000, 0x0000, 0xC0A0] ∧ t.cb = [(0, 0xA0), (1, 0xC0)] := by
  decide
/-- R127, its example. -/
theorem test_row :
    let t := after (exec (.row ⟨true, 0⟩ ⟨true, 1⟩ ⟨true, 2⟩ ⟨true, 3⟩ ⟨true, 0⟩ ⟨true, 1⟩ ⟨true, 2⟩ ⟨true, 3⟩)
      (filling .dump .idle))
    registers t = [0x0008, 0x0010, 0x0021, 0x0008, 0x0010, 0x0000, 0x0000, 0xCCAA] ∧ t.cb = [(0, 0xAA), (1, 0xCC)] := by
  decide
/-- V64: the 320th ROW of a full-width chunk. -/
theorem test_row_fills_chunk :
    registers (after (exec (solid ⟨true, 0⟩) { filling .dump .idle with imgW := 160, tr := 1, tc := 19, y := 7 }))
      = [0x00A0, 0x0010, 0x0022, 0x1000, 0x0010, 0x0000, 0x0000, 0xFFFF] := by decide
/-- V70 and V73: the bytes of INIT and the status latch. -/
theorem test_frameInit :
    let t := after (exec .frameInit
      { filling .print .ready with xferAnswers := List.replicate 8 (.ok 0) ++ [.ok 0xA5, .ok 0x5A] })
    txBytes t.hist = [0x88, 0x33, 0x01, 0x00, 0x00, 0x00, 0x01, 0x00, 0x00, 0x00]
      ∧ registers t = [0x0008, 0x0010, 0x0009, 0x0000, 0x0010, 0x0001, 0x5AA5, 0x0000] := by decide
/-- V74: FRAME.DATA of a chunk of 32 bytes 0xFF and 608 bytes 0x00. -/
theorem test_frameData :
    let t := after (exec .frameData (answered 650 (full .print .data)))
    (txBytes t.hist).length = 650 ∧ (txBytes t.hist).drop 646 = [0x66, 0x20, 0x00, 0x00]
      ∧ registers t = [0x0008, 0x0010, 0x000B, 0x1000, 0x0011, 0x2066, 0x0000, 0xFFFF] := by decide +kernel
/-- V70: EMPTY. -/
theorem test_frameEmpty :
    let t := after (exec .frameEmpty (answered 10 (drained .print .data 0)))
    txBytes t.hist = [0x88, 0x33, 0x04, 0x00, 0x00, 0x00, 0x04, 0x00, 0x00, 0x00] ∧ (statWord t).toNat = 0x000F := by
  decide
/-- V70: PRINT. -/
theorem test_framePrint :
    let t := after (exec .framePrint (answered 14 (drained .print .emptied 0)))
    txBytes t.hist = [0x88, 0x33, 0x02, 0x00, 0x04, 0x00, 0x01, 0x13, 0xE4, 0x40, 0x3E, 0x01, 0x00, 0x00]
      ∧ (statWord t).toNat = 0x0013 := by decide
/-- P2, the tenth REPORT. -/
theorem test_frameReport_tenth :
    let t := after (exec .frameReport (answered 10 (drained .print .report 9)))
    txBytes t.hist = [0x88, 0x33, 0x0F, 0x00, 0x00, 0x00, 0x0F, 0x00, 0x00, 0x00]
      ∧ registers t = [0x0008, 0x0010, 0x0017, 0x1000, 0x0A11, 0x000F, 0x0000, 0xFFFF] := by decide
/-- R142: the byte that fails is summed before it is exchanged. -/
theorem test_frame_failure :
    let t := after (exec .frameInit
      { filling .print .ready with xferAnswers := [.ok 0, .ok 0, .rfail] })
    t.hist = [.tx 0x88, .rx 0, .tx 0x33, .rx 0, .tx 0x01, .fail .r]
      ∧ registers t = [0x0008, 0x0010, 0x0145, 0x0000, 0x0010, 0x0001, 0x0000, 0x0000] := by decide
/-- V76: a dump that fails at byte 100. -/
theorem test_dump_failure :
    let t := after (exec .dump
      { full .dump .idle with putAnswers := List.replicate 100 .ok ++ [.wfail] })
    txBytes t.hist = List.replicate 16 0xFF ++ List.replicate 84 0x00
      ∧ registers t = [0x0008, 0x0010, 0x0162, 0x1000, 0x0010, 0x0000, 0x0000, 0xFFFF] := by decide +kernel
/-- R153: a whole dump. -/
theorem test_dump :
    let t := after (exec .dump (taken 640 (full .dump .idle)))
    (txBytes t.hist).length = 640 ∧ (txBytes t.hist).getD 335 0 = 0xFF ∧ (txBytes t.hist).getD 336 1 = 0x00
      ∧ t.cb = [] ∧ (statWord t).toNat = 0x0023 := by decide +kernel
/-- V49: a read in the error state. -/
theorem test_rd : (after (exec (.rd .stat) { blank with err := .unsupportedChunkCount })).reads = [0x0100] := by decide
/-- R106, its example. -/
theorem test_rdcb : (after (exec (.rdcb 9) { filling .dump .idle with cb := [(8, 0xAA), (9, 0xCC)] })).reads = [0x00CC] := by
  decide
/-- V83: an illegal read has no result. -/
theorem test_illegal_read :
    let t := after (step (State.reset.withFetchWord 32 0x90000280))
    t.reads = [] ∧ (statWord t).toNat = 0x01C0 := by decide
/-- V80: the first error is kept. -/
theorem test_first_error_kept : (after (execWord 0xA0000000 { blank with err := .invalidDimensions })).err
    = .invalidDimensions := by decide

/-! ## The invariant at the states used below -/

theorem inv_filling (q : SeqPhase) (hq : q = .ready ∨ q = .data) : BlockInv (filling .print q) := by
  rcases hq with rfl | rfl <;>
    exact ⟨by decide, by decide, by decide, by decide, by decide, by decide, by decide, by decide, by decide, by decide,
      by decide, fun _ _ _ => rfl, by decide, by decide⟩

theorem inv_filling_dump : BlockInv (filling .dump .idle) :=
  ⟨by decide, by decide, by decide, by decide, by decide, by decide, by decide, by decide, by decide, by decide,
    by decide, fun _ _ _ => rfl, by decide, by decide⟩

theorem inv_full : BlockInv (full .print .data) :=
  ⟨by decide +kernel, by decide, by decide, by decide, by decide, by decide, by decide, by decide, by decide, by decide,
    by decide, fun h => absurd h (by decide), by decide, by decide⟩

theorem inv_full_dump : BlockInv (full .dump .idle) :=
  ⟨by decide +kernel, by decide, by decide, by decide, by decide, by decide, by decide, by decide, by decide, by decide,
    by decide, fun h => absurd h (by decide), by decide, by decide⟩

theorem inv_finished : BlockInv (drained .print .done 10) :=
  ⟨by decide, by decide, by decide, by decide, by decide, by decide, by decide, by decide, by decide, by decide,
    by decide, fun h => absurd h (by decide), by decide, by decide⟩

theorem inv_finished_dump : BlockInv (drained .dump .idle 0) :=
  ⟨by decide, by decide, by decide, by decide, by decide, by decide, by decide, by decide, by decide, by decide,
    by decide, fun h => absurd h (by decide), by decide, by decide⟩

theorem encodes_begun : Encodes dark (filling .print .data) :=
  ⟨by decide +kernel, by decide, by decide⟩

theorem encodes_full : Encodes dark (full .print .data) :=
  ⟨by decide, by decide, by decide +kernel⟩

/-! ## States and operands that meet the hypotheses of the statements -/

/-- DecodeOfEncodeIsIdentity: the last RDCB address, and a ROW. -/
theorem witness_decodeOfEncode : (Instr.rdcb 639).wellFormed = true ∧ (solid ⟨true, 3⟩).wellFormed = true := by decide
/-- EncodeOfDecodeIsIdentity. -/
theorem witness_encodeOfDecode : decodeWord 0x50FFFFFF = .legal (solid ⟨true, 3⟩) := by decide
/-- DecodeAgreesWithOpcodeTable: the last word of the RDCB row, and the first word past it. -/
theorem witness_selects :
    (⟨"RDCB", 0x90000000, 0xFFFFFC00⟩ : TableRow) ∈ opcodeTable ∧ Selects 0x9000027F ⟨"RDCB", 0x90000000, 0xFFFFFC00⟩
      ∧ ¬ Selects 0x90000280 ⟨"RDCB", 0x90000000, 0xFFFFFC00⟩ := by
  unfold Selects; decide
/-- IllegalWordsAreTheFourKinds, StepOnAnIllegalWord: a word of each kind at its boundary. -/
theorem witness_illegal : IllegalByR90 0xA0000000 ∧ IllegalByR90 0x10000100 ∧ IllegalByR90 0x60000005
    ∧ IllegalByR90 0x90000280 ∧ ¬ IllegalByR90 0x9000027F := by
  unfold IllegalByR90; decide
/-- StepRunsTheDecodedOperation, StepOnAnIllegalWord: a word presented to a block that takes it. -/
theorem witness_presented :
    (blank.withFetchWord 32 0x100000A0).stuck = false ∧ (blank.withFetchWord 32 0x100000A0).port = .word 0x100000A0 :: []
      ∧ decodeWord 0x100000A0 = .legal (.setw 160)
      ∧ (blank.withFetchWord 32 0xA0000000).port = .word 0xA0000000 :: [] := by decide
/-- BlockWaitsForAWord. -/
theorem witness_no_word : blank.port = [] := rfl
/-- ExternalResetDoesWhatRstDoes. -/
theorem witness_reset : ({ full .print .data with port := [.reset] } : State).port = .reset :: [] := rfl
/-- StuckBlockTakesOnlyAReset: a word, and a reset, before a stuck block. -/
theorem witness_stuck :
    ({ filling .print .ready with stuck := true, port := [.word 0] } : State).stuck = true
      ∧ ({ filling .print .ready with stuck := true, port := [.word 0] } : State).port = .word 0 :: []
      ∧ ({ filling .print .ready with stuck := true, port := [.reset] } : State).stuck = true
      ∧ ({ filling .print .ready with stuck := true, port := [.reset] } : State).port = .reset :: [] := by decide
/-- ErrorStateIgnoresOperations: an ignored operation, an illegal word, a read of a register, of the first and of the
last byte, a step. -/
theorem witness_error_state :
    let s : State := { blank with err := .sequenceError, port := [.word 0x10000008] }
    s.err ≠ .noError ∧ ¬ AlwaysRuns (.setw 8) ∧ (decodeWord 0xA0000000).instr? = none
      ∧ (0 : BitVec 10).toNat < 640 ∧ (639 : BitVec 10).toNat < 640
      ∧ step s = .next { s with port := [] } :=
  ⟨by decide, fun h => h, by decide, by decide, by decide, rfl⟩
/-- FalsePreconditionRaisesSequenceError: one operation of each group of R180. -/
theorem witness_false_precondition :
    blank.err = .noError ∧ (filling .print .data).err = .noError ∧ ¬ Pre (.setw 8) (filling .print .data)
      ∧ ¬ Pre (.pix ⟨true, 0⟩) blank ∧ ¬ Pre .frameInit blank ∧ ¬ Pre .frameData (filling .print .data)
      ∧ ¬ Pre .dump (full .print .data) := by
  unfold Pre; decide
/-- OnlyRstOrResetLeavesTheErrorState: a step in the error state. -/
theorem witness_error_step :
    let s : State := { blank with err := .sequenceError, port := [.word 0x00000000] }
    s.err ≠ .noError ∧ step s = .next (after (step s)) := ⟨by decide, rfl⟩
/-- ErrorsBeforeAnyEffectArePrecise: a START that fails. -/
theorem witness_precise :
    blank.err = .noError ∧ exec (.start .print) blank = .next (after (exec (.start .print) blank))
      ∧ (after (exec (.start .print) blank)).err ≠ .noError
      ∧ (after (exec (.start .print) blank)).err ≠ .transportFailure := ⟨by decide, rfl, by decide, by decide⟩
/-- ReservedCodesAreNeverRaised (only a state that no run reaches meets it: the codes are never raised). -/
theorem witness_reserved_code :
    let s : State := { blank with err := .tooManyColors }
    step s = .next s ∧ s.err = .tooManyColors := ⟨rfl, rfl⟩
/-- SetwAndSethStoreTheDimension, StartChecksThenBegins: each outcome of START at a boundary. -/
theorem witness_idle :
    blank.err = .noError ∧ blank.enc = .idle
      ∧ badDimensions 168 16 = true ∧ badDimensions 160 24 = true ∧ badDimensions 0 16 = true ∧ badDimensions 8 0 = true
      ∧ badDimensions 160 160 = false ∧ tooManyChunks 160 = true
      ∧ badDimensions 160 144 = false ∧ tooManyChunks 144 = false ∧ badDimensions 8 16 = false := by decide
/-- ShiftInDoublesAndAddsTheBit: the first and the last pixel of a row. -/
theorem witness_shift : 0 < 8 ∧ 7 < 8 := by decide
/-- RdcbReturnsTheByte: both sides of the bound. -/
theorem witness_rdcb : (639 : BitVec 10).toNat < 640 ∧ ¬ (640 : BitVec 10).toNat < 640 := by decide
/-- BufferMapIsABijection: the last place and the last address. -/
theorem witness_place : off 17 19 7 = 638 ∧ 19 < 20 ∧ 7 < 8 ∧ off 1 19 7 + 1 = 639 := by decide
/-- PixInsideARow: the first and the last but one pixel of a row. -/
theorem witness_pix_inside :
    (filling .dump .idle).err = .noError ∧ (filling .dump .idle).enc = .fill ∧ (filling .dump .idle).x.toNat < 7
      ∧ ({ filling .dump .idle with x := 6 } : State).x.toNat < 7 := by decide
/-- PixCompletesARow: the last tile column. -/
theorem witness_pix_completes :
    let s : State := { filling .dump .idle with imgW := 160, tr := 1, tc := 19, y := 7, x := 7 }
    s.err = .noError ∧ s.enc = .fill ∧ s.x = 7#3 ∧ s.tc.toNat ≤ 19 ∧ s.cb.wf = true := by decide
/-- RowWritesItsTwoBytes, RowEqualsEightPix: the last place of a full-width chunk. -/
theorem witness_row :
    let s : State := { filling .dump .idle with imgW := 160, tr := 1, tc := 19, y := 7 }
    s.err = .noError ∧ s.enc = .fill ∧ s.x = 0#3 ∧ s.tc.toNat ≤ 19 ∧ s.cb.wf = true := by decide
/-- EightRowsWriteTheTile: the last tile of a full-width chunk. -/
theorem witness_tile :
    let s : State := { filling .dump .idle with imgW := 160, tr := 1, tc := 19 }
    s.err = .noError ∧ s.enc = .fill ∧ s.x = 0#3 ∧ s.y = 0#3 ∧ s.tc.toNat ≤ 19 ∧ s.cb.wf = true := by decide
/-- PixelsOfAnImageKeepItsEncoding, RowsOfAnImageKeepItsEncoding, BandOfAnImageFillsTheChunk: a job just started. -/
theorem witness_image_begun :
    BlockInv (filling .print .data) ∧ Encodes dark (filling .print .data) ∧ (filling .print .data).err = .noError
      ∧ (filling .print .data).enc = .fill ∧ (filling .print .data).x = 0#3 ∧ (filling .print .data).cb = []
      ∧ (filling .print .data).tr.toNat = 2 * (filling .print .data).chunk.toNat
      ∧ (filling .print .data).tc = 0#5 ∧ (filling .print .data).y = 0#3 :=
  ⟨inv_filling .data (.inr rfl), encodes_begun, rfl, rfl, rfl, rfl, rfl, rfl, rfl⟩
/-- StartAndDrainBeginAnEncoding: a START, and a drain of the first of two chunks. -/
theorem witness_start_and_drain :
    let s : State := { blank with imgW := 8, imgH := 16 }
    let u : State := answered 650 { full .print .data with imgH := 32, nchunk := 2 }
    s.err = .noError ∧ exec (.start .dump) s = .next (after (exec (.start .dump) s))
      ∧ (after (exec (.start .dump) s)).enc = .fill ∧ s.enc ≠ .fill
      ∧ u.err = .noError ∧ exec .frameData u = .next (after (exec .frameData u))
      ∧ (after (exec .frameData u)).enc = .fill ∧ u.enc ≠ .fill :=
  ⟨by decide, rfl, by decide, by decide, by decide, next_after _ (by decide +kernel), by decide +kernel, by decide⟩
/-- FullChunkIsTheChunkOfTheImage: a chunk of darkest pixels, its first and last byte. -/
theorem witness_full_chunk :
    Encodes dark (full .print .data) ∧ (full .print .data).enc = .full
      ∧ 639 < (chunkBytesOf (full .print .data)).length := ⟨encodes_full, rfl, by decide +kernel⟩
/-- ChunksDetermineTheImage: an image of the smallest size, and of the largest width. -/
theorem witness_images :
    (8 ≤ 160 ∧ 8 % 8 = 0 ∧ 16 % 16 = 0) ∧ (160 ≤ 160 ∧ 160 % 8 = 0 ∧ 144 % 16 = 0)
      ∧ (∀ px py, px < 160 → py < 144 → (dark px py).m = true ∧ (dark px py).m = true)
      ∧ ∀ c a b, c < 144 / 16 → a < 640 → b < 8 → chunkBit dark 160 c a b = chunkBit dark 160 c a b :=
  ⟨by decide, by decide, fun _ _ _ _ => ⟨rfl, rfl⟩, fun _ _ _ _ _ _ => rfl⟩
/-- DumpJobSendsTheEncodedImage, PrintJobSendsTheEncodedImage: the smallest image, and the largest dimensions. -/
theorem witness_jobs :
    GoodDimensions 8 16 ∧ GoodDimensions 160 144 ∧ blank.err = .noError ∧ blank.enc = .idle
      ∧ (taken 640 blank).putAnswers = List.replicate (640 * ((16 : Byte).toNat / 16)) .ok ++ []
      ∧ (answered 784 blank).xferAnswers = (List.replicate 784 0x00).map .ok ++ []
      ∧ (List.replicate 784 (0x00 : Byte)).length
        = (blank.packets.pInit.payload.length + 10) + 650 * ((16 : Byte).toNat / 16)
          + (blank.packets.pEmpty.payload.length + 10) + (blank.packets.pPrint.payload.length + 10)
          + 10 * (blank.packets.pReport.payload.length + 10) := by
  unfold GoodDimensions; decide +kernel
/-- FrameInitSendsItsFrame. -/
theorem witness_frameInit :
    let s := answered 10 (filling .print .ready)
    s.err = .noError ∧ s.seq = .ready ∧ s.xferAnswers = (List.replicate 10 0x00).map .ok ++ []
      ∧ (List.replicate 10 (0x00 : Byte)).length = s.packets.pInit.payload.length + 10 := by decide
/-- FrameDataSendsTheChunk: the last chunk of a job, and one before the last. -/
theorem witness_frameData :
    let s := answered 650 (full .print .data)
    s.err = .noError ∧ s.seq = .data ∧ s.enc = .full ∧ s.xferAnswers = (List.replicate 650 0x00).map .ok ++ []
      ∧ s.chunk + 1#4 = s.nchunk ∧ ({ s with nchunk := 2 } : State).chunk + 1#4 ≠ 2 := by decide +kernel
/-- FrameEmptySendsItsFrame. -/
theorem witness_frameEmpty :
    let s := answered 10 (drained .print .data 0)
    s.err = .noError ∧ s.seq = .data ∧ s.enc = .done ∧ s.xferAnswers = (List.replicate 10 0x00).map .ok ++ []
      ∧ (List.replicate 10 (0x00 : Byte)).length = s.packets.pEmpty.payload.length + 10 := by decide
/-- FramePrintSendsItsFrame. -/
theorem witness_framePrint :
    let s := answered 14 (drained .print .emptied 0)
    s.err = .noError ∧ s.seq = .emptied ∧ s.xferAnswers = (List.replicate 14 0x00).map .ok ++ []
      ∧ (List.replicate 14 (0x00 : Byte)).length = s.packets.pPrint.payload.length + 10 := by decide
/-- FrameReportSendsAndCounts: the ninth and the tenth. -/
theorem witness_frameReport :
    let s := answered 10 (drained .print .report 9)
    s.err = .noError ∧ s.seq = .report ∧ s.xferAnswers = (List.replicate 10 0x00).map .ok ++ []
      ∧ (List.replicate 10 (0x00 : Byte)).length = s.packets.pReport.payload.length + 10
      ∧ (s.rpt + 1#4).toNat = 10 ∧ ((8 : BitVec 4) + 1#4).toNat ≠ 10 := by decide
/-- FrameFailureKeepsThePartialSum, SilentTransportLeavesTheFrameStuck: the first and the last byte of a frame, with
each answer that stops it, and with no answer left. -/
theorem witness_frame_stops :
    let s := filling .print .ready
    let rs : List Byte := List.replicate 9 0x00
    s.err = .noError ∧ Pre .frameInit s ∧ frameOf .frameInit s = some (0x01, 0x00, [])
      ∧ ([] : List Byte).length < ([] : List Byte).length + 10 ∧ rs.length < ([] : List Byte).length + 10
      ∧ ({ s with xferAnswers := rs.map .ok ++ [.wfail] } : State).xferAnswers = rs.map .ok ++ .wfail :: []
      ∧ ({ s with xferAnswers := rs.map .ok ++ [.rfail] } : State).xferAnswers = rs.map .ok ++ .rfail :: []
      ∧ ({ s with xferAnswers := rs.map .ok ++ [.never] } : State).xferAnswers = rs.map .ok ++ .never :: []
      ∧ s.xferAnswers = ([] : List Byte).map .ok := by
  unfold Pre; decide
/-- DumpSendsTheChunk. -/
theorem witness_dump :
    let s := taken 640 (full .dump .idle)
    s.err = .noError ∧ s.mode = .dump ∧ s.enc = .full ∧ s.putAnswers = List.replicate 640 .ok ++ [] := by
  decide +kernel
/-- DumpFailureKeepsTheChunk, SilentSinkLeavesTheDumpStuck: the first and the last byte. -/
theorem witness_dump_stops :
    let s := full .dump .idle
    s.err = .noError ∧ s.mode = .dump ∧ s.enc = .full ∧ 0 < 640 ∧ 639 < 640
      ∧ ({ s with putAnswers := List.replicate 639 .ok ++ [.wfail] } : State).putAnswers
        = List.replicate 639 .ok ++ .wfail :: []
      ∧ ({ s with putAnswers := List.replicate 639 .ok ++ [.never] } : State).putAnswers
        = List.replicate 639 .ok ++ .never :: []
      ∧ s.putAnswers = List.replicate 0 .ok := by decide +kernel
/-- StepKeepsTheInvariant, PhasesMoveOnlyForward, HistoryOnlyGrows: a step of a job. -/
theorem witness_step_of_a_job :
    let s := filling .print .ready
    BlockInv s ∧ step s = .next s := ⟨inv_filling .ready (.inl rfl), rfl⟩
/-- ReachableStatesHaveTheInvariant: reset, and a state one word later. -/
theorem witness_reachable :
    Reachable State.reset
      ∧ Reachable (after (step { State.reset with port := [.word 0x100000A0], xferAnswers := [], putAnswers := [] })) :=
  ⟨.reset, .step State.reset _ [.word 0x100000A0] [] [] .reset rfl⟩
/-- PrintJobSendsItsFramesInOrder: a job just started, and the drain of its chunk. -/
theorem witness_print_job :
    let s := filling .print .ready
    let u : State := answered 650 { full .print .data with
      hist := (packetFrame vectorPackets.pInit).map .tx, port := [.word 0x60000001] }
    (BlockInv s ∧ s.mode = .print ∧ s.enc ≠ .idle ∧ PrintJob [] [] s ∧ step s = .next s ∧ s.err = .noError
        ∧ s.stuck = false)
      ∧ u.mode = .print ∧ u.enc ≠ .idle ∧ PrintJob [] [] u ∧ (after (step u)).err = .noError
      ∧ (after (step u)).stuck = false ∧ (after (step u)).enc ≠ .idle := by
  refine ⟨⟨inv_filling .ready (.inl rfl), by decide, by decide, ⟨⟨rfl, by simp⟩, rfl⟩, rfl, by decide, by decide⟩, ?_⟩
  exact ⟨by decide, by decide, ⟨⟨rfl, by simp⟩, by decide +kernel⟩, by decide +kernel, by decide +kernel,
    by decide +kernel⟩
/-- FinishedPrintJobHasSentEverything. -/
theorem witness_finished_print_job :
    let s : State := { drained .print .done 10 with
      hist := (printJobBytes vectorPackets .done [List.replicate 640 0x00] 10).map .tx }
    BlockInv s ∧ PrintJob [] [List.replicate 640 0x00] s ∧ s.seq = .done := by
  refine ⟨?_, ⟨⟨rfl, by decide +kernel⟩, by decide +kernel⟩, rfl⟩
  obtain ⟨a, b, c, d, e, f, g, h, i, j, k, l, m, n⟩ := inv_finished
  exact ⟨a, b, c, d, e, f, g, h, i, j, k, l, m, n⟩
/-- DumpJobSendsItsChunksInOrder: a job just started, and the drain of its chunk. -/
theorem witness_dump_job :
    let s := filling .dump .idle
    let u : State := taken 640 { full .dump .idle with port := [.word 0x70000000] }
    (BlockInv s ∧ s.mode = .dump ∧ s.enc ≠ .idle ∧ DumpJob [] [] s ∧ step s = .next s ∧ s.err = .noError
        ∧ s.stuck = false)
      ∧ u.mode = .dump ∧ u.enc ≠ .idle ∧ DumpJob [] [] u ∧ (after (step u)).err = .noError
      ∧ (after (step u)).stuck = false ∧ (after (step u)).enc ≠ .idle := by
  refine ⟨⟨inv_filling_dump, by decide, by decide, ⟨⟨rfl, by simp⟩, rfl⟩, rfl, by decide, by decide⟩, ?_⟩
  exact ⟨by decide, by decide, ⟨⟨rfl, by simp⟩, rfl⟩, by decide +kernel, by decide +kernel, by decide +kernel⟩
/-- StartBeginsAJob: both modes. -/
theorem witness_start :
    let s : State := { blank with imgW := 160, imgH := 144 }
    s.err = .noError ∧ exec (.start .print) s = .next (after (exec (.start .print) s))
      ∧ (after (exec (.start .print) s)).err = .noError
      ∧ exec (.start .dump) s = .next (after (exec (.start .dump) s))
      ∧ (after (exec (.start .dump) s)).err = .noError := ⟨by decide, rfl, by decide, rfl, by decide⟩
/-- OnlyTheseOperationsWriteThese. -/
theorem witness_write :
    exec (.pix ⟨true, 0⟩) (filling .dump .idle) = .next (after (exec (.pix ⟨true, 0⟩) (filling .dump .idle)))
      ∧ Instr.pix ⟨true, 0⟩ ≠ .rst ∧ frameOf (.pix ⟨true, 0⟩) (filling .dump .idle) = none
      ∧ (∀ d, Instr.pix ⟨true, 0⟩ ≠ .start d) ∧ ¬ Drains (.pix ⟨true, 0⟩) ∧ ¬ TakesPixels .frameInit
      ∧ ¬ Drains .frameInit :=
  ⟨rfl, by decide, rfl, fun _ h => (nomatch h), fun h => h, fun h => h, fun h => h⟩
/-- FinishedJobAcceptsOnlyRstAndReads: a finished print job and a finished dump job. -/
theorem witness_finished_job :
    (BlockInv (drained .print .done 10) ∧ (drained .print .done 10).err = .noError
        ∧ (drained .print .done 10).seq = .done)
      ∧ (BlockInv (drained .dump .idle 0) ∧ (drained .dump .idle 0).err = .noError
        ∧ (drained .dump .idle 0).mode = .dump ∧ (drained .dump .idle 0).enc = .done)
      ∧ ¬ AlwaysRuns .frameReport := by
  exact ⟨⟨inv_finished, rfl, rfl⟩, ⟨inv_finished_dump, rfl, rfl, rfl⟩, fun h => h⟩

end Sys2Proof.Tests
end

section
/-! PROOFS. The state of the block (10_state.md): its reset values (R38), and the invariant of its reachable states
(R39). -/

namespace Sys2Proof.Proofs

open Sys2Proof.Machine Sys2Proof.Safety Sys2Proof.Laws

/-! ## Words and counters as numbers -/

/-- A word with `n` bits appended has at most `n` significant bits more. -/
theorem toNat_append_lt {m n k : Nat} (a : BitVec m) (b : BitVec n) (h : a.toNat < 2 ^ k) :
    (a ++ b).toNat < 2 ^ (k + n) := by
  rw [BitVec.toNat_append]
  refine Nat.or_lt_two_pow ?_ (b.isLt.trans_le (Nat.pow_le_pow_right (by decide) (by omega)))
  rw [Nat.shiftLeft_eq, Nat.pow_add]
  exact Nat.mul_lt_mul_of_pos_right h (by positivity)

/-- A counter that is not at its last value counts one further. -/
theorem toNat_add_one_of_lt {n : Nat} (c : BitVec n) (h : c.toNat + 1 < 2 ^ n) : (c + 1#n).toNat = c.toNat + 1 := by
  rw [BitVec.toNat_add, BitVec.toNat_ofNat, Nat.add_mod_mod, Nat.mod_eq_of_lt h]

/-! ## The reset values (R38) -/

theorem isReset_resetBlock (s : State) : IsReset (resetBlock s) :=
  ⟨rfl, rfl, ⟨rfl, rfl, rfl, rfl⟩, ⟨rfl, rfl, rfl, rfl⟩, ⟨rfl, rfl, rfl⟩, rfl, ⟨rfl, rfl⟩, ⟨rfl, rfl⟩, fun _ => rfl⟩

theorem isReset_reset : IsReset State.reset := isReset_resetBlock State.reset

/-- Every register of a block with the reset values reads as the number 0. -/
theorem registerValue_of_isReset (s : State) (h : IsReset s) (n : RegName) : registerValue n s = 0 := by
  obtain ⟨imgW, imgH, ⟨enc, seq, mode, err⟩, ⟨tr, tc, y, x⟩, ⟨chunk, nchunk, rpt⟩, cks, ⟨rsp1, rsp2⟩, ⟨lo, hi⟩, -⟩ := h
  cases n with
  | imgW => simp [registerValue, imgW]
  | imgH => simp [registerValue, imgH]
  | stat => simp [registerValue, enc, seq, mode, err, encCode, seqCode, modeCode, errCode]
  | pos => simp [registerValue, tr, tc, y, x]
  | chk => simp [registerValue, chunk, nchunk, rpt]
  | cks => simp [registerValue, cks]
  | rsp => simp [registerValue, rsp1, rsp2]
  | shr => simp [registerValue, lo, hi]

/-- Settles O10: RST leaves the reset values (R38), and with them every register reads as 0. -/
theorem resetAndRstLeaveEverythingZero : Obligations.ResetAndRstLeaveEverythingZero := by
  refine ⟨⟨isReset_reset, registerValue_of_isReset _ isReset_reset⟩, fun s => ⟨resetBlock s, exec_rst s, ?_⟩⟩
  exact ⟨isReset_resetBlock s, registerValue_of_isReset _ (isReset_resetBlock s)⟩

/-! ## The bits that read as zero (R39 item 10): they do in every state -/

theorem statWord_lt (s : State) : (statWord s).toNat < 2 ^ 9 := by
  have h0 : (0#7).toNat < 2 ^ 0 := by decide
  exact toNat_append_lt _ _ (toNat_append_lt _ _ (toNat_append_lt _ _ (toNat_append_lt _ _ h0)))

theorem chkWord_lt (s : State) : (chkWord s).toNat < 2 ^ 12 := by
  have h0 : (0#4).toNat < 2 ^ 0 := by decide
  exact toNat_append_lt _ _ (toNat_append_lt _ _ (toNat_append_lt _ _ h0))

theorem reservedBits (s : State) :
    seqCode s.seq ≠ 6 ∧ seqCode s.seq ≠ 7 ∧ (statWord s).toNat < 2 ^ 9 ∧ (chkWord s).toNat < 2 ^ 12 := by
  have hseq : seqCode s.seq ≠ 6 ∧ seqCode s.seq ≠ 7 := by cases s.seq <;> decide
  exact ⟨hseq.1, hseq.2, statWord_lt s, chkWord_lt s⟩

/-! ## What the invariant does not restrict -/

section
variable {s : State}

/-- Of the inputs still to come, the outputs so far and the stuck mark, R39 says nothing. -/
theorem blockInv_setSurroundings (h : BlockInv s) (port : List HostInput) (xs : List XferAnswer)
    (ps : List PutAnswer) (stuck : Bool) (hist : List Event) (reads : List Half) :
    BlockInv { s with port := port, xferAnswers := xs, putAnswers := ps, stuck := stuck, hist := hist, reads := reads } :=
  { h with }

/-- Of `ERR`, R39 says nothing; R171 rules two codes out. -/
theorem blockInv_setErr (h : BlockInv s) (e : ErrCode) (he : e ≠ .unsupportedColorMode ∧ e ≠ .tooManyColors) :
    BlockInv { s with err := e } :=
  { h with reserved_bits := reservedBits _, err_codes := he }

theorem blockInv_raise (h : BlockInv s) (e : ErrCode) (he : e ≠ .unsupportedColorMode ∧ e ≠ .tooManyColors) :
    BlockInv (raise e s) := by
  by_cases hs : s.err = .noError
  · rw [raise_of_noError e s hs]; exact blockInv_setErr h e he
  · rw [raise_of_error e s hs]; exact h

/-- Once a job has begun, `CKS` and `RSP` are free. -/
theorem blockInv_setLinkRegisters (h : BlockInv s) (henc : s.enc ≠ .idle) (cks : Half) (rsp1 rsp2 : Byte) :
    BlockInv { s with cks := cks, rsp1 := rsp1, rsp2 := rsp2 } :=
  { h with idle_blank := fun hi => absurd hi henc }

/-- While the block is idle, the dimensions are free. -/
theorem blockInv_setDimensions (h : BlockInv s) (henc : s.enc = .idle) (w v : Byte) :
    BlockInv { s with imgW := w, imgH := v } :=
  { h with
    job_dims := fun hn => absurd henc hn
    fill_place := fun hf => nomatch henc.symm.trans hf
    fill_unwritten := fun hf => nomatch henc.symm.trans hf }

/-- While a chunk is being filled, `LO`, `HI` and `X` are free. -/
theorem blockInv_setPixelRegisters (h : BlockInv s) (henc : s.enc = .fill) (lo hi : Byte) (x : BitVec 3) :
    BlockInv { s with lo := lo, hi := hi, x := x } :=
  { h with
    idle_blank := fun hn => nomatch henc.symm.trans hn
    full_place := fun hn => nomatch henc.symm.trans hn
    done_place := fun hn => nomatch henc.symm.trans hn }

end

/-! ## Reset and START -/

theorem blockInv_of_isReset (s : State) (h : IsReset s) (hcb : s.cb = []) : BlockInv s := by
  obtain ⟨-, -, ⟨enc, seq, mode, err⟩, ⟨tr, tc, y, x⟩, ⟨chunk, nchunk, rpt⟩, cks, ⟨rsp1, rsp2⟩, ⟨lo, hi⟩, -⟩ := h
  exact {
    cb_wf := by rw [hcb]; rfl
    idle_blank := fun _ => ⟨seq, mode, tr, tc, y, x, chunk, nchunk, rpt, cks, rsp1, rsp2, lo, hi, hcb⟩
    job_dims := fun hn => absurd enc hn
    fill_place := by simp [enc]
    full_place := by simp [enc]
    done_place := by simp [enc]
    dump_seq := fun _ => seq
    print_seq := fun _ hn => absurd enc hn
    ready_chunk := fun _ => chunk
    late_seq := by simp [seq]
    report_count := by simp [seq, rpt]
    fill_unwritten := by simp [enc]
    reserved_bits := reservedBits s
    err_codes := by simp [err] }

/-- The dimensions that pass the two checks of START (40_config_control.md R103) are those of item 2. -/
theorem dims_of_checks (w v : Byte) (hd : badDimensions w v = false) (hc : tooManyChunks v = false) :
    8 ≤ w.toNat ∧ w.toNat ≤ 160 ∧ w.toNat % 8 = 0 ∧ 16 ≤ v.toNat ∧ v.toNat ≤ 144 ∧ v.toNat % 16 = 0 := by
  simp only [badDimensions, tooManyChunks, Bool.or_eq_false_iff, decide_eq_false_iff_not, Config.maxW,
    Config.tile, Config.hUnit, Config.maxChunks] at hd hc
  omega

/-- A job that START begins (R103) has the invariant, whatever the block did before. -/
theorem blockInv_startedJob (d : Mode) (s : State) (h : BlockInv s) (hd : badDimensions s.imgW s.imgH = false)
    (hc : tooManyChunks s.imgH = false) : BlockInv (startedJob d s) := by
  obtain ⟨w8, w160, wmod, h16, h144, hmod⟩ := dims_of_checks _ _ hd hc
  have hn : (startedJob d s).nchunk.toNat = s.imgH.toNat / 16 := by
    rw [startedJob_nchunk, BitVec.toNat_ofNat, Nat.mod_eq_of_lt (by omega)]
  exact {
    cb_wf := rfl
    idle_blank := by simp
    job_dims := fun _ => ⟨w8, w160, wmod, h16, h144, hmod, hn, by omega, by omega⟩
    fill_place := fun _ => by
      rw [hn]
      exact ⟨by simpa using h16, by simp, by simpa using w8⟩
    full_place := by simp
    done_place := by simp
    dump_seq := by cases d <;> simp
    print_seq := by cases d <;> simp
    ready_chunk := by simp
    late_seq := by cases d <;> simp
    report_count := by cases d <;> simp
    fill_unwritten := by simp
    reserved_bits := reservedBits _
    err_codes := h.err_codes }

/-! ## A completed pixel row (41_tile_encoder.md R124, R125) -/

theorem rowDone_iff (s : State) (a : Nat) :
    rowDone s a = true ↔ tileColOf a < s.imgW.toNat / 8 ∧
      (halfOf a < s.tr.toNat % 2 ∨ halfOf a = s.tr.toNat % 2 ∧
        (tileColOf a < s.tc.toNat ∨ tileColOf a = s.tc.toNat ∧ pixelRowOf a < s.y.toNat)) := by
  simp [rowDone]

/-- The two bytes of the pixel row the block is at lie where `POS` says (20_memory.md R60, R61). -/
theorem place_of_rowAddress (s : State) (htc : s.tc.toNat < 20) (a : Nat)
    (ha : a = rowAddress s ∨ a = rowAddress s + 1) :
    halfOf a = s.tr.toNat % 2 ∧ tileColOf a = s.tc.toNat ∧ pixelRowOf a = s.y.toNat := by
  have hy := s.y.isLt
  simp only [rowAddress, off, Config.trowBytes, Config.tileBytes] at ha
  simp only [halfOf, tileColOf, pixelRowOf]
  omega

/-- Advancing the place within the chunk counts the row it leaves, and those before it, as done. -/
theorem rowDone_of_advanced (s t : State) (hadv : Advanced s t) (hW : t.imgW = s.imgW) (hfill : t.enc = .fill)
    (htc : s.tc.toNat < s.imgW.toNat / 8) (hW20 : s.imgW.toNat / 8 ≤ 20) (a : Nat)
    (ha : rowDone s a = true ∨ a = rowAddress s ∨ a = rowAddress s + 1) : rowDone t a = true := by
  have hbefore : tileColOf a < s.imgW.toNat / 8 ∧
      (halfOf a < s.tr.toNat % 2 ∨ halfOf a = s.tr.toNat % 2 ∧
        (tileColOf a < s.tc.toNat ∨ tileColOf a = s.tc.toNat ∧ pixelRowOf a ≤ s.y.toNat)) := by
    rcases ha with ha | ha
    · have := (rowDone_iff s a).1 ha; omega
    · have := place_of_rowAddress s (by omega) a ha; omega
  rw [rowDone_iff, hW]
  obtain ⟨-, ⟨hy, ey, etc, etr, -⟩ | ⟨hy, hc, ey, etc, etr, -⟩ | ⟨hy, hc, ey, etc, etr, eenc⟩⟩ := hadv
  · have hy1 : t.y.toNat = s.y.toNat + 1 := by rw [ey, toNat_add_one_of_lt _ (by omega)]
    rw [etr, etc, hy1]
    omega
  · have hc1 : t.tc.toNat = s.tc.toNat + 1 := by rw [etc, toNat_add_one_of_lt _ (by omega)]
    rw [etr, hc1]
    omega
  · have hodd : t.tr.toNat % 2 = 1 := by
      rw [etr]
      by_contra hne
      rw [if_pos (by omega), hfill] at eenc
      cases eenc
    have heven : s.tr.toNat % 2 = 0 := by rw [etr, BitVec.toNat_add, BitVec.toNat_ofNat] at hodd; omega
    omega

/-- Where `Advance` leaves a block that fills a chunk: still in the chunk (item 3), or the chunk is complete
(item 4). -/
theorem place_of_advanced (s t : State) (h : BlockInv s) (henc : s.enc = .fill) (hadv : Advanced s t) :
    (t.enc = .fill ∧ t.tr.toNat / 2 = s.chunk.toNat ∧ t.tc.toNat < s.imgW.toNat / 8)
      ∨ (t.enc = .full ∧ t.tr.toNat = 2 * (s.chunk.toNat + 1) ∧ t.tc = 0#5 ∧ t.y = 0#3 ∧ t.x = 0#3) := by
  obtain ⟨-, hW160, -, -, -, -, -, -, hn9⟩ := h.job_dims (by simp [henc])
  obtain ⟨hchunk, htr, htc⟩ := h.fill_place henc
  obtain ⟨ex, ⟨-, -, etc, etr, eenc⟩ | ⟨-, hc, -, etc, etr, eenc⟩ | ⟨-, -, ey, etc, etr, eenc⟩⟩ := hadv
  · exact .inl ⟨eenc.trans henc, by rw [etr]; exact htr, by rw [etc]; exact htc⟩
  · have hc1 : t.tc.toNat = s.tc.toNat + 1 := by rw [etc, toNat_add_one_of_lt _ (by omega)]
    exact .inl ⟨eenc.trans henc, by rw [etr]; exact htr, by rw [hc1]; exact hc⟩
  · have htr1 : t.tr.toNat = s.tr.toNat + 1 := by rw [etr, toNat_add_one_of_lt _ (by omega)]
    rw [← etr, henc] at eenc
    by_cases heven : t.tr.toNat % 2 = 0
    · exact .inr ⟨by rw [eenc, if_pos heven], by omega, etc, ey, ex⟩
    · exact .inl ⟨by rw [eenc, if_neg heven], by omega, by rw [etc, BitVec.toNat_ofNat]; omega⟩

/-- Writing the plane bytes `lo` and `hi` of a pixel row in a tile column that exists, and advancing, commits the row. -/
theorem rowCommitted_advance (s : State) (lo hi : Byte) (hwf : s.cb.wf = true) (ha : rowAddress s + 1 < 640) :
    RowCommitted lo hi s (advance { s with
      lo := lo, hi := hi, cb := (s.cb.write (rowAddress s) lo).write (rowAddress s + 1) hi }) := by
  obtain ⟨-, hlo, hhi, helse⟩ := s.cb.write_row (rowAddress s) lo hi hwf ha
  refine ⟨?_, advance_advanced _, ?_⟩
  · unfold advance; split_ifs <;> rfl
  · rw [advance_cb]; exact ⟨hlo, hhi, helse⟩

/-- A pixel row committed at any place of a chunk being filled keeps the invariant. -/
theorem blockInv_of_rowCommitted (s t : State) (h : BlockInv s) (henc : s.enc = .fill) (lo hi : Byte)
    (hrow : RowCommitted lo hi s t) (hwf : t.cb.wf = true) : BlockInv t := by
  obtain ⟨hframe, hadv, -, -, helse⟩ := hrow
  obtain ⟨imgW, imgH, seq, mode, err, chunk, nchunk, rpt⟩ : t.imgW = s.imgW ∧ t.imgH = s.imgH ∧ t.seq = s.seq
      ∧ t.mode = s.mode ∧ t.err = s.err ∧ t.chunk = s.chunk ∧ t.nchunk = s.nchunk ∧ t.rpt = s.rpt := by
    rw [hframe]; exact ⟨rfl, rfl, rfl, rfl, rfl, rfl, rfl, rfl⟩
  have hbusy : s.enc ≠ .idle := by simp [henc]
  have hdims := h.job_dims hbusy
  obtain ⟨hchunk, -, htc⟩ := h.fill_place henc
  have hplace := place_of_advanced s t h henc hadv
  have hphase : t.enc = .fill ∨ t.enc = .full := hplace.imp And.left And.left
  exact {
    cb_wf := hwf
    idle_blank := fun hn => by simp [hn] at hphase
    job_dims := fun _ => by rw [imgW, imgH, nchunk]; exact hdims
    fill_place := fun hf => by
      rw [imgW, chunk, nchunk]
      simpa [hf, hchunk] using hplace
    full_place := fun hf => by
      rw [chunk, nchunk]
      simpa [hf, hchunk] using hplace
    done_place := fun hn => by simp [hn] at hphase
    dump_seq := by rw [mode, seq]; exact h.dump_seq
    print_seq := fun hm _ => by rw [seq]; exact h.print_seq (mode ▸ hm) hbusy
    ready_chunk := by rw [seq, chunk]; exact h.ready_chunk
    late_seq := fun hl => nomatch henc.symm.trans (h.late_seq (seq ▸ hl))
    report_count := by rw [seq, rpt]; exact h.report_count
    fill_unwritten := fun hf a hd => by
      have hnot := mt (rowDone_of_advanced s t hadv imgW hf htc (by omega) a) (by simp [hd])
      obtain ⟨hbefore, hlow, hhigh⟩ := not_or.1 hnot |>.imp_right not_or.1
      rw [helse a hlow hhigh]
      exact h.fill_unwritten henc a (by simpa using hbefore)
    reserved_bits := reservedBits t
    err_codes := by rw [err]; exact h.err_codes }

/-! ## The end of a chunk and of a frame (42_checksum_framer.md R146 to R153) -/

section
variable {s : State}

/-- `AdvanceChunk` (R151) counts the chunk, and either it was the last one or the next is to be filled. -/
theorem advanceChunk_phase (s : State) (hchunk : s.chunk.toNat < s.nchunk.toNat) :
    (advanceChunk s).chunk.toNat = s.chunk.toNat + 1
      ∧ ((advanceChunk s).enc = .done ∧ (advanceChunk s).chunk = s.nchunk
        ∨ (advanceChunk s).enc = .fill ∧ (advanceChunk s).chunk.toNat < s.nchunk.toNat) := by
  have hnext : (s.chunk + 1#4).toNat = s.chunk.toNat + 1 := toNat_add_one_of_lt _ (by omega)
  rw [advanceChunk_enc, advanceChunk_chunk]
  refine ⟨hnext, ?_⟩
  split_ifs with hlast
  · exact .inl ⟨rfl, hlast⟩
  · rw [← BitVec.toNat_inj] at hlast
    exact .inr ⟨rfl, by omega⟩

/-- The hand-over of a full chunk, in a print job past INIT or in a dump job, keeps the invariant. -/
theorem blockInv_advanceChunk (h : BlockInv s) (henc : s.enc = .full) (hseq : s.seq = .data ∨ s.mode = .dump) :
    BlockInv (advanceChunk s) := by
  have hbusy : s.enc ≠ .idle := by simp [henc]
  have hdims := h.job_dims hbusy
  obtain ⟨hchunk, htr, htc, hy, hx⟩ := h.full_place henc
  obtain ⟨hnext, hphase⟩ := advanceChunk_phase s hchunk
  have hearly : s.seq = .data ∨ s.seq = .idle := hseq.imp_right h.dump_seq
  exact {
    cb_wf := rfl
    idle_blank := fun hn => by rw [hn] at hphase; simp at hphase
    job_dims := fun _ => hdims
    fill_place := fun hf => by
      rw [hf] at hphase
      obtain ⟨⟨⟩, -⟩ | ⟨-, hmore⟩ := hphase
      rw [advanceChunk_tr, advanceChunk_tc, htc, hnext]
      exact ⟨hnext ▸ hmore, by omega, by rw [advanceChunk_imgW, BitVec.toNat_ofNat]; omega⟩
    full_place := fun hf => by rw [hf] at hphase; simp at hphase
    done_place := fun hd => by
      rw [hd] at hphase
      obtain ⟨-, hlast⟩ | ⟨⟨⟩, -⟩ := hphase
      rw [hlast] at hnext
      exact ⟨hlast, by rw [advanceChunk_tr, advanceChunk_nchunk]; omega, htc, hy, hx, rfl⟩
    dump_seq := h.dump_seq
    print_seq := fun hm _ => h.print_seq hm hbusy
    ready_chunk := fun hr => by simp [show s.seq = .ready from hr] at hearly
    late_seq := fun hl => by
      rw [advanceChunk_seq] at hl
      rcases hearly with e | e <;> simp [e] at hl
    report_count := h.report_count
    fill_unwritten := fun _ _ _ => rfl
    reserved_bits := reservedBits _
    err_codes := h.err_codes }

/-- A block with a phase of a print job is neither idle nor dumping (items 1 and 6). -/
theorem busy_printing_of_seq (h : BlockInv s) (hseq : s.seq ≠ .idle) : s.enc ≠ .idle ∧ s.mode ≠ .dump :=
  ⟨fun hi => hseq (h.idle_blank hi).1, fun hm => hseq (h.dump_seq hm)⟩

/-- `SEQ` and `RPT` of a running print job may move to any values that items 7 and 8 allow. -/
theorem blockInv_setSeq (h : BlockInv s) (hseq : s.seq ≠ .idle) (q : SeqPhase) (n : BitVec 4)
    (hq : q = .data ∨ (q = .emptied ∨ q = .report ∨ q = .done) ∧ s.enc = .done)
    (hn : (q = .report → n.toNat ≤ 9) ∧ (q = .done → n.toNat = 10) ∧ (q ≠ .report → q ≠ .done → n = 0#4)) :
    BlockInv { s with seq := q, rpt := n } := by
  obtain ⟨hbusy, hprint⟩ := busy_printing_of_seq h hseq
  exact { h with
    idle_blank := fun hi => absurd hi hbusy
    dump_seq := fun hm => absurd hm hprint
    print_seq := fun _ _ hi => by simp [show q = .idle from hi] at hq
    ready_chunk := fun hr => by simp [show q = .ready from hr] at hq
    late_seq := fun hl => by
      rcases hq with hq | ⟨-, hd⟩
      · simp [show q = .data from hq] at hl
      · exact hd
    report_count := hn
    reserved_bits := reservedBits _ }

/-- One more REPORT, the tenth included (R150), keeps the invariant. -/
theorem blockInv_countReport (h : BlockInv s) (hseq : s.seq = .report) : BlockInv (countReport s) := by
  have hdone : s.enc = .done := h.late_seq (.inr (.inl hseq))
  have h9 : s.rpt.toNat ≤ 9 := h.report_count.1 hseq
  have hnext : (s.rpt + 1#4).toNat = s.rpt.toNat + 1 := toNat_add_one_of_lt _ (by omega)
  refine blockInv_setSeq h (by simp [hseq]) _ _ (.inr ⟨?_, hdone⟩) ?_
  · split_ifs <;> simp [hseq]
  · split_ifs with h10
    · exact ⟨nofun, fun _ => h10, fun _ hnd => absurd rfl hnd⟩
    · simp only [Config.reportCount] at h10
      exact ⟨fun _ => by omega, fun hd => (nomatch hseq.symm.trans hd), fun hnr => absurd hseq hnr⟩

end

/-! ## Every operation and every step -/

/-- The operations that send a frame do so in a print job (60_exceptions.md R180). -/
theorem seq_ne_idle_of_frame (i : Instr) (s : State) (hf : (frameOf i s).isSome) (hp : Pre i s) : s.seq ≠ .idle := by
  rcases frameOf_isSome i s hf with rfl | rfl | rfl | rfl | rfl <;> simp only [Pre] at hp <;> simp [hp]

/-- The registers and the surroundings that a frame or a dump moves, byte by byte, are none that R39 restricts in a
job that has begun. -/
theorem blockInv_exchanged (s : State) (h : BlockInv s) (henc : s.enc ≠ .idle) (cks : Half) (rsp1 rsp2 : Byte)
    (stuck : Bool) (hist : List Event) (xs : List XferAnswer) (ps : List PutAnswer) :
    BlockInv { s with
      cks := cks, rsp1 := rsp1, rsp2 := rsp2, stuck := stuck, hist := hist, xferAnswers := xs, putAnswers := ps } :=
  blockInv_setSurroundings (blockInv_setLinkRegisters h henc cks rsp1 rsp2) s.port xs ps stuck hist s.reads

/-- A FRAME operation whose bytes are all answered keeps the invariant. -/
theorem blockInv_sentFrame (i : Instr) (s : State) (h : BlockInv s) (cmd comp : Byte) (pl rs : List Byte)
    (rest : List XferAnswer) (hf : (frameOf i s).isSome) (hp : Pre i s) :
    BlockInv (sentFrame i (afterFrame cmd comp pl rs rest s)) := by
  have hseq := seq_ne_idle_of_frame i s hf hp
  have hrpt := h.report_count.2.2
  have hu : BlockInv (afterFrame cmd comp pl rs rest s) :=
    blockInv_exchanged s h (busy_printing_of_seq h hseq).1 _ _ _ s.stuck _ rest s.putAnswers
  rcases frameOf_isSome i s hf with rfl | rfl | rfl | rfl | rfl <;> simp only [Pre] at hp
  · exact blockInv_setSeq hu hseq .data s.rpt (.inl rfl) (by simpa [hp] using hrpt)
  · exact blockInv_advanceChunk hu hp.2 (.inl hp.1)
  · exact blockInv_setSeq hu hseq .emptied s.rpt (.inr ⟨by simp, hp.2⟩) (by simpa [hp] using hrpt)
  · exact blockInv_setSeq hu hseq .report 0#4 (.inr ⟨by simp, h.late_seq (.inl hp)⟩) (by simp)
  · exact blockInv_countReport hu hp

/-- Every operation, whatever the transport answers, keeps the invariant. -/
theorem blockInv_exec (i : Instr) (s t : State) (h : BlockInv s) (he : exec i s = .next t) : BlockInv t := by
  cases exec_does i s t he with
  | ignored | read => exact { h with }
  | badPhase => exact blockInv_setErr h _ (by simp)
  | rst => exact blockInv_of_isReset _ (isReset_resetBlock s) rfl
  | setw v _ _ hidle => exact blockInv_setDimensions h hidle v s.imgH
  | seth v _ _ hidle => exact blockInv_setDimensions h hidle s.imgW v
  | badStart d e _ _ _ hcode => exact blockInv_setErr h e (by rcases hcode with rfl | rfl <;> simp)
  | start d _ _ _ hd hc => exact blockInv_startedJob d s h hd hc
  | pixel p _ _ hfill => exact blockInv_setPixelRegisters h hfill _ _ _
  | pixelRow lo hi _ _ hfill ha =>
    have hrow := rowCommitted_advance s lo hi h.cb_wf ha
    obtain ⟨hwf, -⟩ := s.cb.write_row (rowAddress s) lo hi h.cb_wf ha
    exact blockInv_of_rowCommitted s _ h hfill lo hi hrow (by rw [advance_cb]; exact hwf)
  | pixelRowNowhere lo hi _ _ hfill ha =>
    have hdims := h.job_dims (by simp [hfill])
    have hplace := h.fill_place hfill
    have := rowAddress_lt s (by omega)
    omega
  | frame cmd comp pl rs rest hf _ hp =>
    exact blockInv_sentFrame i s h cmd comp pl rs rest (by simp [hf]) hp
  | frameFails cks evs rest hf _ hp =>
    have hbusy := (busy_printing_of_seq h (seq_ne_idle_of_frame i s hf hp)).1
    exact blockInv_setErr (blockInv_exchanged s h hbusy cks s.rsp1 s.rsp2 s.stuck _ rest s.putAnswers) _ (by simp)
  | frameSilent cks evs rest hf _ hp =>
    have hbusy := (busy_printing_of_seq h (seq_ne_idle_of_frame i s hf hp)).1
    exact blockInv_exchanged s h hbusy cks s.rsp1 s.rsp2 true _ rest s.putAnswers
  | dump rest hi _ hp =>
    subst hi
    obtain ⟨hdump, hfull⟩ : s.mode = .dump ∧ s.enc = .full := hp
    exact blockInv_advanceChunk { h with } hfull (.inr hdump)
  | dumpFails evs rest => exact blockInv_setErr (s := { s with hist := _, putAnswers := rest }) { h with } _ (by simp)
  | dumpSilent evs rest => exact { h with }
  | badAddress => exact blockInv_raise h _ (by simp)

/-- Every step of the block keeps the invariant. -/
theorem blockInv_step (s t : State) (h : BlockInv s) (hs : step s = .next t) : BlockInv t := by
  have hport : ∀ rest, BlockInv { s with port := rest } := fun rest => { h with }
  rcases step_cases s with ⟨-, e⟩ | ⟨rest, -, e⟩ | ⟨w, rest, -, -, e⟩ | ⟨w, rest, i, -, -, -, e⟩
    | ⟨w, rest, _, -, -, -, e⟩ <;> rw [e] at hs
  · cases hs; exact h
  · cases hs; exact blockInv_of_isReset _ { isReset_resetBlock { s with port := rest } with } rfl
  · cases hs; exact h
  · exact blockInv_exec i _ t (hport rest) hs
  · cases hs; exact blockInv_raise (hport rest) _ (by simp)

/-- Settles O51, by induction on the run. -/
theorem reachableStatesHaveTheInvariant : Obligations.ReachableStatesHaveTheInvariant := by
  intro s hs
  induction hs with
  | reset => exact blockInv_of_isReset _ isReset_reset rfl
  | step s t port xs ps _ hstep ih =>
    exact blockInv_step _ t (blockInv_setSurroundings ih port xs ps s.stuck s.hist s.reads) hstep

end Sys2Proof.Proofs
end

section
/-! PROOFS. The operation words (30_encoding.md): the decoder against the opcode table (R85), the illegal words (R90),
and the worked encodings (R95). -/

namespace Sys2Proof.Proofs

open Sys2Proof.Machine Sys2Proof.Safety

/-! ## Fields of a word (R80, R81): a mask of the spec and a slice of the decoder read the same bits -/

/-- The mask of the `len` bits of a word from bit `lo` up. -/
def fieldMask (lo len : Nat) : OpWord := (BitVec.allOnes len).setWidth 32 <<< lo

/-- Masking keeps one field of the word, in place. -/
theorem and_fieldMask (w : OpWord) (lo len : Nat) :
    w &&& fieldMask lo len = (w.extractLsb' lo len).setWidth 32 <<< lo := by
  apply BitVec.eq_of_getLsbD_eq
  intro i hi
  by_cases hlo : i < lo
  · simp [fieldMask, hi, hlo]
  · have hin : lo + (i - lo) = i := by omega
    simp [fieldMask, hi, hlo, hin, Bool.and_comm]

theorem toNat_and_fieldMask (w : OpWord) (len : Nat) (h : len ≤ 32) :
    (w &&& fieldMask 0 len).toNat = (w.extractLsb' 0 len).toNat := by
  have hlt := (w.extractLsb' 0 len).isLt.trans_le (Nat.pow_le_pow_right (by decide) h)
  rw [and_fieldMask, BitVec.shiftLeft_zero, BitVec.toNat_setWidth, Nat.mod_eq_of_lt hlt]

theorem and_fieldMask_eq_zero_iff (w : OpWord) (lo len : Nat) (h : lo + len ≤ 32) :
    w &&& fieldMask lo len = 0#32 ↔ w.extractLsb' lo len = 0#len := by
  rw [and_fieldMask]
  refine ⟨fun hz => BitVec.eq_of_getLsbD_eq fun i hi => ?_, fun hz => by simp [hz]⟩
  have hbit := congrArg (·.getLsbD (lo + i)) hz
  have hin : lo + i < 32 := by omega
  simpa [hin, hi] using hbit

theorem toNat_opcField (w : OpWord) : (opcField w).toNat = (w >>> 28).toNat := by
  have := w.isLt
  simp only [opcField, BitVec.extractLsb'_toNat, BitVec.toNat_ushiftRight, Nat.shiftRight_eq_div_pow]
  omega

theorem extractLsb'_argField (w : OpWord) (lo len : Nat) (h : lo + len ≤ 28) :
    (argField w).extractLsb' lo len = w.extractLsb' lo len := by
  apply BitVec.eq_of_getLsbD_eq
  intro i hi
  have hin : lo + i < 28 := by omega
  simp [argField, hi, hin]

/-- The decoder's test of the bits of `arg` from `n` up is the mask's (R81). -/
theorem extractLsb'_argField_eq_zero_iff (w : OpWord) (n len : Nat) (h : n + len = 28) :
    (argField w).extractLsb' n len = 0#len ↔ w &&& fieldMask n len = 0#32 := by
  rw [extractLsb'_argField w n len h.le, and_fieldMask_eq_zero_iff w n len (by omega)]

theorem argField_eq_zero_iff (w : OpWord) : argField w = 0#28 ↔ w &&& fieldMask 0 28 = 0#32 :=
  (and_fieldMask_eq_zero_iff w 0 28 (by decide)).symm

/-- `k` of a FRAME word and `a` of an RDCB word, under the mask of R85 and R90 and as the decoder slices them. -/
theorem toNat_and_operandMask (w : OpWord) (n : Nat) (h : n ≤ 28) :
    (w &&& fieldMask 0 n).toNat = ((argField w).extractLsb' 0 n).toNat := by
  rw [toNat_and_fieldMask w n (by omega), extractLsb'_argField w 0 n (by omega)]

/-! ## What the decoder answers (R91), in the terms of the table (R85) and of the illegal words (R90) -/

/-- R86: the kinds 0 to 4 name the rows of FRAME, the others are reserved. -/
theorem frameOfBits_cases (k : BitVec 3) :
    (k = 0#3 ∧ frameOfBits k = .legal .frameInit) ∨ (k = 1#3 ∧ frameOfBits k = .legal .frameData)
      ∨ (k = 2#3 ∧ frameOfBits k = .legal .frameEmpty) ∨ (k = 3#3 ∧ frameOfBits k = .legal .framePrint)
      ∨ (k = 4#3 ∧ frameOfBits k = .legal .frameReport)
      ∨ (5 ≤ k.toNat ∧ frameOfBits k = .illegal .reservedFrameKind) := by
  revert k; decide

/-- R90 item 3. -/
theorem reservedKind_of_illegal (k : BitVec 3) (e : DecodeError) (h : frameOfBits k = .illegal e) : 5 ≤ k.toNat := by
  rcases frameOfBits_cases k with ⟨-, hl⟩ | ⟨-, hl⟩ | ⟨-, hl⟩ | ⟨-, hl⟩ | ⟨-, hl⟩ | ⟨h5, -⟩
  case inr.inr.inr.inr.inr => exact h5
  all_goals cases hl.symm.trans h

/-- A FRAME row is one word: the opcode and the kind. -/
theorem frameRow_of_legal (k : BitVec 3) (i : Instr) (h : frameOfBits k = .legal i) :
    ∃ r ∈ opcodeTable, r.mnemonic = mnemonicOf i ∧ r.mnemonic ≠ "RDCB"
      ∧ r.mask = 0xFFFFFFFF ∧ r.pattern = 0x60000000 ||| k.setWidth 32 := by
  rcases frameOfBits_cases k with ⟨rfl, e⟩ | ⟨rfl, e⟩ | ⟨rfl, e⟩ | ⟨rfl, e⟩ | ⟨rfl, e⟩ | ⟨-, e⟩ <;>
    rw [e] at h <;> cases h
  · exact ⟨⟨"FRAME.INIT", 0x60000000, 0xFFFFFFFF⟩, by decide⟩
  · exact ⟨⟨"FRAME.DATA", 0x60000001, 0xFFFFFFFF⟩, by decide⟩
  · exact ⟨⟨"FRAME.EMPTY", 0x60000002, 0xFFFFFFFF⟩, by decide⟩
  · exact ⟨⟨"FRAME.PRINT", 0x60000003, 0xFFFFFFFF⟩, by decide⟩
  · exact ⟨⟨"FRAME.REPORT", 0x60000004, 0xFFFFFFFF⟩, by decide⟩

section
variable {w : OpWord} {k n len : Nat}

theorem legal_of_ifMbzZero {d : Decoded} {i : Instr}
    (h : ifMbzZero (decide (w &&& fieldMask n len = 0#32)) d = .legal i) :
    w &&& fieldMask n len = 0#32 ∧ d = .legal i := by
  by_cases hz : w &&& fieldMask n len = 0#32 <;> simp_all [ifMbzZero]

/-- R90 item 2: a refused word has an MBZ bit set, or its opcode refuses its operand. -/
theorem illegalByR90_of_ifMbzZero {d : Decoded} {e : DecodeError} (hk : (w >>> 28).toNat = k)
    (h : ifMbzZero (decide (w &&& fieldMask n len = 0#32)) d = .illegal e) (hmbz : mbzMask k = fieldMask n len)
    (hd : d = .illegal e → IllegalByR90 w) : IllegalByR90 w := by
  by_cases hz : w &&& fieldMask n len = 0#32
  · exact hd (by simpa [ifMbzZero, hz] using h)
  · exact .inr (.inl (by rw [hk, hmbz]; exact hz))

/-- The opcode of a word and its MBZ bits, all zero, under one mask. -/
theorem and_rowMask (hk : (w >>> 28).toNat = k) (hz : w &&& fieldMask n len = 0#32) :
    w &&& (fieldMask 28 4 ||| fieldMask n len) = BitVec.ofNat 32 k <<< 28 := by
  have hopc : w &&& fieldMask 28 4 = (w >>> 28) <<< 28 :=
    (BitVec.shiftLeft_ushiftRight (x := w) (n := 28)).symm
  rw [BitVec.and_or_distrib_left, hopc, hz, BitVec.or_zero, ← hk, BitVec.ofNat_toNat, BitVec.setWidth_eq]

/-- A word that its opcode and its MBZ bits make legal selects the row with that mask. -/
theorem selectedRow_of_ifMbzZero {j i : Instr} (hk : (w >>> 28).toNat = k)
    (h : ifMbzZero (decide (w &&& fieldMask n len = 0#32)) (.legal j) = .legal i) (r : TableRow)
    (hj : r.mnemonic = mnemonicOf j) (hr : r ∈ opcodeTable ∧ r.mnemonic ≠ "RDCB"
      ∧ r.mask = fieldMask 28 4 ||| fieldMask n len ∧ r.pattern = BitVec.ofNat 32 k <<< 28) :
    ∃ r ∈ opcodeTable, r.mnemonic = mnemonicOf i ∧ Selects w r := by
  obtain ⟨hmem, hrdcb, hmask, hpattern⟩ := hr
  obtain ⟨hz, ⟨⟩⟩ := legal_of_ifMbzZero h
  exact ⟨r, hmem, hj, by rw [hmask, hpattern, and_rowMask hk hz], fun e => absurd e hrdcb⟩

end

/-- A legal word selects the row of its operation (R85). -/
theorem selectedRow_of_legal (w : OpWord) (i : Instr) (h : decodeWord w = .legal i) :
    ∃ r ∈ opcodeTable, r.mnemonic = mnemonicOf i ∧ Selects w r := by
  simp only [decodeWord, extractLsb'_argField_eq_zero_iff, argField_eq_zero_iff, toNat_opcField] at h
  split at h
  case h_1 hk => exact selectedRow_of_ifMbzZero hk h ⟨"RST", 0x00000000, 0xFFFFFFFF⟩ rfl (by decide)
  case h_2 hk => exact selectedRow_of_ifMbzZero hk h ⟨"SETW", 0x10000000, 0xFFFFFF00⟩ rfl (by decide)
  case h_3 hk => exact selectedRow_of_ifMbzZero hk h ⟨"SETH", 0x20000000, 0xFFFFFF00⟩ rfl (by decide)
  case h_4 hk => exact selectedRow_of_ifMbzZero hk h ⟨"START", 0x30000000, 0xFFFFFFFE⟩ rfl (by decide)
  case h_5 hk => exact selectedRow_of_ifMbzZero hk h ⟨"PIX", 0x40000000, 0xFFFFFFF8⟩ rfl (by decide)
  case h_6 hk => exact selectedRow_of_ifMbzZero hk h ⟨"ROW", 0x50000000, 0xFF000000⟩ rfl (by decide)
  case h_7 hk =>
    obtain ⟨hz, hframe⟩ := legal_of_ifMbzZero h
    obtain ⟨r, hmem, hi, hrdcb, hmask, hpattern⟩ := frameRow_of_legal _ i hframe
    have hfields : r.mask = fieldMask 28 4 ||| fieldMask 3 25 ||| fieldMask 0 3 := hmask
    refine ⟨r, hmem, hi, ?_, fun e => absurd e hrdcb⟩
    rw [hfields, hpattern, BitVec.and_or_distrib_left, and_rowMask hk hz, and_fieldMask, BitVec.shiftLeft_zero,
      extractLsb'_argField w 0 3 (by decide)]
    rfl
  case h_8 hk => exact selectedRow_of_ifMbzZero hk h ⟨"DUMP", 0x70000000, 0xFFFFFFFF⟩ rfl (by decide)
  case h_9 hk => exact selectedRow_of_ifMbzZero hk h ⟨"RD", 0x80000000, 0xFFFFFFF8⟩ rfl (by decide)
  case h_10 hk =>
    obtain ⟨hz, hrdcb⟩ := legal_of_ifMbzZero h
    split at hrdcb <;> cases hrdcb
    next ha =>
      have ha' : (w &&& 0x3FF).toNat < 640 := (toNat_and_operandMask w 10 (by decide)).trans_lt ha
      exact ⟨⟨"RDCB", 0x90000000, 0xFFFFFC00⟩, by decide, rfl, and_rowMask hk hz, fun _ => ha'⟩
  case h_11 => cases h

/-- A refused word is of one of the four kinds of R90. -/
theorem illegalByR90_of_illegal (w : OpWord) (e : DecodeError) (h : decodeWord w = .illegal e) : IllegalByR90 w := by
  simp only [decodeWord, extractLsb'_argField_eq_zero_iff, argField_eq_zero_iff, toNat_opcField] at h
  split at h
  case h_7 hk =>
    refine illegalByR90_of_ifMbzZero hk h rfl fun hframe => .inr (.inr (.inl ⟨hk, ?_⟩))
    exact (reservedKind_of_illegal _ e hframe).trans_eq (toNat_and_operandMask w 3 (by decide)).symm
  case h_10 hk =>
    refine illegalByR90_of_ifMbzZero hk h rfl fun hrdcb => .inr (.inr (.inr ⟨hk, ?_⟩))
    split at hrdcb <;> cases hrdcb
    next ha => exact (Nat.le_of_not_lt ha).trans_eq (toNat_and_operandMask w 10 (by decide)).symm
  case h_11 => exact .inl (by simp only [imp_false] at *; omega)
  all_goals exact illegalByR90_of_ifMbzZero ‹_› h rfl nofun

/-! ## The opcode table (R85) -/

theorem opcodeTable_mnemonics_distinct :
    ∀ r ∈ opcodeTable, ∀ r' ∈ opcodeTable, r.mnemonic = r'.mnemonic → r = r' := by decide

theorem opcodeTable_rows_disagree :
    ∀ r ∈ opcodeTable, ∀ r' ∈ opcodeTable, r.pattern &&& r'.mask = r'.pattern &&& r.mask → r = r' := by decide

/-- A word selects at most one row. -/
theorem selectedRow_unique (w : OpWord) (r r' : TableRow) (hr : r ∈ opcodeTable) (hr' : r' ∈ opcodeTable)
    (h : Selects w r) (h' : Selects w r') : r = r' := by
  refine opcodeTable_rows_disagree r hr r' hr' ?_
  rw [← h.1, ← h'.1, BitVec.and_assoc, BitVec.and_assoc, BitVec.and_comm r.mask]

/-- Each row's mask covers the opcode, the MBZ bits and the frame kind, and what its pattern has there is legal (R90
items 1 to 3); item 4 is left to the condition of the RDCB row. -/
theorem opcodeTable_patterns_legal : ∀ r ∈ opcodeTable,
    opcField r.mask = 15#4 ∧ (r.pattern >>> 28).toNat < 0xA
      ∧ r.mask &&& mbzMask (r.pattern >>> 28).toNat = mbzMask (r.pattern >>> 28).toNat
      ∧ r.pattern &&& mbzMask (r.pattern >>> 28).toNat = 0
      ∧ ((r.pattern >>> 28).toNat = 0x6 → r.mask &&& 0x7 = 0x7 ∧ (r.pattern &&& 0x7).toNat < 5)
      ∧ ((r.pattern >>> 28).toNat = 0x9 → r.mnemonic = "RDCB") := by decide

/-- A mask within another reads the pattern that the other read. -/
theorem and_submask {w m p l : OpWord} (h : w &&& m = p) (hl : m &&& l = l) : w &&& l = p &&& l := by
  rw [← h, BitVec.and_assoc, hl]

/-- A mask that covers bits 31:28 keeps the opcode. -/
theorem opcode_of_and_eq {w m p : OpWord} (h : w &&& m = p) (hm : opcField m = 15#4) :
    (w >>> 28).toNat = (p >>> 28).toNat := by
  have hand : opcField (w &&& m) = opcField w &&& opcField m := BitVec.extractLsb'_and
  rw [← toNat_opcField, ← toNat_opcField, ← h, hand, hm]
  exact congrArg BitVec.toNat BitVec.and_allOnes.symm

/-- No word of a row is of one of the four kinds of R90. -/
theorem not_illegalByR90_of_selects (w : OpWord) (r : TableRow) (hr : r ∈ opcodeTable) (h : Selects w r) :
    ¬ IllegalByR90 w := by
  obtain ⟨hmask, haddress⟩ := h
  obtain ⟨hopc, hassigned, hmbz, hzero, hkind, hrdcb⟩ := opcodeTable_patterns_legal r hr
  unfold IllegalByR90
  rw [opcode_of_and_eq hmask hopc]
  rintro (hunassigned | hset | ⟨h6, hreserved⟩ | ⟨h9, hbeyond⟩)
  · omega
  · exact hset ((and_submask hmask hmbz).trans hzero)
  · obtain ⟨hcover, hlt⟩ := hkind h6
    rw [and_submask hmask hcover] at hreserved
    omega
  · have := haddress (hrdcb h9)
    omega

/-! ## The decoder against the table and against R90 -/

/-- Every 32-bit word that selects no row is illegal (R85). -/
theorem illegal_of_selects_none (w : OpWord) (h : ∀ r ∈ opcodeTable, ¬ Selects w r) :
    ∃ e, decodeWord w = .illegal e := by
  cases hd : decodeWord w with
  | legal i =>
    obtain ⟨r, hr, -, hs⟩ := selectedRow_of_legal w i hd
    exact absurd hs (h r hr)
  | illegal e => exact ⟨e, rfl⟩

/-- Settles O3: a legal word selects the row of its operation, an illegal word none, and no two rows share a word or a
mnemonic. -/
theorem decodeAgreesWithOpcodeTable : Obligations.DecodeAgreesWithOpcodeTable := by
  refine ⟨fun r hr w => ⟨fun h => ?_, fun ⟨i, hi, hm⟩ => ?_⟩, fun w => ⟨fun ⟨e, he⟩ r hr h => ?_, ?_⟩⟩
  · cases hd : decodeWord w with
    | legal i =>
      obtain ⟨r', hr', hm, h'⟩ := selectedRow_of_legal w i hd
      exact ⟨i, rfl, by rw [selectedRow_unique w r r' hr hr' h h', hm]⟩
    | illegal e => exact absurd (illegalByR90_of_illegal w e hd) (not_illegalByR90_of_selects w r hr h)
  · obtain ⟨r', hr', hm', h'⟩ := selectedRow_of_legal w i hi
    rwa [opcodeTable_mnemonics_distinct r hr r' hr' (by rw [hm', hm])]
  · exact not_illegalByR90_of_selects w r hr h (illegalByR90_of_illegal w e he)
  · exact illegal_of_selects_none w

/-- Settles O4: a word of the four kinds selects no row of the table, so the decoder refuses it; executing a refused
word raises `IllegalOperation`, which writes `ERR` only. -/
theorem illegalWordsAreTheFourKinds : Obligations.IllegalWordsAreTheFourKinds := by
  intro w
  have hrefused (hw : IllegalByR90 w) : ∃ e, decodeWord w = .illegal e :=
    illegal_of_selects_none w fun r hr hs => not_illegalByR90_of_selects w r hr hs hw
  refine ⟨⟨fun ⟨e, he⟩ => illegalByR90_of_illegal w e he, hrefused⟩, fun hw s => ?_⟩
  obtain ⟨e, he⟩ := hrefused hw
  simp only [execWord, he, illegalWord, raise]

/-- Settles O5, by running the decoder on the thirteen words of R95. -/
theorem workedEncodingsDecode : Obligations.WorkedEncodingsDecode := by
  unfold Obligations.WorkedEncodingsDecode
  decide

end Sys2Proof.Proofs
end

section
/-! PROOFS. The tile encoder (41_tile_encoder.md): the colour code (R121), the shift registers (R122, R123), and the
law of a tile (R128). -/

namespace Sys2Proof.Proofs

open Sys2Proof.Machine Sys2Proof.Safety Sys2Proof.Laws

/-! ## The colour code (R121) -/

/-- The table of R121 as its two equations. -/
theorem colourCode_eq (p : Pixel) : colourCode p = (p.m && !p.idx.getLsbD 0, p.m && !p.idx.getLsbD 1) := by
  obtain ⟨m, idx⟩ := p
  cases m with
  | false => rfl
  | true => revert idx; decide

/-- Settles O22: the table is read off the model, and the two equations make the matched code `3 - idx`. -/
theorem colourCodeFollowsTheTable : Obligations.ColourCodeFollowsTheTable := by
  refine ⟨⟨rfl, rfl, rfl, rfl⟩, fun _ => rfl, colourCode_eq, fun idx => ?_⟩
  rw [colourCode_eq]
  revert idx
  decide

/-! ## The shift registers (R122, R123) -/

/-- The shift register of a plane: `LO` of plane 0, `HI` of plane 1 (R122). -/
def planeRegister (plane : Nat) (s : State) : Byte := if plane = 0 then s.lo else s.hi

theorem planeRegister_shiftIn (plane : Nat) (p : Pixel) (s : State) :
    planeRegister plane (shiftIn p s) = shiftBit (planeRegister plane s) (planeBit plane p) := by
  unfold planeRegister planeBit
  split_ifs <;> rfl

theorem getLsbD_shiftBit_zero (r : Byte) (b : Bool) : (shiftBit r b).getLsbD 0 = b := by
  simp [shiftBit]

theorem getLsbD_shiftBit_succ (r : Byte) (b : Bool) (i : Nat) (h : i + 1 < 8) :
    (shiftBit r b).getLsbD (i + 1) = r.getLsbD i := by
  simp [shiftBit, h, BitVec.getLsbD_eq_getElem (show i < 8 by omega)]

theorem shiftInAll_append (ps qs : List Pixel) (s : State) :
    shiftInAll (ps ++ qs) s = shiftInAll qs (shiftInAll ps s) :=
  List.foldl_append

/-- Of at most eight pixels shifted in, the last is in bit 0 and each one before it is one bit higher. -/
theorem getLsbD_planeRegister_shiftInAll (plane : Nat) (ps : List Pixel) (s : State) (hlen : ps.length ≤ 8) (j : Nat)
    (hj : j < ps.length) :
    (planeRegister plane (shiftInAll ps s)).getLsbD (ps.length - 1 - j) = planeBit plane ps[j] := by
  induction ps using List.reverseRecOn with
  | nil => cases hj
  | append_singleton ps p ih =>
    rw [List.length_append, List.length_singleton] at hlen hj
    simp only [shiftInAll_append, shiftInAll_cons, shiftInAll_nil, planeRegister_shiftIn, List.length_append,
      List.length_singleton]
    by_cases hlast : j = ps.length
    · subst hlast
      rw [Nat.add_sub_cancel, Nat.sub_self, getLsbD_shiftBit_zero, List.getElem_concat_length rfl]
    · have hshift : ps.length + 1 - 1 - j = (ps.length - 1 - j) + 1 := by omega
      rw [hshift, getLsbD_shiftBit_succ _ _ _ (by omega), ih (by omega) (by omega),
        List.getElem_append_left (by omega)]

/-- A byte as the number its bits write. -/
theorem byte_toNat_eq_bits (b : Byte) :
    b.toNat = 128 * (b.getLsbD 7).toNat + 64 * (b.getLsbD 6).toNat + 32 * (b.getLsbD 5).toNat
      + 16 * (b.getLsbD 4).toNat + 8 * (b.getLsbD 3).toNat + 4 * (b.getLsbD 2).toNat + 2 * (b.getLsbD 1).toNat
      + (b.getLsbD 0).toNat := by
  revert b; decide

/-- R123: eight pixels replace all eight bits of a plane's register. -/
theorem toNat_planeRegister_shiftInAll (plane : Nat) (ps : List Pixel) (s : State) (hlen : ps.length = 8) :
    (planeRegister plane (shiftInAll ps s)).toNat = planeSum plane ps := by
  have hbit : ∀ j < 8, (planeRegister plane (shiftInAll ps s)).getLsbD (7 - j)
      = planeBit plane (ps.getD j ⟨false, 0⟩) := by
    intro j hj
    rw [List.getD_eq_getElem _ _ (by omega), ← getLsbD_planeRegister_shiftInAll plane ps s (by omega) j, hlen]
  simp only [byte_toNat_eq_bits, planeSum, ← hbit, Nat.reduceLT, Nat.reduceSub]

/-- Settles O23: one step by `shiftBit_toNat`, eight steps bit by bit. -/
theorem shiftInDoublesAndAddsTheBit : Obligations.ShiftInDoublesAndAddsTheBit := by
  refine ⟨fun p s => ⟨_, _, rfl, shiftBit_toNat _ _, shiftBit_toNat _ _⟩, fun row s x hx => ?_⟩
  have hbit : ∀ plane, (planeRegister plane (shiftInAll ((List.range 8).map row) s)).getLsbD (7 - x)
      = planeBit plane (row x) := fun plane => by
    have h := getLsbD_planeRegister_shiftInAll plane ((List.range 8).map row) s (by simp) x (by simpa using hx)
    rw [List.getElem_map, List.getElem_range] at h
    exact h
  exact ⟨hbit 0, hbit 1⟩

/-- Settles O24: the row law of each plane's register, and the frame of the shifts. -/
theorem eightShiftsMakeThePlaneBytes : Obligations.EightShiftsMakeThePlaneBytes := by
  intro p0 p1 p2 p3 p4 p5 p6 p7 s
  refine ⟨_, rfl, toNat_planeRegister_shiftInAll 0 _ s rfl, toNat_planeRegister_shiftInAll 1 _ s rfl, ?_⟩
  obtain ⟨lo, hi, hs⟩ := shiftInAll_frame [p0, p1, p2, p3, p4, p5, p6, p7] s
  rw [hs]

/-! ## One pixel row: a ROW, and the eight PIX of its pixels (R126, R127) -/

/-- A ROW in a tile column that exists commits the plane bytes of its pixels. -/
theorem exec_row_commits (p0 p1 p2 p3 p4 p5 p6 p7 : Pixel) (s : State) (herr : s.err = .noError) (henc : s.enc = .fill)
    (hx : s.x = 0#3) (htc : s.tc.toNat ≤ 19) (hwf : s.cb.wf = true) :
    ∃ (t : State) (lo hi : Byte), exec (.row p0 p1 p2 p3 p4 p5 p6 p7) s = .next t ∧ RowCommitted lo hi s t
      ∧ t.cb.wf = true ∧ lo.toNat = planeSum 0 [p0, p1, p2, p3, p4, p5, p6, p7]
      ∧ hi.toNat = planeSum 1 [p0, p1, p2, p3, p4, p5, p6, p7] := by
  obtain ⟨lo, hi, hs, hrow⟩ := exec_row_completes p0 p1 p2 p3 p4 p5 p6 p7 s herr henc hx htc
  have ha := rowAddress_lt s htc
  obtain ⟨hwf', -⟩ := s.cb.write_row (rowAddress s) lo hi hwf ha
  have hsum : ∀ plane, (planeRegister plane { s with lo := lo, hi := hi }).toNat
      = planeSum plane [p0, p1, p2, p3, p4, p5, p6, p7] := fun plane => by
    rw [← hs]; exact toNat_planeRegister_shiftInAll plane _ s rfl
  exact ⟨_, lo, hi, hrow, rowCommitted_advance s lo hi hwf ha, by rw [advance_cb]; exact hwf', hsum 0, hsum 1⟩

/-- The state with `v` as the pixel counter `X`. -/
def setX (v : BitVec 3) (s : State) : State := { s with x := v }

theorem shiftInAll_setX (ps : List Pixel) (v : BitVec 3) (s : State) :
    shiftInAll ps (setX v s) = setX v (shiftInAll ps s) := by
  induction ps generalizing s with
  | nil => rfl
  | cons p ps ih => exact ih (shiftIn p s)

theorem memWrite_setX (a : Nat) (b : Byte) (v : BitVec 3) (s : State) :
    memWrite a b (setX v s) = setX v (memWrite a b s) := by
  unfold memWrite
  split <;> rfl

/-- Where a row is committed does not depend on `X` (R124). -/
theorem commitRow_setX (v : BitVec 3) (s : State) : commitRow (setX v s) = setX v (commitRow s) := by
  calc commitRow (setX v s)
    _ = memWrite (rowAddress s + 1) s.hi (memWrite (rowAddress s) s.lo (setX v s)) := rfl
    _ = setX v (commitRow s) := by rw [memWrite_setX, memWrite_setX, commitRow]

/-- Nor does the place that comes next (R125). -/
theorem advance_commitRow_setX (v : BitVec 3) (s : State) :
    advance (commitRow (setX v s)) = advance (commitRow s) := by
  rw [commitRow_setX]
  rfl

/-- A PIX that does not complete its row shifts its pixel in and counts it. -/
theorem exec_pix_inside (p : Pixel) (s : State) (herr : s.err = .noError) (henc : s.enc = .fill)
    (hx : s.x.toNat < 7) : exec (.pix p) s = .next (setX (s.x + 1#3) (shiftIn p s)) := by
  rw [exec_pix, prologue_of_pre _ _ _ herr (by simpa using henc), if_pos hx]
  rfl

/-- The PIX operations that take the rest of a pixel row shift their pixels in and commit the row. -/
theorem runAll_pix_rest_of_row (p : Pixel) (ps : List Pixel) (s : State) (herr : s.err = .noError)
    (henc : s.enc = .fill) (hx : s.x.toNat + ps.length = 7) :
    runAll ((p :: ps).map .pix) s = .next (advance (commitRow (shiftInAll (p :: ps) s))) := by
  induction ps generalizing p s with
  | nil =>
    have hlast : ¬ s.x.toNat < 7 := by simpa using hx.ge
    rw [List.map_singleton, runAll_cons, exec_pix, prologue_of_pre _ _ _ herr (by simpa using henc), if_neg hlast]
    rfl
  | cons q ps ih =>
    rw [List.length_cons] at hx
    have hcount : (s.x + 1#3).toNat = s.x.toNat + 1 := toNat_add_one_of_lt _ (by omega)
    have hrest := ih q (setX (s.x + 1#3) (shiftIn p s)) herr henc (by simp only [setX, hcount]; omega)
    rw [List.map_cons, runAll_cons, exec_pix_inside p s herr henc (by omega), andThen_next, hrest, shiftInAll_setX,
      advance_commitRow_setX, shiftInAll_cons p]

/-- A ROW is the eight PIX of its pixels (R127). -/
theorem runAll_pix_eq_exec_row (p0 p1 p2 p3 p4 p5 p6 p7 : Pixel) (s : State) (herr : s.err = .noError)
    (henc : s.enc = .fill) (hx : s.x = 0#3) :
    runAll ([p0, p1, p2, p3, p4, p5, p6, p7].map .pix) s = exec (.row p0 p1 p2 p3 p4 p5 p6 p7) s := by
  rw [runAll_pix_rest_of_row _ _ s herr henc (by simp [hx]), exec_row,
    prologue_of_pre _ _ _ herr (by simp [henc, hx])]

/-! ## The eight rows of a tile (R128) -/

/-- The first byte of the tile the block is at (R128). -/
def tileBase (s : State) : Nat := (s.tr.toNat % 2) * 320 + s.tc.toNat * 16

/-- From the start `s` of a tile, `t` has committed the tile's first `k` pixel rows: their plane bytes and no others
are written, and until the tile is complete the block is at its row `k`. -/
structure TileRowsWritten (tile : Nat → Nat → Pixel) (s : State) (k : Nat) (t : State) : Prop where
  wf : t.cb.wf = true
  written : ∀ y, y < k → (t.cb.read (tileBase s + 2 * y)).toNat = planeSum 0 (tilePixels tile y)
    ∧ (t.cb.read (tileBase s + 2 * y + 1)).toNat = planeSum 1 (tilePixels tile y)
  unwritten : ∀ a, a < tileBase s ∨ tileBase s + 2 * k ≤ a → t.cb.read a = s.cb.read a
  place : k < 8 → t.err = .noError ∧ t.enc = .fill ∧ t.x = 0#3 ∧ t.y.toNat = k ∧ t.tc = s.tc ∧ t.tr = s.tr

/-- Committing row `k` of a tile whose first `k` rows are written. -/
theorem tileRowsWritten_of_rowCommitted (tile : Nat → Nat → Pixel) (s t u : State) (k : Nat) (lo hi : Byte)
    (hk : k < 8) (h : TileRowsWritten tile s k t) (hrow : RowCommitted lo hi t u) (hwf : u.cb.wf = true)
    (hlo : lo.toNat = planeSum 0 (tilePixels tile k)) (hhi : hi.toNat = planeSum 1 (tilePixels tile k)) :
    TileRowsWritten tile s (k + 1) u := by
  obtain ⟨herr, henc, -, hy, htc, htr⟩ := h.place hk
  obtain ⟨hframe, hadv, hreadLo, hreadHi, helse⟩ := hrow
  have hoff : off t.tr.toNat t.tc.toNat t.y.toNat = tileBase s + 2 * k := by
    rw [hy, htc, htr, Nat.mul_comm 2 k]; rfl
  rw [hoff] at hreadLo hreadHi helse
  refine { wf := hwf, written := fun y hyk => ?written, unwritten := fun a ha => ?unwritten, place := fun hk' => ?place }
  case written =>
    by_cases hnew : y = k
    · subst hnew
      rw [hreadLo, hreadHi]
      exact ⟨hlo, hhi⟩
    · rw [helse _ (by omega) (by omega), helse _ (by omega) (by omega)]
      exact h.written y (by omega)
  case unwritten =>
    rw [helse a (by omega) (by omega)]
    exact h.unwritten a (by omega)
  case place =>
    obtain ⟨ex, ⟨-, ey, etc, etr, eenc⟩ | ⟨hlast, -⟩ | ⟨hlast, -⟩⟩ := hadv
    · have hcount : u.y.toNat = k + 1 := by rw [ey, toNat_add_one_of_lt _ (by omega), hy]
      exact ⟨by rw [hframe]; exact herr, eenc.trans henc, ex, hcount, etc.trans htc, etr.trans htr⟩
    · omega
    · omega

/-- At the start of a tile none of its rows is written. -/
theorem tileRowsWritten_zero (tile : Nat → Nat → Pixel) (s : State) (herr : s.err = .noError) (henc : s.enc = .fill)
    (hx : s.x = 0#3) (hy : s.y = 0#3) (hwf : s.cb.wf = true) : TileRowsWritten tile s 0 s where
  wf := hwf
  written := fun y hlt => absurd hlt y.not_lt_zero
  unwritten := fun _ _ => rfl
  place := fun _ => ⟨herr, henc, hx, by rw [hy]; rfl, rfl, rfl⟩

/-- The first `k` ROWs of a tile, and the PIX of its first `k` rows, end in the same state, which has written them. -/
theorem runAll_tileRows (tile : Nat → Nat → Pixel) (s : State) (htc : s.tc.toNat ≤ 19)
    (h0 : TileRowsWritten tile s 0 s) (k : Nat) (hk : k ≤ 8) :
    ∃ t, runAll ((List.range k).map (tileRow tile)) s = .next t
      ∧ runAll (((List.range k).flatMap (tilePixels tile)).map .pix) s = .next t ∧ TileRowsWritten tile s k t := by
  induction k with
  | zero => exact ⟨s, rfl, rfl, h0⟩
  | succ k ih =>
    obtain ⟨t, hrows, hpix, ht⟩ := ih (by omega)
    obtain ⟨herr, henc, hx, -, htc', -⟩ := ht.place (by omega)
    obtain ⟨u, lo, hi, hexec, hrow, hwf, hlo, hhi⟩ := exec_row_commits (tile k 0) (tile k 1) (tile k 2) (tile k 3)
      (tile k 4) (tile k 5) (tile k 6) (tile k 7) t herr henc hx (by rw [htc']; exact htc) ht.wf
    have hpixRow : runAll ((tilePixels tile k).map .pix) t = .next u :=
      (runAll_pix_eq_exec_row _ _ _ _ _ _ _ _ t herr henc hx).trans hexec
    refine ⟨u, ?_, ?_, tileRowsWritten_of_rowCommitted tile s t u k lo hi (by omega) ht hrow hwf hlo hhi⟩
    · rw [List.range_succ, List.map_append, runAll_append, hrows, andThen_next]
      exact hexec
    · rw [List.range_succ, List.flatMap_append, List.flatMap_singleton, List.map_append, runAll_append, hpix,
        andThen_next, hpixRow]

/-- Settles O30, by induction on the rows of the tile. -/
theorem eightRowsWriteTheTile : Obligations.EightRowsWriteTheTile := by
  intro tile s herr henc hx hy htc hwf
  obtain ⟨t, hrows, hpix, ht⟩ :=
    runAll_tileRows tile s htc (tileRowsWritten_zero tile s herr henc hx hy hwf) 8 le_rfl
  exact ⟨t, hrows, hpix, ht.written, ht.unwritten⟩

end Sys2Proof.Proofs
end

section
/-! PROOFS. Errors (60_exceptions.md): the common prologue and the precondition of each operation (R173, R177, R180),
and the error codes an operation can leave (R170, R171). -/

namespace Sys2Proof.Proofs

open Sys2Proof.Machine Sys2Proof.Safety Sys2Proof.Laws

/-! ## The common prologue (R173, R180) -/

/-- Every operation but RST, RD and RDCB is the prologue, which tests its row of the table of R180, over a body. -/
theorem exec_eq_prologue (i : Instr) (s : State) (hr : ¬ AlwaysRuns i) :
    ∃ (pre : Bool) (body : State → Result), (pre = true ↔ Pre i s) ∧ exec i s = prologue pre body s := by
  cases i with
  | rst | rd _ | rdcb _ => exact absurd trivial hr
  | setw v => exact ⟨_, _, by simp [Pre], exec_setw v s⟩
  | seth v => exact ⟨_, _, by simp [Pre], exec_seth v s⟩
  | start d => exact ⟨_, _, by simp [Pre], exec_start d s⟩
  | pix p => exact ⟨_, _, by simp [Pre], exec_pix p s⟩
  | row p0 p1 p2 p3 p4 p5 p6 p7 => exact ⟨_, _, by simp [Pre], exec_row p0 p1 p2 p3 p4 p5 p6 p7 s⟩
  | frameInit => exact ⟨_, _, by simp [Pre], exec_frameInit s⟩
  | frameData => exact ⟨_, _, by simp [Pre], exec_frameData s⟩
  | frameEmpty => exact ⟨_, _, by simp [Pre], exec_frameEmpty s⟩
  | framePrint => exact ⟨_, _, by simp [Pre], exec_framePrint s⟩
  | frameReport => exact ⟨_, _, by simp [Pre], exec_frameReport s⟩
  | dump => exact ⟨_, _, by simp [Pre], exec_dump s⟩

/-- The precondition of RST, RD and RDCB is always true (R180). -/
theorem pre_of_alwaysRuns (i : Instr) (s : State) (hr : AlwaysRuns i) : Pre i s := by
  cases i with
  | rst | rd _ | rdcb _ => trivial
  | _ => exact hr.elim

/-- Settles O13: the prologue raises `SequenceError` before the body runs. -/
theorem falsePreconditionRaisesSequenceError : Obligations.FalsePreconditionRaisesSequenceError := by
  intro i s herr hpre
  obtain ⟨pre, body, hiff, hexec⟩ := exec_eq_prologue i s fun hr => hpre (pre_of_alwaysRuns i s hr)
  have hfalse : pre = false := Bool.eq_false_iff.mpr fun h => hpre (hiff.mp h)
  rw [hexec, prologue_of_not_pre pre body s herr hfalse]

/-! ## The error codes an operation can leave (R170, R171) -/

/-- What follows a sent frame does not touch `ERR` (42_checksum_framer.md R146 to R150). -/
theorem sentFrame_err (i : Instr) (s : State) : (sentFrame i s).err = s.err := by
  cases i <;> rfl

/-- RST clears `ERR`; every other operation keeps it, or writes over code 0 a code that R170 lets it raise. -/
theorem err_of_exec (i : Instr) (s t : State) (h : exec i s = .next t) :
    (i = .rst ∧ t.err = .noError) ∨ t.err = s.err ∨ (s.err = .noError ∧ MayRaise i s t.err) := by
  cases exec_does i s t h with
  | rst hi => exact .inl ⟨hi, rfl⟩
  | ignored | setw | seth | start | pixel | frameSilent | dump | dumpSilent | read => exact .inr (.inl rfl)
  | pixelRow | pixelRowNowhere => exact .inr (.inl (advance_err _))
  | frame => exact .inr (.inl (sentFrame_err i _))
  | badPhase herr hr => exact .inr (.inr ⟨herr, hr⟩)
  | badStart d e hi herr _ hcode =>
    have hraise : MayRaise i s e := by rcases hcode with rfl | rfl <;> exact ⟨d, hi⟩
    exact .inr (.inr ⟨herr, hraise⟩)
  | frameFails _ _ _ hf herr => exact .inr (.inr ⟨herr, .inl hf⟩)
  | dumpFails _ _ hi herr => exact .inr (.inr ⟨herr, .inr hi⟩)
  | badAddress a hi ha =>
    by_cases herr : s.err = .noError
    · rw [raise_of_noError _ s herr]
      exact .inr (.inr ⟨herr, a, hi, ha⟩)
    · rw [raise_of_error _ s herr]
      exact .inr (.inl rfl)

/-- The codes 2 and 3, reserved for host software (R171). -/
def Reserved (e : ErrCode) : Prop := e = .unsupportedColorMode ∨ e = .tooManyColors

theorem not_reserved_noError : ¬ Reserved .noError := by simp [Reserved]

theorem not_mayRaise_of_reserved (i : Instr) (s : State) (e : ErrCode) (h : Reserved e) : ¬ MayRaise i s e := by
  rcases h with rfl | rfl <;> exact id

/-- An operation that leaves a reserved code found it there. -/
theorem err_of_exec_of_reserved (i : Instr) (s t : State) (h : exec i s = .next t) (hres : Reserved t.err) :
    t.err = s.err := by
  rcases err_of_exec i s t h with ⟨-, hclear⟩ | hkept | ⟨-, hraise⟩
  · exact absurd (hclear ▸ hres) not_reserved_noError
  · exact hkept
  · exact absurd hraise (not_mayRaise_of_reserved i s t.err hres)

/-- So did an illegal word (R172). -/
theorem err_of_illegalWord_of_reserved (s : State) (hres : Reserved (raise .illegalOperation s).err) :
    (raise .illegalOperation s).err = s.err := by
  by_cases herr : s.err = .noError
  · rw [raise_of_noError _ s herr] at hres
    simp [Reserved] at hres
  · rw [raise_of_error _ s herr]

/-- Settles O16, by the cases of a step. -/
theorem reservedCodesAreNeverRaised : Obligations.ReservedCodesAreNeverRaised := by
  intro s t hstep hres
  rcases step_cases s with ⟨-, e⟩ | ⟨rest, -, e⟩ | ⟨w, rest, -, -, e⟩ | ⟨w, rest, i, -, -, -, e⟩
    | ⟨w, rest, _, -, -, -, e⟩ <;> rw [e] at hstep
  · cases hstep; rfl
  · cases hstep; exact absurd hres not_reserved_noError
  · cases hstep; rfl
  · exact err_of_exec_of_reserved i { s with port := rest } t hstep hres
  · cases hstep; exact err_of_illegalWord_of_reserved { s with port := rest } hres

end Sys2Proof.Proofs
end

section
/-! PROOFS. The operation words (30_encoding.md): decode and encode undo each other (R91). -/

namespace Sys2Proof.Proofs

open Sys2Proof.Machine Sys2Proof.Safety

/-! ## Operands as bits (R82, R84, R87) -/

theorem pixelOfBits_pixelBits (p : Pixel) : pixelOfBits (pixelBits p) = p := by
  obtain ⟨m, idx⟩ := p
  revert m idx; decide

theorem pixelBits_pixelOfBits (b : BitVec 3) : pixelBits (pixelOfBits b) = b := by
  revert b; decide

theorem modeOfBit_modeBit (d : Mode) : modeOfBit (modeBit d) = d := by
  cases d <;> rfl

theorem modeBit_modeOfBit (b : BitVec 1) : modeBit (modeOfBit b) = b := by
  revert b; decide

theorem regOfBits_regBits (n : RegName) : regOfBits (regBits n) = n := by
  cases n <;> rfl

theorem regBits_regOfBits (b : BitVec 3) : regBits (regOfBits b) = b := by
  revert b; decide

/-! ## A word as its fields (R80, R81): the opcode, the bits that must be zero, the operand -/

/-- `w` is the opcode `o`, then `m` zeros, then the operand `v`. -/
def HasFields (w : OpWord) (o : BitVec 4) (m : Nat) {n : Nat} (v : BitVec n) : Prop :=
  opcField w = o ∧ w.extractLsb' n m = 0#m ∧ w.extractLsb' 0 n = v

theorem hasFields_append {m n : Nat} (h : m + n = 28) (o : BitVec 4) (v : BitVec n) :
    HasFields ((o ++ 0#m ++ v).cast (by omega)) o m v := by
  have hopc : opcField ((o ++ 0#m ++ v).cast (by omega)) = (o ++ 0#m ++ v).extractLsb' (m + n) 4 := by
    rw [h]; rfl
  have hhigh (k len : Nat) : (o ++ 0#m ++ v).extractLsb' (k + n) len = (o ++ 0#m).extractLsb' k len := by
    rw [BitVec.extractLsb'_append_eq_of_le (Nat.le_add_left n k), Nat.add_sub_cancel]
  refine ⟨by rw [hopc, hhigh, BitVec.extractLsb'_append_eq_left], ?_, BitVec.extractLsb'_append_eq_right⟩
  have hzero := hhigh 0 m
  rw [Nat.zero_add, BitVec.extractLsb'_append_eq_right] at hzero
  exact hzero

theorem opcField_append_argField (w : OpWord) : (opcField w ++ argField w : OpWord) = w :=
  (BitVec.extractLsb'_append_extractLsb'_eq_extractLsb' rfl).trans BitVec.extractLsb'_eq_self

/-- The fields determine the word. -/
theorem eq_of_hasFields {w w' : OpWord} {o : BitVec 4} {m n : Nat} {v : BitVec n} (hmn : m + n = 28)
    (h : HasFields w o m v) (h' : HasFields w' o m v) : w = w' := by
  have harg (w : OpWord) : argField w = (w.extractLsb' n m ++ w.extractLsb' 0 n).cast hmn := by
    rw [BitVec.extractLsb'_append_extractLsb'_eq_extractLsb' (Nat.zero_add n).symm]
    apply BitVec.eq_of_getLsbD_eq
    intro i hi
    simp [argField, hmn]
  obtain ⟨hk, hz, hv⟩ := h
  obtain ⟨hk', hz', hv'⟩ := h'
  rw [← opcField_append_argField w, ← opcField_append_argField w', harg w, harg w', hk, hz, hv, hk', hz', hv']

/-- The fields of a ROW word (R83). -/
theorem slices_of_append_row (o z : BitVec 4) (b0 b1 b2 b3 b4 b5 b6 b7 : BitVec 3) (w : OpWord)
    (h : w = o ++ z ++ b0 ++ b1 ++ b2 ++ b3 ++ b4 ++ b5 ++ b6 ++ b7) :
    w.extractLsb' 28 4 = o ∧ w.extractLsb' 24 4 = z
      ∧ w.extractLsb' 21 3 = b0 ∧ w.extractLsb' 18 3 = b1 ∧ w.extractLsb' 15 3 = b2 ∧ w.extractLsb' 12 3 = b3
      ∧ w.extractLsb' 9 3 = b4 ∧ w.extractLsb' 6 3 = b5 ∧ w.extractLsb' 3 3 = b6 ∧ w.extractLsb' 0 3 = b7 := by
  subst h
  simp only [BitVec.extractLsb'_append_eq_of_le, BitVec.extractLsb'_append_eq_right, BitVec.extractLsb'_eq_self,
    Nat.reduceLeDiff, Nat.reduceSub, and_self]

/-- A word is the fields of the ROW format put together. -/
theorem append_row_slices (w : OpWord) :
    w.extractLsb' 28 4 ++ w.extractLsb' 24 4 ++ w.extractLsb' 21 3 ++ w.extractLsb' 18 3 ++ w.extractLsb' 15 3
      ++ w.extractLsb' 12 3 ++ w.extractLsb' 9 3 ++ w.extractLsb' 6 3 ++ w.extractLsb' 3 3 ++ w.extractLsb' 0 3 = w := by
  have hjoin (lo len len' : Nat) :
      w.extractLsb' (lo + len) len' ++ w.extractLsb' lo len = w.extractLsb' lo (len' + len) :=
    BitVec.extractLsb'_append_extractLsb'_eq_extractLsb' rfl
  rw [hjoin 24 4 4, hjoin 21 3 8, hjoin 18 3 11, hjoin 15 3 14, hjoin 12 3 17, hjoin 9 3 20, hjoin 6 3 23, hjoin 3 3 26,
    hjoin 0 3 29]
  exact BitVec.extractLsb'_eq_self

theorem pixelBits_rowPixel (w : OpWord) (lo : Nat) (h : lo + 3 ≤ 28) :
    pixelBits (rowPixel (argField w) lo) = w.extractLsb' lo 3 := by
  rw [rowPixel, extractLsb'_argField w lo 3 h, pixelBits_pixelOfBits]

/-! ## Decode and encode (R91) -/

/-- Settles O1: the decoder reads back the fields that the encoder put together. -/
theorem decodeOfEncodeIsIdentity : Obligations.DecodeOfEncodeIsIdentity := by
  intro i hi
  cases i with
  | rst | frameInit | frameData | frameEmpty | framePrint | frameReport | dump => decide
  | setw v =>
    obtain ⟨hk, hz, hv⟩ : HasFields (encode (.setw v)) 1#4 20 v := hasFields_append rfl _ _
    simp only [decodeWord, hk, extractLsb'_argField, Nat.reduceAdd, Nat.reduceLeDiff, hz, hv]
    rfl
  | seth v =>
    obtain ⟨hk, hz, hv⟩ : HasFields (encode (.seth v)) 2#4 20 v := hasFields_append rfl _ _
    simp only [decodeWord, hk, extractLsb'_argField, Nat.reduceAdd, Nat.reduceLeDiff, hz, hv]
    rfl
  | start d =>
    obtain ⟨hk, hz, hv⟩ : HasFields (encode (.start d)) 3#4 27 (modeBit d) := hasFields_append rfl _ _
    simp only [decodeWord, hk, extractLsb'_argField, Nat.reduceAdd, Nat.reduceLeDiff, hz, hv, modeOfBit_modeBit]
    rfl
  | pix p =>
    obtain ⟨hk, hz, hv⟩ : HasFields (encode (.pix p)) 4#4 25 (pixelBits p) := hasFields_append rfl _ _
    simp only [decodeWord, hk, extractLsb'_argField, Nat.reduceAdd, Nat.reduceLeDiff, hz, hv, rowPixel,
      pixelOfBits_pixelBits]
    rfl
  | row p0 p1 p2 p3 p4 p5 p6 p7 =>
    obtain ⟨hk, hz, h0, h1, h2, h3, h4, h5, h6, h7⟩ :=
      slices_of_append_row 5#4 0#4 _ _ _ _ _ _ _ _ (encode (.row p0 p1 p2 p3 p4 p5 p6 p7)) rfl
    simp only [decodeWord, opcField, hk, extractLsb'_argField, Nat.reduceAdd, Nat.reduceLeDiff, hz, rowPixel, h0, h1, h2,
      h3, h4, h5, h6, h7, pixelOfBits_pixelBits]
    rfl
  | rd n =>
    obtain ⟨hk, hz, hv⟩ : HasFields (encode (.rd n)) 8#4 25 (regBits n) := hasFields_append rfl _ _
    simp only [decodeWord, hk, extractLsb'_argField, Nat.reduceAdd, Nat.reduceLeDiff, hz, hv, regOfBits_regBits]
    rfl
  | rdcb a =>
    obtain ⟨hk, hz, hv⟩ : HasFields (encode (.rdcb a)) 9#4 18 a := hasFields_append rfl _ _
    have ha : a.toNat < Config.chunkBytes := of_decide_eq_true hi
    simp only [decodeWord, hk, extractLsb'_argField, Nat.reduceAdd, Nat.reduceLeDiff, hz, hv, if_pos ha]
    rfl

theorem of_ifMbzZero_legal {p : Prop} [Decidable p] {d : Decoded} {i : Instr}
    (h : ifMbzZero (decide p) d = .legal i) : p ∧ d = .legal i := by
  by_cases hp : p <;> simp_all [ifMbzZero]

/-- The opcode the decoder branches on, as a field. -/
theorem opcField_of_toNat {w : OpWord} {k : Nat} (h : (opcField w).toNat = k) : opcField w = BitVec.ofNat 4 k := by
  rw [← h, BitVec.ofNat_toNat, BitVec.setWidth_eq]

/-- The word whose fields are those that `i` is encoded from is `encode i`. -/
theorem encode_eq_of_fields {w : OpWord} {k m n : Nat} (hk : (opcField w).toNat = k) (hz : w.extractLsb' n m = 0#m)
    (hmn : m + n = 28) (i : Instr) (he : HasFields (encode i) (BitVec.ofNat 4 k) m (w.extractLsb' 0 n)) :
    encode i = w :=
  eq_of_hasFields hmn he ⟨opcField_of_toNat hk, hz, rfl⟩

/-- A FRAME operation is encoded from its kind (R86). -/
theorem encode_of_frameOfBits (k : BitVec 3) (i : Instr) (h : frameOfBits k = .legal i) :
    encode i = 6#4 ++ 0#25 ++ k ∧ i.wellFormed = true := by
  rcases frameOfBits_cases k with ⟨rfl, e⟩ | ⟨rfl, e⟩ | ⟨rfl, e⟩ | ⟨rfl, e⟩ | ⟨rfl, e⟩ | ⟨-, e⟩ <;>
    rw [e] at h <;> cases h <;> exact ⟨rfl, rfl⟩

/-- Settles O2: the fields the decoder reads, put together again, are the whole word. -/
theorem encodeOfDecodeIsIdentity : Obligations.EncodeOfDecodeIsIdentity := by
  intro w i h
  simp only [decodeWord, extractLsb'_argField, Nat.reduceAdd, Nat.reduceLeDiff] at h
  split at h
  case h_1 hk | h_8 hk =>
    obtain ⟨hz, ⟨⟩⟩ := of_ifMbzZero_legal h
    refine ⟨?_, rfl⟩
    rw [← opcField_append_argField w, hz, opcField_of_toNat hk]
    rfl
  case h_2 hk | h_3 hk =>
    obtain ⟨hz, ⟨⟩⟩ := of_ifMbzZero_legal h
    exact ⟨encode_eq_of_fields hk hz rfl _ (hasFields_append rfl _ _), rfl⟩
  case h_4 hk =>
    obtain ⟨hz, ⟨⟩⟩ := of_ifMbzZero_legal h
    refine ⟨encode_eq_of_fields hk hz rfl _ ?_, rfl⟩
    rw [encode, modeBit_modeOfBit]
    exact hasFields_append rfl _ _
  case h_5 hk =>
    obtain ⟨hz, ⟨⟩⟩ := of_ifMbzZero_legal h
    refine ⟨encode_eq_of_fields hk hz rfl _ ?_, rfl⟩
    rw [encode, pixelBits_rowPixel w 0 (by decide)]
    exact hasFields_append rfl _ _
  case h_6 hk =>
    obtain ⟨hz, ⟨⟩⟩ := of_ifMbzZero_legal h
    refine ⟨?_, rfl⟩
    rw [encode]
    simp only [pixelBits_rowPixel, Nat.reduceAdd, Nat.reduceLeDiff]
    rw [← hz, ← opcField_of_toNat hk]
    exact append_row_slices w
  case h_7 hk =>
    obtain ⟨hz, hf⟩ := of_ifMbzZero_legal h
    obtain ⟨he, hwf⟩ := encode_of_frameOfBits _ i hf
    refine ⟨encode_eq_of_fields hk hz rfl i ?_, hwf⟩
    rw [he]
    exact hasFields_append rfl _ _
  case h_9 hk =>
    obtain ⟨hz, ⟨⟩⟩ := of_ifMbzZero_legal h
    refine ⟨encode_eq_of_fields hk hz rfl _ ?_, rfl⟩
    rw [encode, regBits_regOfBits]
    exact hasFields_append rfl _ _
  case h_10 hk =>
    obtain ⟨hz, ha⟩ := of_ifMbzZero_legal h
    split at ha <;> cases ha
    next hlt => exact ⟨encode_eq_of_fields hk hz rfl _ (hasFields_append rfl _ _), decide_eq_true hlt⟩
  case h_11 => cases h

end Sys2Proof.Proofs
end

section
/-! PROOFS. A step of the block: its invariant (10_state.md R39), what it runs (60_exceptions.md R173), waiting and
reset (70_reset_and_hazards.md R190, R191, R199), and that it always answers (00_scope.md R12). -/

namespace Sys2Proof.Proofs

open Sys2Proof.Machine Sys2Proof.Safety Sys2Proof.Laws

/-! ## The invariant (R39) -/

/-- Settles O49: the reset state has the reset values and a blank buffer. -/
theorem invariantHoldsAtReset : Obligations.InvariantHoldsAtReset :=
  blockInv_of_isReset State.reset isReset_reset rfl

/-- Settles O50, by the cases of a step: every operation, an illegal word and a reset keep the ten items. -/
theorem stepKeepsTheInvariant : Obligations.StepKeepsTheInvariant :=
  blockInv_step

/-! ## What a step does with the host's next input -/

section
variable {s : State} {w : OpWord} {rest : List HostInput}

theorem step_of_no_input (h : s.port = []) : step s = .next s := by
  simp only [step, takeInput, h]

theorem step_of_reset (h : s.port = .reset :: rest) : step s = .next (externalReset { s with port := rest }) := by
  simp only [step, takeInput, h]

theorem step_of_word (hfree : s.stuck = false) (h : s.port = .word w :: rest) :
    step s = execWord w { s with port := rest } := by
  simp [step, takeInput, h, hfree]

theorem step_of_word_stuck (hstuck : s.stuck = true) (h : s.port = .word w :: rest) : step s = .next s := by
  simp [step, takeInput, h, hstuck]

end

theorem execWord_of_legal {w : OpWord} {i : Instr} (h : decodeWord w = .legal i) (s : State) :
    execWord w s = exec i s := by
  simp only [execWord, h]

theorem execWord_of_illegal {w : OpWord} {e : DecodeError} (h : decodeWord w = .illegal e) (s : State) :
    execWord w s = .next (raise .illegalOperation s) := by
  simp only [execWord, h, illegalWord]

/-- Settles O6. -/
theorem stepRunsTheDecodedOperation : Obligations.StepRunsTheDecodedOperation := by
  intro s w rest i hfree hport hd
  rw [step_of_word hfree hport, execWord_of_legal hd]

/-- Settles O7: a word of the four kinds is refused, and executing it writes `ERR` only. -/
theorem stepOnAnIllegalWord : Obligations.StepOnAnIllegalWord := by
  intro s w rest hfree hport hill
  rw [step_of_word hfree hport, (illegalWordsAreTheFourKinds w).2 hill]

/-- Settles O8. -/
theorem blockWaitsForAWord : Obligations.BlockWaitsForAWord :=
  fun _ => step_of_no_input

theorem isReset_externalReset (s : State) : IsReset (externalReset s) :=
  { isReset_resetBlock s with }

/-- Settles O9: a reset is the effect of RST with the stuck mark cleared. -/
theorem externalResetDoesWhatRstDoes : Obligations.ExternalResetDoesWhatRstDoes := by
  intro s rest hport
  refine ⟨_, _, step_of_reset hport, exec_rst _, isReset_externalReset _, ?_, rfl, rfl⟩
  exact ⟨rfl, rfl, rfl, rfl, rfl⟩

/-- Settles O11. -/
theorem stuckBlockTakesOnlyAReset : Obligations.StuckBlockTakesOnlyAReset := by
  intro s hstuck
  refine ⟨fun w rest hport => step_of_word_stuck hstuck hport, fun rest hport => ?_⟩
  exact ⟨_, step_of_reset hport, rfl, isReset_externalReset _, rfl⟩

/-! ## Every operation answers a next state (R12) -/

theorem prologue_answers (pre : Bool) (body : State → Result) (s : State) (h : ∃ t, body s = .next t) :
    ∃ t, prologue pre body s = .next t := by
  rcases prologue_cases pre body s with ⟨-, e⟩ | ⟨-, -, e⟩ | ⟨-, -, e⟩
  · exact ⟨_, e⟩
  · exact ⟨_, e⟩
  · rwa [e]

theorem emitFrame_answers (cmd comp : Byte) (pl : List Byte) (onDone : State → State) (s : State) :
    ∃ t, emitFrame cmd comp pl onDone s = .next t := by
  rcases emitFrame_cases cmd comp pl onDone s with ⟨_, _, _, _, e⟩ | ⟨_, _, _, e⟩ | ⟨_, _, _, e⟩ <;> exact ⟨_, e⟩

theorem dumpChunk_answers (onDone : State → State) (s : State) : ∃ t, dumpChunk onDone s = .next t := by
  rcases dumpChunk_cases onDone s with ⟨_, _, e⟩ | ⟨_, _, e⟩ | ⟨_, _, e⟩ <;> exact ⟨_, e⟩

theorem exec_answers (i : Instr) (s : State) : ∃ t, exec i s = .next t := by
  cases i with
  | rst => exact ⟨_, exec_rst s⟩
  | setw v => rw [exec_setw]; exact prologue_answers _ _ s ⟨_, rfl⟩
  | seth v => rw [exec_seth]; exact prologue_answers _ _ s ⟨_, rfl⟩
  | start d => rw [exec_start]; refine prologue_answers _ _ s ?_; split_ifs <;> exact ⟨_, rfl⟩
  | pix p => rw [exec_pix]; refine prologue_answers _ _ s ?_; split_ifs <;> exact ⟨_, rfl⟩
  | row p0 p1 p2 p3 p4 p5 p6 p7 => rw [exec_row]; exact prologue_answers _ _ s ⟨_, rfl⟩
  | frameInit => rw [exec_frameInit]; exact prologue_answers _ _ s (emitFrame_answers _ _ _ _ s)
  | frameData => rw [exec_frameData]; exact prologue_answers _ _ s (emitFrame_answers _ _ _ _ s)
  | frameEmpty => rw [exec_frameEmpty]; exact prologue_answers _ _ s (emitFrame_answers _ _ _ _ s)
  | framePrint => rw [exec_framePrint]; exact prologue_answers _ _ s (emitFrame_answers _ _ _ _ s)
  | frameReport => rw [exec_frameReport]; exact prologue_answers _ _ s (emitFrame_answers _ _ _ _ s)
  | dump => rw [exec_dump]; exact prologue_answers _ _ s (dumpChunk_answers _ s)
  | rd n => exact ⟨_, exec_rd n s⟩
  | rdcb a => rw [exec_rdcb]; split_ifs <;> exact ⟨_, rfl⟩

theorem execWord_answers (w : OpWord) (s : State) : ∃ t, execWord w s = .next t := by
  cases hd : decodeWord w with
  | legal i => rw [execWord_of_legal hd]; exact exec_answers i s
  | illegal e => exact ⟨_, execWord_of_illegal hd s⟩

/-- Settles O52: every case of a step is a next state. -/
theorem stepNeverStops : Obligations.StepNeverStops := by
  refine ⟨execWord_answers, fun s => ?_⟩
  rcases step_cases s with ⟨-, e⟩ | ⟨_, -, e⟩ | ⟨_, _, -, -, e⟩ | ⟨_, rest, i, -, -, -, e⟩ | ⟨_, _, _, -, -, -, e⟩
  case inr.inr.inr.inl => rw [e]; exact exec_answers i { s with port := rest }
  all_goals exact ⟨_, e⟩

end Sys2Proof.Proofs
end

section
/-! PROOFS. Configuration and control (40_config_control.md): RST, SETW, SETH, START, RD, RDCB. -/

namespace Sys2Proof.Proofs

open Sys2Proof.Machine Sys2Proof.Safety Sys2Proof.Laws

/-! ## RST, SETW, SETH (R100 to R102) -/

theorem sameSurroundings_resetBlock (s : State) : SameSurroundings s (resetBlock s) :=
  ⟨rfl, rfl, rfl, rfl, rfl⟩

/-- Settles O17. -/
theorem rstClearsTheBlock : Obligations.RstClearsTheBlock :=
  fun s => ⟨_, exec_rst s, isReset_resetBlock s, sameSurroundings_resetBlock s, rfl, rfl⟩

theorem exec_setw_idle (v : Byte) (s : State) (herr : s.err = .noError) (henc : s.enc = .idle) :
    exec (.setw v) s = .next { s with imgW := v } := by
  rw [exec_setw, prologue_of_pre _ _ _ herr (decide_eq_true henc)]

theorem exec_seth_idle (v : Byte) (s : State) (herr : s.err = .noError) (henc : s.enc = .idle) :
    exec (.seth v) s = .next { s with imgH := v } := by
  rw [exec_seth, prologue_of_pre _ _ _ herr (decide_eq_true henc)]

/-- Settles O18. -/
theorem setwAndSethStoreTheDimension : Obligations.SetwAndSethStoreTheDimension :=
  fun v s herr henc => ⟨exec_setw_idle v s herr henc, exec_seth_idle v s herr henc⟩

/-! ## START (R103) -/

theorem badDimensions_iff (w h : BitVec 8) :
    badDimensions w h = true
      ↔ w.toNat = 0 ∨ w.toNat > 160 ∨ w.toNat % 8 ≠ 0 ∨ h.toNat = 0 ∨ h.toNat % 16 ≠ 0 := by
  simp only [badDimensions, Bool.or_eq_true, decide_eq_true_eq, or_assoc, Config.maxW, Config.tile, Config.hUnit]

theorem tooManyChunks_iff (h : BitVec 8) : tooManyChunks h = true ↔ h.toNat / 16 > 9 := by
  simp only [tooManyChunks, decide_eq_true_eq, Config.hUnit, Config.maxChunks]

/-- START in an idle block, as the two checks and the job (R103). -/
theorem exec_start_idle (d : Mode) (s : State) (herr : s.err = .noError) (henc : s.enc = .idle) :
    exec (.start d) s =
      if badDimensions s.imgW s.imgH then .next { s with err := .invalidDimensions }
      else if tooManyChunks s.imgH then .next { s with err := .unsupportedChunkCount }
      else .next (startedJob d s) := by
  rw [exec_start, prologue_of_pre _ _ _ herr (decide_eq_true henc), raise_of_noError _ s herr, raise_of_noError _ s herr]

theorem startedJob_eq (d : Mode) (s : State) :
    startedJob d s = { s with
      mode := d
      nchunk := BitVec.ofNat 4 (s.imgH.toNat / 16), chunk := 0#4, rpt := 0#4
      tr := 0#5, tc := 0#5, y := 0#3, x := 0#3
      cb := []
      enc := .fill
      seq := if d = .print then .ready else .idle } := by
  cases d <;> rfl

/-- Settles O19, by the two checks in their order. -/
theorem startChecksThenBegins : Obligations.StartChecksThenBegins := by
  intro d s herr henc
  rw [exec_start_idle d s herr henc, startedJob_eq]
  simp only [← badDimensions_iff, ← tooManyChunks_iff]
  split_ifs <;> rfl

/-! ## RD and RDCB (R105, R106) -/

/-- Words appended are numbers with the upper one shifted up. -/
theorem toNat_append_eq {m n : Nat} (a : BitVec m) (b : BitVec n) : (a ++ b).toNat = b.toNat + 2 ^ n * a.toNat := by
  rw [BitVec.toNat_append, ← Nat.shiftLeft_add_eq_or_of_lt b.isLt, Nat.shiftLeft_eq, Nat.mul_comm, Nat.add_comm]

/-- What RD reads is the number of the register's layout (10_state.md R20, R25, R30 to R34). -/
theorem toNat_readRegister (n : RegName) (s : State) : (readRegister n s).toNat = registerValue n s := by
  have himgW := s.imgW.isLt
  have himgH := s.imgH.isLt
  cases n with
  | imgW => simp only [readRegister, registerValue, BitVec.toNat_setWidth]; omega
  | imgH => simp only [readRegister, registerValue, BitVec.toNat_setWidth]; omega
  | stat => simp only [readRegister, registerValue, statWord, toNat_append_eq, BitVec.toNat_ofNat]; omega
  | pos => simp only [readRegister, registerValue, posWord, toNat_append_eq]; omega
  | chk => simp only [readRegister, registerValue, chkWord, toNat_append_eq, BitVec.toNat_ofNat]; omega
  | cks => rfl
  | rsp => simp only [readRegister, registerValue, rspWord, toNat_append_eq, Nat.reducePow]
  | shr => simp only [readRegister, registerValue, shrWord, toNat_append_eq, Nat.reducePow]

/-- Settles O20. -/
theorem rdReturnsTheRegister : Obligations.RdReturnsTheRegister :=
  fun n s => ⟨readRegister n s, exec_rd n s, toNat_readRegister n s⟩

theorem exec_rdcb_in_buffer (a : BitVec 10) (s : State) (ha : a.toNat < 640) :
    exec (.rdcb a) s = .next { s with reads := s.reads ++ [(s.cb.read a.toNat).setWidth 16] } := by
  rw [exec_rdcb, if_pos ha]
  rfl

/-- Settles O21, on both sides of the end of the buffer. -/
theorem rdcbReturnsTheByte : Obligations.RdcbReturnsTheByte := by
  intro a s
  by_cases ha : a.toNat < 640
  · rw [if_pos ha]
    refine ⟨_, exec_rdcb_in_buffer a s ha, ?_⟩
    have hbyte := (s.cb.read a.toNat).isLt
    rw [BitVec.toNat_setWidth]
    omega
  · rw [if_neg ha, exec_rdcb, if_neg ha]
    rfl

end Sys2Proof.Proofs
end

section
/-! PROOFS. The error state (60_exceptions.md R174 to R176) and the end of a job (42_checksum_framer.md R157). -/

namespace Sys2Proof.Proofs

open Sys2Proof.Machine Sys2Proof.Safety Sys2Proof.Laws

/-! ## What runs in the error state (R175) -/

theorem exec_of_error (i : Instr) (s : State) (herr : s.err ≠ .noError) (hr : ¬ AlwaysRuns i) :
    exec i s = .next s := by
  obtain ⟨pre, body, -, hexec⟩ := exec_eq_prologue i s hr
  rw [hexec, prologue_of_error pre body s herr]

theorem execWord_illegal_of_error {w : OpWord} {e : DecodeError} (hd : decodeWord w = .illegal e) (s : State)
    (herr : s.err ≠ .noError) : execWord w s = .next s := by
  rw [execWord_of_illegal hd, raise_of_error _ s herr]

/-- RST, RD and RDCB send nothing in any state. -/
theorem hist_of_exec_alwaysRuns (i : Instr) (s t : State) (hr : AlwaysRuns i) (h : exec i s = .next t) :
    t.hist = s.hist := by
  cases i with
  | rst => cases h; rfl
  | rd n => cases h; rfl
  | rdcb a =>
    rw [exec_rdcb] at h
    split_ifs at h <;> cases h <;> rfl
  | _ => exact hr.elim

theorem hist_of_exec_of_error (i : Instr) (s t : State) (herr : s.err ≠ .noError) (h : exec i s = .next t) :
    t.hist = s.hist := by
  by_cases hr : AlwaysRuns i
  · exact hist_of_exec_alwaysRuns i s t hr h
  · rw [exec_of_error i s herr hr] at h
    cases h; rfl

theorem hist_of_step_of_error (s t : State) (herr : s.err ≠ .noError) (h : step s = .next t) : t.hist = s.hist := by
  rcases step_cases s with ⟨-, e⟩ | ⟨rest, -, e⟩ | ⟨_, _, -, -, e⟩ | ⟨_, rest, i, -, -, -, e⟩ | ⟨_, rest, _, -, -, -, e⟩
    <;> rw [e] at h
  case inr.inr.inr.inl => exact hist_of_exec_of_error i { s with port := rest } t herr h
  all_goals cases h; rfl

/-- Settles O12, operation by operation, and for the history by the cases of a step. -/
theorem errorStateIgnoresOperations : Obligations.ErrorStateIgnoresOperations := by
  refine ⟨fun i s herr => ⟨exec_of_error i s herr, ?_, ?_⟩, fun w s herr ⟨e, hd⟩ => ?_, hist_of_step_of_error⟩
  · rintro n rfl
    exact rdReturnsTheRegister n s
  · rintro a rfl ha
    exact exec_rdcb_in_buffer a s ha
  · exact execWord_illegal_of_error hd s herr

/-! ## The exits of the error state (R176) -/

/-- Settles O14: of the operations only RST clears a code that is set. -/
theorem onlyRstOrResetLeavesTheErrorState : Obligations.OnlyRstOrResetLeavesTheErrorState := by
  intro s t herr h
  rcases step_cases s with ⟨-, e⟩ | ⟨rest, hport, e⟩ | ⟨_, _, -, -, e⟩ | ⟨w, rest, i, hport, -, hd, e⟩
    | ⟨_, rest, _, -, -, -, e⟩ <;> rw [e] at h
  · cases h; exact .inl rfl
  · cases h
    exact .inr ⟨isReset_externalReset _, ⟨rfl, rfl, rfl, rfl, rfl⟩, rest, .inl hport⟩
  · cases h; exact .inl rfl
  · rcases err_of_exec i _ t h with ⟨rfl, -⟩ | hkept | ⟨hno, -⟩
    · cases h
      exact .inr ⟨isReset_resetBlock _, ⟨rfl, rfl, rfl, rfl, rfl⟩, rest, .inr ⟨w, hport, hd⟩⟩
    · exact .inl hkept
    · exact absurd hno herr
  · cases h
    rw [raise_of_error _ { s with port := rest } herr]
    exact .inl rfl

/-! ## Precise errors (R174) -/

/-- Settles O15: an operation that leaves a code other than `TransportFailure` has stopped before any effect. -/
theorem errorsBeforeAnyEffectArePrecise : Obligations.ErrorsBeforeAnyEffectArePrecise := by
  intro i s t herr h hne hnt
  cases exec_does i s t h with
  | badPhase | badStart => rfl
  | badAddress => rw [raise_of_noError _ s herr]
  | frameFails | dumpFails => exact absurd rfl hnt
  | ignored hno => exact absurd herr hno
  | rst => exact absurd rfl hne
  | pixelRow | pixelRowNowhere => exact (hne ((advance_err _).trans herr)).elim
  | frame => exact (hne ((sentFrame_err i _).trans herr)).elim
  | setw | seth | start | pixel | frameSilent | dump | dumpSilent | read => exact absurd herr hne

/-! ## After the end of a job (42_checksum_framer.md R157) -/

/-- A finished job is in `E_DONE`, and of a print job only the phase `S_DONE` is left, of a dump job `S_IDLE`. -/
theorem phases_of_finished_job (s : State) (h : BlockInv s) (hend : s.seq = .done ∨ (s.mode = .dump ∧ s.enc = .done)) :
    s.enc = .done ∧ (s.seq = .done ∨ s.seq = .idle) := by
  rcases hend with hseq | ⟨hmode, henc⟩
  · exact ⟨h.late_seq (.inr (.inr hseq)), .inl hseq⟩
  · exact ⟨henc, .inr (h.dump_seq hmode)⟩

/-- No row of the table of R180 admits a finished job. -/
theorem not_pre_of_finished (i : Instr) (s : State) (hr : ¬ AlwaysRuns i) (henc : s.enc = .done)
    (hseq : s.seq = .done ∨ s.seq = .idle) : ¬ Pre i s := by
  cases i with
  | rst | rd _ | rdcb _ => exact absurd trivial hr
  | setw _ | seth _ | start _ | pix _ | row _ _ _ _ _ _ _ _ | dump => simp [Pre, henc]
  | frameInit | frameData | frameEmpty | framePrint | frameReport => rcases hseq with e | e <;> simp [Pre, e]

/-- Settles O60: the precondition of each of these operations is false. -/
theorem finishedJobAcceptsOnlyRstAndReads : Obligations.FinishedJobAcceptsOnlyRstAndReads := by
  intro i s h herr hend hr
  obtain ⟨henc, hseq⟩ := phases_of_finished_job s h hend
  exact falsePreconditionRaisesSequenceError i s herr (not_pre_of_finished i s hr henc hseq)

end Sys2Proof.Proofs
end

section
/-! PROOFS. Frames and drains (42_checksum_framer.md): the five FRAME operations and DUMP, with every byte answered
(R146 to R150, R153), with a byte that fails (R145, R153), and with a byte that is never answered
(70_reset_and_hazards.md R199). -/

namespace Sys2Proof.Proofs

open Sys2Proof.Machine Sys2Proof.Safety Sys2Proof.Laws

/-! ## A FRAME operation is the emission of its frame -/

section
variable {op : Instr} {s : State} {cmd comp : Byte} {pl rs : List Byte} {rest : List XferAnswer}

/-- With `ERR = 0` and its row of R180 true, a FRAME operation emits its frame, and then does what R146 to R150 say. -/
theorem exec_of_frameOf (herr : s.err = .noError) (hpre : Pre op s) (hf : frameOf op s = some (cmd, comp, pl)) :
    exec op s = emitFrame cmd comp pl (sentFrame op) s := by
  cases op with
  | rst | setw _ | seth _ | start _ | pix _ | row _ _ _ _ _ _ _ _ | dump | rd _ | rdcb _ => cases hf
  | frameInit => cases hf; rw [exec_frameInit, prologue_of_pre _ _ _ herr (by simpa [Pre] using hpre)]; rfl
  | frameData =>
    obtain ⟨hseq, henc⟩ := hpre
    cases hf; rw [exec_frameData, prologue_of_pre _ _ _ herr (by simp [hseq, henc])]; rfl
  | frameEmpty =>
    obtain ⟨hseq, henc⟩ := hpre
    cases hf; rw [exec_frameEmpty, prologue_of_pre _ _ _ herr (by simp [hseq, henc])]; rfl
  | framePrint => cases hf; rw [exec_framePrint, prologue_of_pre _ _ _ herr (by simpa [Pre] using hpre)]; rfl
  | frameReport => cases hf; rw [exec_frameReport, prologue_of_pre _ _ _ herr (by simpa [Pre] using hpre)]; rfl

/-- A FRAME operation whose bytes are all answered (R142 to R144, R146 to R150). -/
theorem exec_frame_done (herr : s.err = .noError) (hpre : Pre op s) (hf : frameOf op s = some (cmd, comp, pl))
    (ha : s.xferAnswers = rs.map .ok ++ rest) (hl : rs.length = pl.length + 10) :
    exec op s = .next (sentFrame op (afterFrame cmd comp pl rs rest s)) := by
  rw [exec_of_frameOf herr hpre hf, emitFrame_done cmd comp pl _ s rs rest ha hl]

end

/-! ## Every byte answered (R146 to R150) -/

/-- Settles O39. -/
theorem frameInitSendsItsFrame : Obligations.FrameInitSendsItsFrame :=
  fun _ _ _ herr hseq ha hl => exec_frame_done (op := .frameInit) herr hseq rfl ha hl

/-- Settles O41. -/
theorem frameEmptySendsItsFrame : Obligations.FrameEmptySendsItsFrame :=
  fun _ _ _ herr hseq henc ha hl => exec_frame_done (op := .frameEmpty) herr ⟨hseq, henc⟩ rfl ha hl

/-- Settles O42. -/
theorem framePrintSendsItsFrame : Obligations.FramePrintSendsItsFrame :=
  fun _ _ _ herr hseq ha hl => exec_frame_done (op := .framePrint) herr hseq rfl ha hl

/-- Settles O43: the phase is `S_REPORT` until the tenth. -/
theorem frameReportSendsAndCounts : Obligations.FrameReportSendsAndCounts := by
  intro s rs rest herr hseq ha hl
  rw [exec_frame_done (op := .frameReport) herr hseq rfl ha hl, ← hseq]
  rfl

/-- The length bytes and the sum of a DATA frame of 640 bytes (R141, R147): 0x04 + 0x00 + 0x80 + 0x02 = 0x86. -/
theorem summedBytes_data (pl : List Byte) (hl : pl.length = 640) :
    summedBytes 0x04 0x00 pl = [0x04, 0x00, 0x80, 0x02] ++ pl := by
  rw [summedBytes, hl]
  rfl

theorem checksumOf_data (pl : List Byte) (hl : pl.length = 640) :
    checksumOf 0x04 0x00 pl = (0x86 + byteSum pl) % 65536 := by
  rw [checksumOf, summedBytes_data pl hl, byteSum_append]
  rfl

/-- The hand-over after a frame reads the counters that the frame left as they were (R151). -/
theorem advanceChunk_afterFrame (cmd comp : Byte) (pl rs : List Byte) (rest : List XferAnswer) (s : State) :
    advanceChunk (afterFrame cmd comp pl rs rest s) = { afterFrame cmd comp pl rs rest s with
      chunk := s.chunk + 1#4, enc := if s.chunk + 1#4 = s.nchunk then .done else .fill, cb := [] } := rfl

/-- Settles O40: the emission of a frame whose payload is the 640 bytes of the chunk, then the hand-over. -/
theorem frameDataSendsTheChunk : Obligations.FrameDataSendsTheChunk := by
  intro s rs rest herr hseq henc ha hl
  have h640 := chunkBytesOf_length s
  refine ⟨by rw [frameBytes_length, h640], ?_, checksumOf_data _ h640, ?_⟩
  · rw [frameBytes, summedBytes_data _ h640]
    rfl
  · rw [exec_frame_done (op := .frameData) herr ⟨hseq, henc⟩ rfl ha (by rw [hl, h640])]
    exact congrArg Host.Outcome.next (advanceChunk_afterFrame 0x04 0x00 (chunkBytesOf s) rs rest s)

/-! ## A byte that fails, and a byte that is never answered (R145, R199) -/

/-- Settles O44. -/
theorem frameFailureKeepsThePartialSum : Obligations.FrameFailureKeepsThePartialSum := by
  intro op s cmd comp pl rs rest herr hpre hf hl
  obtain ⟨hw, hr, -⟩ := emitFrame_stop cmd comp pl (sentFrame op) s rs rest hl
  rw [exec_of_frameOf herr hpre hf]
  refine ⟨fun ha => ?_, fun ha => ?_⟩
  · rw [hw ha, raise_of_noError _ _ (by exact herr)]
  · rw [hr ha, raise_of_noError _ _ (by exact herr)]

/-- Settles O45. -/
theorem silentTransportLeavesTheFrameStuck : Obligations.SilentTransportLeavesTheFrameStuck := by
  intro op s cmd comp pl rs rest herr hpre hf hl ha
  obtain ⟨-, -, hn⟩ := emitFrame_stop cmd comp pl (sentFrame op) s rs rest hl
  rw [exec_of_frameOf herr hpre hf, hn ha]

/-! ## The dump (R153) -/

theorem exec_dump_of_pre {s : State} (herr : s.err = .noError) (hmode : s.mode = .dump) (henc : s.enc = .full) :
    exec .dump s = dumpChunk advanceChunk s := by
  rw [exec_dump, prologue_of_pre _ _ _ herr (by simp [hmode, henc])]

/-- Settles O46. -/
theorem dumpSendsTheChunk : Obligations.DumpSendsTheChunk := by
  intro s rest herr hmode henc ha
  rw [exec_dump_of_pre herr hmode henc, dumpChunk_done advanceChunk s rest ha]
  rfl

/-- Settles O47. -/
theorem dumpFailureKeepsTheChunk : Obligations.DumpFailureKeepsTheChunk := by
  intro s a rest herr hmode henc hlt ha
  rw [exec_dump_of_pre herr hmode henc, (dumpChunk_stop advanceChunk s a rest hlt).1 ha, raise_of_noError _ _ (by exact herr)]

/-- Settles O48. -/
theorem silentSinkLeavesTheDumpStuck : Obligations.SilentSinkLeavesTheDumpStuck := by
  intro s a rest herr hmode henc hlt ha
  rw [exec_dump_of_pre herr hmode henc, (dumpChunk_stop advanceChunk s a rest hlt).2 ha]

end Sys2Proof.Proofs
end

section
/-! PROOFS. The chunk buffer's map (20_memory.md R60, R61) and the pixel operations PIX and ROW (41_tile_encoder.md
R126, R127). -/

namespace Sys2Proof.Proofs

open Sys2Proof.Machine Sys2Proof.Safety Sys2Proof.Laws

/-! ## The places of the buffer -/

/-- An address is the place of its parts. -/
theorem off_of_parts (a : Nat) : off (halfOf a) (tileColOf a) (pixelRowOf a) + planeOf a = a % 640 := by
  simp only [off, halfOf, tileColOf, pixelRowOf, planeOf, Config.trowBytes, Config.tileBytes]
  omega

/-- The parts of a place. -/
theorem parts_of_off (h tc y plane : Nat) (hh : h < 2) (htc : tc < 20) (hy : y < 8) (hp : plane < 2) :
    halfOf (off h tc y + plane) = h ∧ tileColOf (off h tc y + plane) = tc ∧ pixelRowOf (off h tc y + plane) = y
      ∧ planeOf (off h tc y + plane) = plane := by
  simp only [off, halfOf, tileColOf, pixelRowOf, planeOf, Config.trowBytes, Config.tileBytes]
  omega

/-- Settles O25: the parts of an address are its place, and no other place has that address. -/
theorem bufferMapIsABijection : Obligations.BufferMapIsABijection := by
  refine ⟨fun _ _ _ => rfl, fun tr tc y htc hy => ?_, fun a ha => ?_⟩
  · simp only [off, Config.trowBytes, Config.tileBytes]
    omega
  · have hparts : halfOf a < 2 ∧ tileColOf a < 20 ∧ pixelRowOf a < 8 ∧ planeOf a < 2 := by
      simp only [halfOf, tileColOf, pixelRowOf, planeOf]
      omega
    obtain ⟨hh, hc, hr, hp⟩ := hparts
    refine ⟨_, _, _, _, hh, hc, hr, hp, by rw [off_of_parts, Nat.mod_eq_of_lt ha], ?_⟩
    rintro h' tc' y' plane' hh' hc' hr' hp' rfl
    obtain ⟨eh, ec, er, ep⟩ := parts_of_off h' tc' y' plane' hh' hc' hr' hp'
    exact ⟨eh.symm, ec.symm, er.symm, ep.symm⟩

/-! ## PIX and ROW -/

/-- Settles O26. -/
theorem pixInsideARow : Obligations.PixInsideARow := by
  intro p s herr henc hx
  exact ⟨_, _, exec_pix_inside p s herr henc hx, shiftBit_toNat _ _, shiftBit_toNat _ _⟩

/-- The PIX that completes its row in a tile column that exists commits the registers it leaves. -/
theorem exec_pix_commits (p : Pixel) (s : State) (herr : s.err = .noError) (henc : s.enc = .fill) (hx : s.x = 7#3)
    (htc : s.tc.toNat ≤ 19) (hwf : s.cb.wf = true) :
    ∃ t, exec (.pix p) s = .next t
      ∧ RowCommitted (shiftBit s.lo (planeBit 0 p)) (shiftBit s.hi (planeBit 1 p)) s t ∧ t.cb.wf = true := by
  have ha := rowAddress_lt s htc
  obtain ⟨hwf', -⟩ := s.cb.write_row (rowAddress s) (shiftBit s.lo (planeBit 0 p)) (shiftBit s.hi (planeBit 1 p)) hwf ha
  exact ⟨_, exec_pix_completes p s herr henc (by simp [hx]) htc, rowCommitted_advance s _ _ hwf ha, by
    rw [advance_cb]; exact hwf'⟩

/-- Settles O27. -/
theorem pixCompletesARow : Obligations.PixCompletesARow := by
  intro p s herr henc hx htc hwf
  obtain ⟨t, hexec, hrow, -⟩ := exec_pix_commits p s herr henc hx htc hwf
  exact ⟨t, _, _, hexec, hrow, shiftBit_toNat _ _, shiftBit_toNat _ _⟩

/-- Settles O28. -/
theorem rowWritesItsTwoBytes : Obligations.RowWritesItsTwoBytes := by
  intro p0 p1 p2 p3 p4 p5 p6 p7 s herr henc hx htc hwf
  obtain ⟨t, lo, hi, hexec, hrow, -, hlo, hhi⟩ := exec_row_commits p0 p1 p2 p3 p4 p5 p6 p7 s herr henc hx htc hwf
  exact ⟨t, lo, hi, hexec, hrow, hlo, hhi⟩

/-- Settles O29. -/
theorem rowEqualsEightPix : Obligations.RowEqualsEightPix :=
  fun p0 p1 p2 p3 p4 p5 p6 p7 s herr henc hx =>
    (runAll_pix_eq_exec_row p0 p1 p2 p3 p4 p5 p6 p7 s herr henc hx).symm

end Sys2Proof.Proofs
end

section
/-! PROOFS. The encoding of an image (41_tile_encoder.md R129, R130): what PIX and ROW take of it, the chunk it fills,
and the image a job's chunks determine. -/

namespace Sys2Proof.Proofs

open Sys2Proof.Machine Sys2Proof.Safety Sys2Proof.Laws

/-! ## The bits of a pixel row -/

/-- Shifting one more bit into a register that holds the first `n` of a row, leftmost highest (R122). -/
theorem getLsbD_shiftBit_of_row (row : Nat → Bool) (r : Byte) (n : Nat) (hn : n < 8)
    (h : ∀ j, j < n → r.getLsbD (n - 1 - j) = row j) (j : Nat) (hj : j ≤ n) :
    (shiftBit r (row n)).getLsbD (n - j) = row j := by
  rcases Nat.lt_or_eq_of_le hj with hlt | rfl
  · have hshift : n - j = (n - 1 - j) + 1 := by omega
    rw [hshift, getLsbD_shiftBit_succ _ _ _ (by omega), h j hlt]
  · rw [Nat.sub_self, getLsbD_shiftBit_zero]

/-- The byte `r` is plane `plane` of the pixel row of the image that the block `s` is at, leftmost highest (R123). -/
def IsPlaneByte (img : Image) (s : State) (plane : Nat) (r : Byte) : Prop :=
  ∀ b, b < 8 → r.getLsbD b = planeBit plane (img (8 * s.tc.toNat + (7 - b)) (8 * s.tr.toNat + s.y.toNat))

/-! ## The chunk of an image (R130) -/

/-- R130 at the two addresses of the pixel row the block is at: the row's bits of each plane. -/
theorem chunkBit_at_rowAddress (img : Image) (s : State) (h : BlockInv s) (henc : s.enc = .fill) (plane b : Nat)
    (hp : plane < 2) (hb : b < 8) :
    chunkBit img s.imgW.toNat s.chunk.toNat (rowAddress s + plane) b
      = planeBit plane (img (8 * s.tc.toNat + (7 - b)) (8 * s.tr.toNat + s.y.toNat)) := by
  obtain ⟨-, hW160, hWmod, -⟩ := h.job_dims (by simp [henc])
  obtain ⟨-, htr, htc⟩ := h.fill_place henc
  obtain ⟨eh, ec, er, -⟩ := parts_of_off (s.tr.toNat % 2) s.tc.toNat s.y.toNat plane (Nat.mod_lt _ (by decide))
    (by omega) s.y.isLt hp
  have haddr : rowAddress s + plane = off (s.tr.toNat % 2) s.tc.toNat s.y.toNat + plane := by
    simp only [rowAddress, off, Nat.mod_mod]
  have hplane : planeOf (rowAddress s + plane) = plane := by
    simp only [planeOf, rowAddress, off, Config.trowBytes, Config.tileBytes]
    omega
  have hpx : 8 * s.tc.toNat + (7 - b) < s.imgW.toNat := by omega
  have hpy : 16 * s.chunk.toNat + 8 * (s.tr.toNat % 2) + s.y.toNat = 8 * s.tr.toNat + s.y.toNat := by omega
  simp only [chunkBit, hplane]
  rw [haddr, eh, ec, er, hpy, decide_eq_true hpx, Bool.true_and]

/-- Beyond the image's width a chunk is blank (R130). -/
theorem chunkBit_beyond_width (img : Image) (w c a b : Nat) (hw : w % 8 = 0) (ha : ¬ tileColOf a < w / 8) :
    chunkBit img w c a b = false := by
  have : ¬ 8 * tileColOf a + (7 - b) < w := by omega
  simp [chunkBit, this]

/-! ## A pixel row of the image committed (R124, R125) -/

/-- Address `a` belongs to the pixel row the block is at, or to one completed before it. -/
def DoneWithRow (s : State) (a : Nat) : Prop := rowDone s a = true ∨ a = rowAddress s ∨ a = rowAddress s + 1

section
variable {img : Image} {s t : State}

/-- In scan order these are the rows up to `POS`, itself included. -/
theorem doneWithRow_iff (htc : s.tc.toNat < s.imgW.toNat / 8) (hW : s.imgW.toNat ≤ 160) (a : Nat) :
    DoneWithRow s a ↔ tileColOf a < s.imgW.toNat / 8 ∧
      (halfOf a < s.tr.toNat % 2 ∨ halfOf a = s.tr.toNat % 2 ∧
        (tileColOf a < s.tc.toNat ∨ tileColOf a = s.tc.toNat ∧ pixelRowOf a ≤ s.y.toNat)) := by
  have hat : halfOf a = s.tr.toNat % 2 ∧ tileColOf a = s.tc.toNat ∧ pixelRowOf a = s.y.toNat
      ↔ a = rowAddress s ∨ a = rowAddress s + 1 := by
    refine ⟨fun hp => ?_, place_of_rowAddress s (by omega) a⟩
    simp only [halfOf, tileColOf, pixelRowOf] at hp
    simp only [rowAddress, off, Config.trowBytes, Config.tileBytes]
    omega
  rw [DoneWithRow, rowDone_iff, ← hat]
  omega

/-- While the chunk is not complete, the rows counted as done after `Advance` are those written. -/
theorem rowDone_iff_of_advanced (hadv : Advanced s t) (h : BlockInv s) (henc : s.enc = .fill) (hW : t.imgW = s.imgW)
    (hfill : t.enc = .fill) (a : Nat) : rowDone t a = true ↔ DoneWithRow s a := by
  obtain ⟨-, hW160, -⟩ := h.job_dims (by simp [henc])
  obtain ⟨-, -, htc⟩ := h.fill_place henc
  refine ⟨fun hd => ?_, rowDone_of_advanced s t hadv hW hfill htc (by omega) a⟩
  rw [rowDone_iff, hW] at hd
  rw [doneWithRow_iff htc hW160 a]
  have hrow : pixelRowOf a < 8 := by simp only [pixelRowOf]; omega
  obtain ⟨-, ⟨hy, ey, etc, etr, -⟩ | ⟨hy, hc, ey, etc, etr, -⟩ | ⟨hy, hc, ey, etc, etr, eenc⟩⟩ := hadv
  · have hy1 : t.y.toNat = s.y.toNat + 1 := by rw [ey, toNat_add_one_of_lt _ (by omega)]
    rw [etr, etc, hy1] at hd
    omega
  · have hc1 : t.tc.toNat = s.tc.toNat + 1 := by rw [etc, toNat_add_one_of_lt _ (by omega)]
    rw [etr, hc1, ey, BitVec.toNat_zero] at hd
    omega
  · have hodd : t.tr.toNat % 2 = 1 := by
      rw [etr]
      by_contra hne
      rw [if_pos (by omega), hfill] at eenc
      cases eenc
    have heven : s.tr.toNat % 2 = 0 := by rw [etr, BitVec.toNat_add, BitVec.toNat_ofNat] at hodd; omega
    rw [hodd, etc, ey, BitVec.toNat_zero, BitVec.toNat_zero] at hd
    omega

/-- Once the chunk is complete, every row of the image's width is written. -/
theorem doneWithRow_of_full (hadv : Advanced s t) (h : BlockInv s) (henc : s.enc = .fill) (hfull : t.enc = .full)
    (a : Nat) (ha : a < 640) (hcol : tileColOf a < s.imgW.toNat / 8) : DoneWithRow s a := by
  obtain ⟨-, hW160, -, -, -, -, -, -, hn9⟩ := h.job_dims (by simp [henc])
  obtain ⟨hchunk, htr, htc⟩ := h.fill_place henc
  rw [doneWithRow_iff htc hW160 a]
  have hparts : halfOf a < 2 ∧ pixelRowOf a < 8 := by simp only [halfOf, pixelRowOf]; omega
  obtain ⟨-, ⟨-, -, -, -, eenc⟩ | ⟨-, -, -, -, -, eenc⟩ | ⟨hy, hc, -, -, -, eenc⟩⟩ := hadv
  · simp [hfull, henc] at eenc
  · simp [hfull, henc] at eenc
  · have heven : (s.tr + 1#5).toNat % 2 = 0 := by
      by_contra hne
      rw [if_neg hne, hfull, henc] at eenc
      cases eenc
    rw [toNat_add_one_of_lt _ (by omega)] at heven
    omega

/-- Every byte written once the row is committed is that of the image's chunk, and no other byte is written. -/
theorem getLsbD_of_rowCommitted (h : BlockInv s) (he : Encodes img s) (henc : s.enc = .fill) (lo hi : Byte)
    (hrow : RowCommitted lo hi s t) (hlo : IsPlaneByte img s 0 lo) (hhi : IsPlaneByte img s 1 hi) (a b : Nat)
    (ha : a < 640) (hb : b < 8) :
    (DoneWithRow s a → (t.cb.read a).getLsbD b = chunkBit img s.imgW.toNat s.chunk.toNat a b)
      ∧ (¬ DoneWithRow s a → (t.cb.read a).getLsbD b = false) := by
  obtain ⟨-, -, hreadLo, hreadHi, helse⟩ := hrow
  change t.cb.read (rowAddress s) = lo at hreadLo
  change t.cb.read (rowAddress s + 1) = hi at hreadHi
  have hrows := he.rows henc a ha b hb
  by_cases h0 : a = rowAddress s
  · subst h0
    refine ⟨fun _ => ?_, fun hn => absurd (.inr (.inl rfl)) hn⟩
    rw [hreadLo, hlo b hb, ← chunkBit_at_rowAddress img s h henc 0 b (by decide) hb, Nat.add_zero]
  by_cases h1 : a = rowAddress s + 1
  · subst h1
    refine ⟨fun _ => ?_, fun hn => absurd (.inr (.inr rfl)) hn⟩
    rw [hreadHi, hhi b hb, ← chunkBit_at_rowAddress img s h henc 1 b (by decide) hb]
  rw [helse a h0 h1, hrows]
  simp +contextual [DoneWithRow, h0, h1]

/-- Committing the pixel row of the image at the block's place keeps the encoding. -/
theorem encodes_of_rowCommitted (h : BlockInv s) (he : Encodes img s) (henc : s.enc = .fill) (lo hi : Byte)
    (hrow : RowCommitted lo hi s t) (hlo : IsPlaneByte img s 0 lo) (hhi : IsPlaneByte img s 1 hi) : Encodes img t := by
  have hbits := getLsbD_of_rowCommitted h he henc lo hi hrow hlo hhi
  obtain ⟨hframe, hadv, -⟩ := hrow
  obtain ⟨hW, hchunk⟩ : t.imgW = s.imgW ∧ t.chunk = s.chunk := by rw [hframe]; exact ⟨rfl, rfl⟩
  obtain ⟨-, -, hWmod, -⟩ := h.job_dims (by simp [henc])
  refine { rows := fun hf a ha b hb => ?rows, begun := fun _ j hj => ?begun, whole := fun hf a ha b hb => ?whole }
  case rows =>
    have hdone := rowDone_iff_of_advanced hadv h henc hW hf a
    rw [hW, hchunk]
    by_cases hd : DoneWithRow s a
    · rw [(hbits a b ha hb).1 hd, hdone.2 hd, Bool.true_and]
    · rw [(hbits a b ha hb).2 hd, Bool.eq_false_iff.2 (mt hdone.1 hd), Bool.false_and]
  case begun => simp [hadv.1] at hj
  case whole =>
    rw [hW, hchunk]
    by_cases hcol : tileColOf a < s.imgW.toNat / 8
    · exact (hbits a b ha hb).1 (doneWithRow_of_full hadv h henc hf a ha hcol)
    · have hout := chunkBit_beyond_width img _ s.chunk.toNat a b hWmod hcol
      by_cases hd : DoneWithRow s a
      · exact (hbits a b ha hb).1 hd
      · rw [(hbits a b ha hb).2 hd, hout]

end

/-! ## PIX and ROW of the image (R126, R127, R129) -/

/-- The image's pixel at the block's place. -/
def pixelAt (img : Image) (s : State) : Pixel := img (8 * s.tc.toNat + s.x.toNat) (8 * s.tr.toNat + s.y.toNat)

/-- A PIX of the image's pixel inside its row. -/
theorem encodes_pix_inside (img : Image) (s : State) (he : Encodes img s) (henc : s.enc = .fill) (hx : s.x.toNat < 7) :
    Encodes img (setX (s.x + 1#3) (shiftIn (pixelAt img s) s)) where
  rows := he.rows
  begun := fun _ j hj => by
    have hcount : (s.x + 1#3).toNat = s.x.toNat + 1 := toNat_add_one_of_lt _ (by omega)
    simp only [setX, hcount] at hj ⊢
    rw [Nat.add_sub_cancel]
    exact ⟨getLsbD_shiftBit_of_row (fun j => planeBit 0 (img (8 * s.tc.toNat + j) (8 * s.tr.toNat + s.y.toNat)))
        s.lo s.x.toNat (by omega) (fun j hj => (he.begun henc j hj).1) j (by omega),
      getLsbD_shiftBit_of_row (fun j => planeBit 1 (img (8 * s.tc.toNat + j) (8 * s.tr.toNat + s.y.toNat)))
        s.hi s.x.toNat (by omega) (fun j hj => (he.begun henc j hj).2) j (by omega)⟩
  whole := fun hfull => nomatch henc.symm.trans hfull

/-- The eighth pixel makes the registers the plane bytes of the row. -/
theorem isPlaneByte_of_eighth (img : Image) (s : State) (hx : s.x = 7#3) (plane : Nat) (r : Byte)
    (h : ∀ j, j < s.x.toNat →
      r.getLsbD (s.x.toNat - 1 - j) = planeBit plane (img (8 * s.tc.toNat + j) (8 * s.tr.toNat + s.y.toNat))) :
    IsPlaneByte img s plane (shiftBit r (planeBit plane (pixelAt img s))) := by
  intro b hb
  have h7 : s.x.toNat = 7 := by rw [hx]; rfl
  have hlast := getLsbD_shiftBit_of_row
    (fun j => planeBit plane (img (8 * s.tc.toNat + j) (8 * s.tr.toNat + s.y.toNat))) r s.x.toNat (by omega) h (7 - b)
    (by omega)
  simp only [h7] at hlast
  rw [Nat.sub_sub_self (by omega)] at hlast
  simpa only [pixelAt, h7] using hlast

/-- Settles O31: inside a row the pixel joins the registers, the eighth commits the row. -/
theorem pixelsOfAnImageKeepItsEncoding : Obligations.PixelsOfAnImageKeepItsEncoding := by
  intro img s h he herr henc
  have hx8 := s.x.isLt
  by_cases hx : s.x.toNat < 7
  · have hexec := exec_pix_inside (pixelAt img s) s herr henc hx
    exact ⟨_, hexec, blockInv_exec _ s _ h hexec, encodes_pix_inside img s he henc hx⟩
  · have hx7 : s.x = 7#3 := BitVec.eq_of_toNat_eq (by rw [BitVec.toNat_ofNat]; omega)
    have hdims := h.job_dims (by simp [henc])
    have hplace := h.fill_place henc
    obtain ⟨t, hexec, hrow, -⟩ := exec_pix_commits (pixelAt img s) s herr henc hx7 (by omega) h.cb_wf
    exact ⟨t, hexec, blockInv_exec _ s _ h hexec, encodes_of_rowCommitted h he henc _ _ hrow
      (isPlaneByte_of_eighth img s hx7 0 s.lo fun j hj => (he.begun henc j hj).1)
      (isPlaneByte_of_eighth img s hx7 1 s.hi fun j hj => (he.begun henc j hj).2)⟩

/-- The image as the block `s` sees it: pixel `x` of row `y` of the tile the block is at. -/
def tileAt (img : Image) (s : State) : Nat → Nat → Pixel := fun y x => img (8 * s.tc.toNat + x) (8 * s.tr.toNat + y)

/-- A ROW of the image's pixels at the block's place commits the row, and the block still encodes the image. -/
theorem exec_row_of_image (img : Image) (s : State) (h : BlockInv s) (he : Encodes img s) (herr : s.err = .noError)
    (henc : s.enc = .fill) (hx : s.x = 0#3) :
    ∃ (t : State) (lo hi : Byte), exec (tileRow (tileAt img s) s.y.toNat) s = .next t ∧ RowCommitted lo hi s t
      ∧ BlockInv t ∧ Encodes img t := by
  have hdims := h.job_dims (by simp [henc])
  have hplace := h.fill_place henc
  have htc : s.tc.toNat ≤ 19 := by omega
  obtain ⟨lo, hi, hs, hexec⟩ := exec_row_completes _ _ _ _ _ _ _ _ s herr henc hx htc
  have hrow := rowCommitted_advance s lo hi h.cb_wf (rowAddress_lt s htc)
  have hplane (plane : Nat) : IsPlaneByte img s plane (planeRegister plane { s with lo := lo, hi := hi }) := by
    intro b hb
    have hbit := getLsbD_planeRegister_shiftInAll plane (tilePixels (tileAt img s) s.y.toNat) s (by simp [tilePixels])
      (7 - b) (by simp [tilePixels]; omega)
    rw [← hs]
    change (planeRegister plane (shiftInAll (tilePixels (tileAt img s) s.y.toNat) s)).getLsbD b = _
    simpa [tilePixels, tileAt, show 7 - (7 - b) = b by omega] using hbit
  exact ⟨_, lo, hi, hexec, hrow, blockInv_exec _ s _ h hexec,
    encodes_of_rowCommitted h he henc lo hi hrow (hplane 0) (hplane 1)⟩

/-- Settles O32. -/
theorem rowsOfAnImageKeepItsEncoding : Obligations.RowsOfAnImageKeepItsEncoding := by
  intro img s h he herr henc hx
  obtain ⟨t, -, -, hexec, -, ht⟩ := exec_row_of_image img s h he herr henc hx
  exact ⟨t, hexec, ht⟩

/-! ## The beginning of a chunk (R103, R151) -/

/-- A block about to fill a blank buffer, at the start of a band, has taken nothing of any image. -/
theorem encodes_of_blank (img : Image) (s : State) (henc : s.enc = .fill) (hcb : s.cb = []) (htr : s.tr.toNat % 2 = 0)
    (htc : s.tc = 0#5) (hy : s.y = 0#3) (hx : s.x = 0#3) : Encodes img s where
  rows := fun _ a _ b _ => by
    have hnone : rowDone s a = false := by simp [rowDone, htr, htc, hy]
    rw [hcb, hnone, Memory.read_nil, BitVec.getLsbD_zero, Bool.false_and]
  begun := fun _ j hj => by simp [hx] at hj
  whole := fun hfull => nomatch henc.symm.trans hfull

theorem encodes_advanceChunk (img : Image) (s : State) (h : BlockInv s) (hfull : s.enc = .full)
    (hfill : (advanceChunk s).enc = .fill) : Encodes img (advanceChunk s) := by
  obtain ⟨-, htr, htc, hy, hx⟩ := h.full_place hfull
  exact encodes_of_blank img (advanceChunk s) hfill rfl (by rw [advanceChunk_tr]; omega) htc hy hx

/-- Of what a FRAME operation does once its frame is sent, only the hand-over of FRAME.DATA writes `ENC`. -/
theorem sentFrame_enc (i : Instr) (s : State) (h : i ≠ .frameData) : (sentFrame i s).enc = s.enc := by
  cases i with
  | frameData => exact absurd rfl h
  | _ => rfl

/-- Settles O33: of the operations that leave `E_FILL`, START and the two drains enter it. -/
theorem startAndDrainBeginAnEncoding : Obligations.StartAndDrainBeginAnEncoding := by
  intro img i s t h herr hexec hfill hne
  cases exec_does i s t hexec with
  | start d => exact encodes_of_blank img _ rfl rfl rfl rfl rfl rfl
  | frame cmd comp pl rs rest hf _ hp =>
    by_cases hi : i = .frameData
    · subst hi
      obtain ⟨-, hfull⟩ := hp
      have hu : BlockInv (afterFrame cmd comp pl rs rest s) :=
        blockInv_exchanged s h (by simp [hfull]) _ _ _ s.stuck _ rest s.putAnswers
      exact encodes_advanceChunk img _ hu hfull hfill
    · rw [sentFrame_enc i _ hi] at hfill
      exact absurd hfill hne
  | dump rest hi _ hp =>
    subst hi
    obtain ⟨-, hfull⟩ := hp
    exact encodes_advanceChunk img _ { h with } hfull hfill
  | rst => cases hfill
  | badAddress => exact absurd hfill hne
  | pixel _ _ _ henc | pixelRow _ _ _ _ henc | pixelRowNowhere _ _ _ _ henc => exact absurd henc hne
  | ignored | badPhase | setw | seth | badStart | frameFails | frameSilent | dumpFails | dumpSilent | read =>
    exact absurd hfill hne

/-! ## The full chunk (R130) -/

/-- Settles O34. -/
theorem fullChunkIsTheChunkOfTheImage : Obligations.FullChunkIsTheChunkOfTheImage := by
  intro img s he hfull a b ha hb
  rw [chunkBytesOf_getElem]
  exact he.whole hfull a (by simpa using ha) b hb

theorem chunkByte_eq_of_bits (img : Image) (w c a : Nat) (v : Byte)
    (h : ∀ b, b < 8 → v.getLsbD b = chunkBit img w c a b) : v = chunkByte img w c a := by
  apply BitVec.eq_of_toNat_eq
  simp only [chunkByte, ← h, Nat.reduceLT, ← byte_toNat_eq_bits, BitVec.ofNat_toNat, BitVec.setWidth_eq]

/-- So its bytes are those of `K_c`, in the order in which they are drained (20_memory.md R63). -/
theorem chunkBytesOf_of_full (img : Image) (s : State) (he : Encodes img s) (hfull : s.enc = .full) :
    chunkBytesOf s = encodedChunk img s.imgW.toNat s.chunk.toNat := by
  refine List.ext_getElem (by simp [encodedChunk]) fun a ha _ => ?_
  simp only [encodedChunk, List.getElem_map, List.getElem_range]
  exact chunkByte_eq_of_bits _ _ _ _ _ fun b hb => fullChunkIsTheChunkOfTheImage img s he hfull a b ha hb

/-! ## The chunks determine the image (R130, R121) -/

/-- The bits of a matched pixel determine it. -/
theorem pixel_eq_of_planeBits (p q : Pixel) (hp : p.m = true) (hq : q.m = true)
    (h : ∀ plane, plane < 2 → planeBit plane p = planeBit plane q) : p = q := by
  have h0 := h 0 (by decide)
  have h1 := h 1 (by decide)
  simp only [planeBit, colourCode_eq, hp, hq, if_true, one_ne_zero, if_false, Bool.true_and,
    Bool.not_inj_iff] at h0 h1
  obtain ⟨m, i⟩ := p
  obtain ⟨m', i'⟩ := q
  obtain rfl : m = m' := hp.trans hq.symm
  congr 1
  apply BitVec.eq_of_getLsbD_eq
  intro k hk
  obtain rfl | rfl : k = 0 ∨ k = 1 := by omega
  · exact h0
  · exact h1

/-- R130 read at the place of one pixel: band, tile and row of the pixel give back its column and its row. -/
theorem chunkBit_of_pixel (img : Image) (w px py plane : Nat) (hw : w ≤ 160) (hpx : px < w) (hp : plane < 2) :
    chunkBit img w (py / 16) (off (py / 8 % 2) (px / 8) (py % 8) + plane) (7 - px % 8)
      = planeBit plane (img px py) := by
  obtain ⟨eh, ec, er, ep⟩ := parts_of_off (py / 8 % 2) (px / 8) (py % 8) plane (Nat.mod_lt _ (by decide)) (by omega)
    (Nat.mod_lt _ (by decide)) hp
  have hcol : 8 * (px / 8) + (7 - (7 - px % 8)) = px := by omega
  have hrow : 16 * (py / 16) + 8 * (py / 8 % 2) + py % 8 = py := by omega
  simp only [chunkBit, eh, ec, er, ep, hcol, hrow, hpx, decide_true, Bool.true_and]

/-- Settles O38: every pixel has its two bits in the chunks, and they determine it. -/
theorem chunksDetermineTheImage : Obligations.ChunksDetermineTheImage := by
  intro img img' w h hw _ hh hm hbits px py hpx hpy
  obtain ⟨hmatch, hmatch'⟩ := hm px py hpx hpy
  refine pixel_eq_of_planeBits _ _ hmatch hmatch' fun plane hp => ?_
  rw [← chunkBit_of_pixel img w px py plane hw hpx hp, ← chunkBit_of_pixel img' w px py plane hw hpx hp]
  refine hbits _ _ _ (by omega) ?_ (by omega)
  simp only [off, Config.trowBytes, Config.tileBytes]
  omega

end Sys2Proof.Proofs
end

section
/-! PROOFS. The ROWs of a band fill the chunk (41_tile_encoder.md R129, R130; 70_reset_and_hazards.md R193 step 6). -/

namespace Sys2Proof.Proofs

open Sys2Proof.Machine Sys2Proof.Safety Sys2Proof.Laws

/-! ## The ROWs of a band, by their number in scan order -/

/-- Two nested loops as one. -/
theorem flatMap_range_map_range {α : Type} (f : Nat → Nat → α) (m n : Nat) :
    ((List.range m).flatMap fun i => (List.range n).map (f i))
      = (List.range (m * n)).map fun k => f (k / n) (k % n) := by
  induction m with
  | zero => simp
  | succ m ih =>
    rw [List.range_succ, List.flatMap_append, List.flatMap_singleton, ih, Nat.succ_mul, List.range_add, List.map_append,
      List.map_map]
    congr 1
    refine List.map_congr_left fun j hj => ?_
    have hj : j < n := List.mem_range.1 hj
    simp only [Function.comp_apply, Nat.mul_comm m n, Nat.mul_add_div (Nat.zero_lt_of_lt hj), Nat.mul_add_mod,
      Nat.div_eq_of_lt hj, Nat.mod_eq_of_lt hj, Nat.add_zero]

/-- The ROW of row `y` of tile `tc` in tile row `half` of band `c`. -/
def bandRow (img : Image) (c half tc y : Nat) : Instr :=
  tileRow (fun y x => img (8 * tc + x) (16 * c + 8 * half + y)) y

/-- ROW number `k` of a band, in a tile row of `n` ROWs. -/
def bandRowAt (img : Image) (c n k : Nat) : Instr := bandRow img c (k / n) (k % n / 8) (k % n % 8)

theorem bandRows_eq (img : Image) (w c : Nat) :
    bandRows img w c = (List.range (2 * (w / 8 * 8))).map (bandRowAt img c (w / 8 * 8)) := by
  change ((List.range 2).flatMap fun half => (List.range (w / 8)).flatMap fun tc =>
    (List.range 8).map (bandRow img c half tc)) = _
  simp only [flatMap_range_map_range (bandRow img c _)]
  exact flatMap_range_map_range (fun half k => bandRow img c half (k / 8) (k % 8)) 2 (w / 8 * 8)

/-! ## The state after the first `k` ROWs of a band -/

/-- The number of ROWs of the band that come before the place of `t`. -/
def rowsBefore (c : Nat) (t : State) : Nat :=
  (t.tr.toNat - 2 * c) * (t.imgW.toNat / 8 * 8) + (t.tc.toNat * 8 + t.y.toNat)

/-- `s` with what the tile encoder writes taken from `u`: the shift registers, the buffer, the place, the phase. -/
def withTileOf (u s : State) : State :=
  { s with lo := u.lo, hi := u.hi, cb := u.cb, tr := u.tr, tc := u.tc, y := u.y, x := u.x, enc := u.enc }

theorem withTileOf_of_rowCommitted {lo hi : Byte} {s t : State} (h : RowCommitted lo hi s t) : t = withTileOf t s := by
  obtain ⟨hframe, -⟩ := h
  have hlo : t.lo = lo := by rw [hframe]
  have hhi : t.hi = hi := by rw [hframe]
  rw [withTileOf, hlo, hhi]
  exact hframe

/-- From the start `s` of a band, `t` has taken the band's first `k` ROWs of the image. -/
structure BandTaken (img : Image) (s : State) (k : Nat) (t : State) : Prop where
  inv : BlockInv t
  encodes : Encodes img t
  frame : t = withTileOf t s
  x_zero : t.x = 0#3
  phase : t.enc = .fill ∨ t.enc = .full
  place : rowsBefore s.chunk.toNat t = k

section
variable {img : Image} {s t : State} {k : Nat}

theorem BandTaken.fields (h : BandTaken img s k t) : t.imgW = s.imgW ∧ t.chunk = s.chunk ∧ t.err = s.err := by
  rw [h.frame]
  exact ⟨rfl, rfl, rfl⟩

/-- The band has `2 * (W / 8 * 8)` ROWs: before the last of them the chunk is being filled, after it the chunk is full,
and the place is at the start of the next band. -/
theorem BandTaken.fill_iff (h : BandTaken img s k t) : t.enc = .fill ↔ k < 2 * (s.imgW.toNat / 8 * 8) := by
  obtain ⟨hW, hchunk, -⟩ := h.fields
  have hplace := h.place
  rw [rowsBefore, hW] at hplace
  have hy := t.y.isLt
  refine ⟨fun hfill => ?_, fun hk => h.phase.resolve_right fun hfull => ?_⟩
  · obtain ⟨-, htr, htc⟩ := h.inv.fill_place hfill
    rw [hchunk] at htr
    rw [hW] at htc
    obtain e | e : t.tr.toNat - 2 * s.chunk.toNat = 0 ∨ t.tr.toNat - 2 * s.chunk.toNat = 1 := by omega
    · rw [e] at hplace; omega
    · rw [e] at hplace; omega
  · obtain ⟨-, htr, htc, hy0, -⟩ := h.inv.full_place hfull
    rw [hchunk] at htr
    rw [htr, htc, hy0, show 2 * (s.chunk.toNat + 1) - 2 * s.chunk.toNat = 2 by omega] at hplace
    simp only [BitVec.toNat_ofNat, Nat.reducePow, Nat.reduceMod, Nat.zero_mul, Nat.add_zero] at hplace
    omega

/-- The ROW that comes next in the band is that of the image at the block's place. -/
theorem BandTaken.next_row (h : BandTaken img s k t) (hfill : t.enc = .fill) :
    bandRowAt img s.chunk.toNat (s.imgW.toNat / 8 * 8) k = tileRow (tileAt img t) t.y.toNat := by
  obtain ⟨hW, hchunk, -⟩ := h.fields
  obtain ⟨-, htr, htc⟩ := h.inv.fill_place hfill
  rw [hchunk] at htr
  rw [hW] at htc
  have hy := t.y.isLt
  have hin : t.tc.toNat * 8 + t.y.toNat < s.imgW.toNat / 8 * 8 := by omega
  have hk : k = (s.imgW.toNat / 8 * 8) * (t.tr.toNat - 2 * s.chunk.toNat) + (t.tc.toNat * 8 + t.y.toNat) := by
    rw [← h.place, rowsBefore, hW, Nat.mul_comm]
  have hhalf : k / (s.imgW.toNat / 8 * 8) = t.tr.toNat - 2 * s.chunk.toNat := by
    rw [hk, Nat.mul_add_div (by omega), Nat.div_eq_of_lt hin, Nat.add_zero]
  have hrest : k % (s.imgW.toNat / 8 * 8) = t.tc.toNat * 8 + t.y.toNat := by
    rw [hk, Nat.mul_add_mod, Nat.mod_eq_of_lt hin]
  have hcol : (t.tc.toNat * 8 + t.y.toNat) / 8 = t.tc.toNat := by omega
  have hrow : (t.tc.toNat * 8 + t.y.toNat) % 8 = t.y.toNat := by omega
  have htile : 16 * s.chunk.toNat + 8 * (t.tr.toNat - 2 * s.chunk.toNat) = 8 * t.tr.toNat := by omega
  rw [bandRowAt, hhalf, hrest, hcol, hrow, bandRow, htile]
  rfl

/-- `Advance` moves the place one ROW further in the band. -/
theorem rowsBefore_of_advanced {u : State} (h : BlockInv t) (hfill : t.enc = .fill) (hadv : Advanced t u)
    (hW : u.imgW = t.imgW) : rowsBefore t.chunk.toNat u = rowsBefore t.chunk.toNat t + 1 := by
  obtain ⟨-, hW160, -, -, -, -, -, -, hn9⟩ := h.job_dims (by simp [hfill])
  obtain ⟨hchunk, htr, htc⟩ := h.fill_place hfill
  rw [rowsBefore, rowsBefore, hW]
  obtain ⟨-, ⟨hy, ey, etc, etr, -⟩ | ⟨hy, hc, ey, etc, etr, -⟩ | ⟨hy, hc, ey, etc, etr, -⟩⟩ := hadv
  · rw [etr, etc, ey, toNat_add_one_of_lt _ (by omega)]
    omega
  · rw [etr, etc, ey, toNat_add_one_of_lt _ (by omega), hy, BitVec.toNat_zero]
    omega
  · rw [etr, etc, ey, toNat_add_one_of_lt _ (by omega), hy, BitVec.toNat_zero, BitVec.toNat_zero,
      show t.tr.toNat + 1 - 2 * t.chunk.toNat = t.tr.toNat - 2 * t.chunk.toNat + 1 by omega, Nat.succ_mul]
    omega

/-- One ROW more of the band. -/
theorem BandTaken.step (h : BandTaken img s k t) (herr : s.err = .noError)
    (hk : k < 2 * (s.imgW.toNat / 8 * 8)) :
    ∃ u, exec (bandRowAt img s.chunk.toNat (s.imgW.toNat / 8 * 8) k) t = .next u ∧ BandTaken img s (k + 1) u := by
  obtain ⟨hW, hchunk, herr'⟩ := h.fields
  have hfill := h.fill_iff.2 hk
  obtain ⟨u, lo, hi, hexec, hrow, hinv, henc⟩ :=
    exec_row_of_image img t h.inv h.encodes (herr'.trans herr) hfill h.x_zero
  rw [h.next_row hfill]
  refine ⟨u, hexec, hinv, henc, ?frame, hrow.2.1.1, ?phase, ?place⟩
  case frame =>
    calc u = withTileOf u t := withTileOf_of_rowCommitted hrow
      _ = withTileOf u (withTileOf t s) := congrArg (withTileOf u) h.frame
      _ = withTileOf u s := rfl
  case phase => exact (place_of_advanced t u h.inv hfill hrow.2.1).imp And.left And.left
  case place =>
    obtain ⟨hframe, hadv, -⟩ := hrow
    have hWu : u.imgW = t.imgW := by rw [hframe]
    rw [← h.place, ← hchunk]
    exact rowsBefore_of_advanced h.inv hfill hadv hWu

/-- The first `k` ROWs of a band all complete. -/
theorem runAll_bandRows (herr : s.err = .noError) (h0 : BandTaken img s 0 s) (k : Nat)
    (hk : k ≤ 2 * (s.imgW.toNat / 8 * 8)) :
    ∃ t, runAll ((List.range k).map (bandRowAt img s.chunk.toNat (s.imgW.toNat / 8 * 8))) s = .next t
      ∧ BandTaken img s k t := by
  induction k with
  | zero => exact ⟨s, rfl, h0⟩
  | succ k ih =>
    obtain ⟨t, hrun, ht⟩ := ih (by omega)
    obtain ⟨u, hexec, hu⟩ := ht.step herr (by omega)
    refine ⟨u, ?_, hu⟩
    rw [List.range_succ, List.map_append, runAll_append, hrun, andThen_next]
    exact hexec

end

/-- Settles O35: the whole band is taken, and the full chunk is `K_c`. -/
theorem bandOfAnImageFillsTheChunk : Obligations.BandOfAnImageFillsTheChunk := by
  intro img s h herr hfill hcb htr htc hy hx
  have h0 : BandTaken img s 0 s :=
    { inv := h
      encodes := encodes_of_blank img s hfill hcb (by omega) htc hy hx
      frame := rfl
      x_zero := hx
      phase := .inl hfill
      place := by rw [rowsBefore, htr, htc, hy]; simp }
  obtain ⟨t, hrun, ht⟩ := runAll_bandRows herr h0 _ le_rfl
  obtain ⟨hW, hchunk, -⟩ := ht.fields
  have hfull : t.enc = .full := ht.phase.resolve_left fun hf => by simpa using ht.fill_iff.1 hf
  obtain ⟨-, htr', htc', hy', -⟩ := ht.inv.full_place hfull
  have hband : t.tr = s.tr + 2#5 := by
    have := h.job_dims (by simp [hfill])
    have := h.fill_place hfill
    apply BitVec.eq_of_toNat_eq
    rw [htr', hchunk, BitVec.toNat_add, htr, BitVec.toNat_ofNat]
    omega
  refine ⟨t, by rw [bandRows_eq, hrun], ?_, ?_⟩
  · rw [chunkBytesOf_of_full img t ht.encodes hfull, hW, hchunk]
  · calc t = withTileOf t s := ht.frame
      _ = _ := by simp only [withTileOf, hfull, hband, htc', hy', ht.x_zero, htc, hy, hx]

end Sys2Proof.Proofs
end

section
/-! PROOFS. What a job has sent (42_checksum_framer.md R155, R156), step by step: the bytes on the wire, the job START
begins (40_config_control.md R103), the frames of a print job, the chunks of a dump job. -/

namespace Sys2Proof.Proofs

open Sys2Proof.Machine Sys2Proof.Safety Sys2Proof.Laws

/-! ## The bytes of a history (00_scope.md R13) -/

theorem txBytes_append (h h' : List Event) : txBytes (h ++ h') = txBytes h ++ txBytes h' :=
  List.filterMap_append

theorem txBytes_map_tx (bs : List Byte) : txBytes (bs.map .tx) = bs := by
  induction bs with
  | nil => rfl
  | cons b bs ih => exact congrArg (b :: ·) ih

/-- Of bytes sent and answered, the bytes sent. -/
theorem txBytes_exchanges (bs rs : List Byte) (h : bs.length = rs.length) : txBytes (exchanges bs rs) = bs := by
  induction bs generalizing rs with
  | nil => rfl
  | cons b bs ih =>
    cases rs with
    | nil => cases h
    | cons r rs => exact congrArg (b :: ·) (ih rs (by simpa using h))

/-- A frame answered to its end adds its bytes (R143). -/
theorem txBytes_afterFrame (cmd comp : Byte) (pl rs : List Byte) (rest : List XferAnswer) (s : State)
    (h : rs.length = pl.length + 10) :
    txBytes (afterFrame cmd comp pl rs rest s).hist = txBytes s.hist ++ frameBytes cmd comp pl := by
  rw [afterFrame, txBytes_append, txBytes_exchanges _ _ (by rw [frameBytes_length, h])]

/-! ## The beginning of a job (R103) -/

/-- Settles O56: of the outcomes of START only the job it begins has no error. -/
theorem startBeginsAJob : Obligations.StartBeginsAJob := by
  intro d s t herr hexec hok
  by_cases henc : s.enc = .idle
  · rw [exec_start_idle d s herr henc] at hexec
    split_ifs at hexec <;> cases hexec
    · cases hok
    · cases hok
    · have hchunks : DrainedChunks [] (startedJob d s) := ⟨rfl, by simp⟩
      refine ⟨rfl, ?_, fun _ => ⟨hchunks, (List.append_nil _).symm⟩⟩
      rintro rfl
      exact ⟨hchunks, (List.append_nil _).symm⟩
  · rw [falsePreconditionRaisesSequenceError (.start d) s herr henc] at hexec
    cases hexec
    cases hok

/-! ## The frames of a print job (R155) -/

theorem sentFrame_hist (i : Instr) (s : State) : (sentFrame i s).hist = s.hist := by
  cases i <;> rfl

theorem sentFrame_packets (i : Instr) (s : State) : (sentFrame i s).packets = s.packets := by
  cases i <;> rfl

/-! What each frame adds, in the terms of the whole job. -/

theorem printJobBytes_init (pk : Packets) (n k : Nat) :
    printJobBytes pk .data [] n = printJobBytes pk .ready [] k ++ packetFrame pk.pInit := by
  simp [printJobBytes]

theorem printJobBytes_data (pk : Packets) (chunks : List (List Byte)) (c : List Byte) (n k : Nat) :
    printJobBytes pk .data (chunks ++ [c]) n = printJobBytes pk .data chunks k ++ dataFrame c := by
  simp [printJobBytes]

theorem printJobBytes_empty (pk : Packets) (chunks : List (List Byte)) (n k : Nat) :
    printJobBytes pk .emptied chunks n = printJobBytes pk .data chunks k ++ packetFrame pk.pEmpty := by
  simp [printJobBytes]

theorem printJobBytes_print (pk : Packets) (chunks : List (List Byte)) (k : Nat) :
    printJobBytes pk .report chunks 0 = printJobBytes pk .emptied chunks k ++ packetFrame pk.pPrint := by
  simp [printJobBytes]

theorem printJobBytes_report (pk : Packets) (chunks : List (List Byte)) (n : Nat) (q : SeqPhase)
    (hq : q = .report ∨ q = .done) :
    printJobBytes pk q chunks (n + 1) = printJobBytes pk .report chunks n ++ packetFrame pk.pReport := by
  rcases hq with rfl | rfl <;> simp [printJobBytes, List.replicate_succ']

theorem raise_err_ne_noError (s : State) : (raise .illegalOperation s).err ≠ .noError := by
  rw [raise_err]
  split_ifs with h
  · simp
  · exact h

section
variable {base : List Byte} {chunks : List (List Byte)} {s t : State}

/-- What a print job has sent depends on these fields alone. -/
theorem printJob_of_fields (hchunk : t.chunk = s.chunk) (hhist : t.hist = s.hist) (hpackets : t.packets = s.packets)
    (hseq : t.seq = s.seq) (hrpt : t.rpt = s.rpt) (h : PrintJob base chunks s) : PrintJob base chunks t := by
  simpa only [PrintJob, DrainedChunks, hchunk, hhist, hpackets, hseq, hrpt] using h

theorem drainedChunks_advanceChunk (h : DrainedChunks chunks s) (hcount : (s.chunk + 1#4).toNat = s.chunk.toNat + 1)
    (c : List Byte) (hc : c.length = 640) : DrainedChunks (chunks ++ [c]) (advanceChunk s) := by
  obtain ⟨hlen, h640⟩ := h
  refine ⟨by rw [List.length_append, List.length_singleton, hlen, advanceChunk_chunk, hcount], fun d hd => ?_⟩
  rcases List.mem_append.1 hd with hd | hd
  · exact h640 d hd
  · rw [List.mem_singleton.1 hd, hc]

/-- The hand-over after a DATA frame counts its payload as drained (R151). -/
theorem printJob_advanceChunk (hseq : s.seq = .data) (h : DrainedChunks chunks s)
    (hcount : (s.chunk + 1#4).toNat = s.chunk.toNat + 1) (c : List Byte) (hc : c.length = 640)
    (hbytes : txBytes s.hist = base ++ printJobBytes s.packets .data chunks s.rpt.toNat ++ dataFrame c) :
    PrintJob base (chunks ++ [c]) (advanceChunk s) := by
  refine ⟨drainedChunks_advanceChunk h hcount c hc, ?_⟩
  rw [advanceChunk_hist, advanceChunk_packets, advanceChunk_seq, advanceChunk_rpt, hseq, hbytes, List.append_assoc,
    ← printJobBytes_data]

/-- FRAME.DATA of a payload of 640 bytes adds its DATA frame. -/
theorem printJob_frameData (cmd comp : Byte) (pl rs : List Byte) (rest : List XferAnswer) (hseq : s.seq = .data)
    (h : DrainedChunks chunks s) (hcount : (s.chunk + 1#4).toNat = s.chunk.toNat + 1) (hpl : pl.length = 640)
    (hbytes : txBytes (afterFrame cmd comp pl rs rest s).hist
      = base ++ printJobBytes s.packets .data chunks s.rpt.toNat ++ dataFrame pl) :
    PrintJob base (chunks ++ [pl]) (advanceChunk (afterFrame cmd comp pl rs rest s)) :=
  printJob_advanceChunk (s := afterFrame cmd comp pl rs rest s) hseq h hcount pl hpl hbytes

/-- The count after a REPORT frame (R150). -/
theorem printJob_countReport (hseq : s.seq = .report) (h : DrainedChunks chunks s)
    (hcount : (s.rpt + 1#4).toNat = s.rpt.toNat + 1)
    (hbytes : txBytes s.hist
      = base ++ printJobBytes s.packets .report chunks s.rpt.toNat ++ packetFrame s.packets.pReport) :
    PrintJob base chunks (countReport s) := by
  refine ⟨h, ?_⟩
  have hphase : (countReport s).seq = .report ∨ (countReport s).seq = .done := by
    rw [countReport_seq, hseq]
    split_ifs
    · exact .inr rfl
    · exact .inl rfl
  rw [countReport_hist, countReport_packets, countReport_rpt, hcount, printJobBytes_report _ _ _ _ hphase, hbytes,
    List.append_assoc]

/-- A FRAME operation answered to its end adds its frame to those of the job, in the mandated order. -/
theorem printJob_sentFrame (h : BlockInv s) (hjob : PrintJob base chunks s) (i : Instr) (cmd comp : Byte)
    (pl rs : List Byte) (rest : List XferAnswer) (hf : frameOf i s = some (cmd, comp, pl)) (hpre : Pre i s)
    (hl : rs.length = pl.length + 10) :
    PrintJob base chunks (sentFrame i (afterFrame cmd comp pl rs rest s))
      ∨ (s.enc = .full
        ∧ PrintJob base (chunks ++ [chunkBytesOf s]) (sentFrame i (afterFrame cmd comp pl rs rest s))) := by
  obtain ⟨hchunks, hbytes⟩ := hjob
  have hsent : txBytes (sentFrame i (afterFrame cmd comp pl rs rest s)).hist
      = base ++ printJobBytes s.packets s.seq chunks s.rpt.toNat ++ frameBytes cmd comp pl := by
    rw [sentFrame_hist, txBytes_afterFrame _ _ _ _ _ _ hl, hbytes]
  rcases frameOf_isSome i s (by simp [hf]) with rfl | rfl | rfl | rfl | rfl <;> cases hf
  · have hseq : s.seq = .ready := hpre
    have hnone : chunks = [] := List.length_eq_zero_iff.1 (by rw [hchunks.1, h.ready_chunk hseq]; rfl)
    subst hnone
    refine .inl ⟨hchunks, hsent.trans ?_⟩
    rw [hseq, List.append_assoc]
    exact congrArg (base ++ ·) (printJobBytes_init s.packets _ _).symm
  · obtain ⟨hseq, hfull⟩ := hpre
    obtain ⟨hlt, -⟩ := h.full_place hfull
    rw [sentFrame_hist, hseq] at hsent
    exact .inr ⟨hfull, printJob_frameData _ _ _ _ _ hseq hchunks (advanceChunk_phase s hlt).1
      (chunkBytesOf_length s) hsent⟩
  · obtain ⟨hseq, -⟩ := hpre
    refine .inl ⟨hchunks, hsent.trans ?_⟩
    rw [hseq, List.append_assoc]
    exact congrArg (base ++ ·) (printJobBytes_empty s.packets chunks _ _).symm
  · have hseq : s.seq = .emptied := hpre
    refine .inl ⟨hchunks, hsent.trans ?_⟩
    rw [hseq, List.append_assoc]
    exact congrArg (base ++ ·) (printJobBytes_print s.packets chunks _).symm
  · have hseq : s.seq = .report := hpre
    have hrpt : (s.rpt + 1#4).toNat = s.rpt.toNat + 1 :=
      toNat_add_one_of_lt _ (by have := h.report_count.1 hseq; omega)
    rw [sentFrame_hist, hseq] at hsent
    exact .inl (printJob_countReport hseq hchunks hrpt hsent)

/-- An operation of a print job that raises no error, leaves no stuck operation and does not reset the block. -/
theorem printJob_exec (i : Instr) (h : BlockInv s) (hmode : s.mode = .print) (hbusy : s.enc ≠ .idle)
    (hjob : PrintJob base chunks s) (hexec : exec i s = .next t) (hok : t.err = .noError) (hfree : t.stuck = false)
    (hbusy' : t.enc ≠ .idle) :
    PrintJob base chunks t ∨ (s.enc = .full ∧ PrintJob base (chunks ++ [chunkBytesOf s]) t) := by
  cases exec_does i s t hexec with
  | frame cmd comp pl rs rest hf _ hpre hl => exact printJob_sentFrame h hjob i cmd comp pl rs rest hf hpre hl
  | pixel | read => exact .inl hjob
  | pixelRow | pixelRowNowhere => exact .inl (printJob_of_fields (by simp) (by simp) (by simp) (by simp) (by simp) hjob)
  | ignored hne => exact absurd hok hne
  | badPhase | frameFails | dumpFails => cases hok
  | badStart _ e _ _ _ he => rcases he with rfl | rfl <;> cases hok
  | badAddress => exact absurd hok (raise_err_ne_noError s)
  | rst => exact absurd rfl hbusy'
  | setw _ _ _ hidle | seth _ _ _ hidle | start _ _ _ hidle => exact absurd hidle hbusy
  | dump _ hi _ hpre => subst hi; exact nomatch hmode.symm.trans hpre.1
  | frameSilent | dumpSilent => cases hfree

end

/-! ## The chunks of a dump job (R156) -/

section
variable {base : List Byte} {chunks : List (List Byte)} {s t : State}

theorem dumpJob_of_fields (hchunk : t.chunk = s.chunk) (hhist : t.hist = s.hist) (h : DumpJob base chunks s) :
    DumpJob base chunks t := by
  simpa only [DumpJob, DrainedChunks, hchunk, hhist] using h

/-- A DUMP whose bytes are all taken adds the chunk (R153, 20_memory.md R63). -/
theorem dumpJob_dumped (h : BlockInv s) (hfull : s.enc = .full) (hjob : DumpJob base chunks s) (rest : List PutAnswer) :
    DumpJob base (chunks ++ [chunkBytesOf s])
      (advanceChunk { s with hist := s.hist ++ (chunkBytesOf s).map .tx, putAnswers := rest }) := by
  obtain ⟨hchunks, hbytes⟩ := hjob
  obtain ⟨hlt, -⟩ := h.full_place hfull
  refine ⟨drainedChunks_advanceChunk hchunks (advanceChunk_phase s hlt).1 _ (chunkBytesOf_length s), ?_⟩
  rw [advanceChunk_hist, txBytes_append, txBytes_map_tx, hbytes, List.flatten_append, List.flatten_singleton,
    List.append_assoc]

theorem dumpJob_exec (i : Instr) (h : BlockInv s) (hmode : s.mode = .dump) (hbusy : s.enc ≠ .idle)
    (hjob : DumpJob base chunks s) (hexec : exec i s = .next t) (hok : t.err = .noError) (hfree : t.stuck = false)
    (hbusy' : t.enc ≠ .idle) :
    DumpJob base chunks t ∨ (s.enc = .full ∧ DumpJob base (chunks ++ [chunkBytesOf s]) t) := by
  cases exec_does i s t hexec with
  | dump rest hi _ hpre =>
    subst hi
    exact .inr ⟨hpre.2, dumpJob_dumped h hpre.2 hjob rest⟩
  | pixel | read => exact .inl hjob
  | pixelRow | pixelRowNowhere => exact .inl (dumpJob_of_fields (by simp) (by simp) hjob)
  | ignored hne => exact absurd hok hne
  | badPhase | frameFails | dumpFails => cases hok
  | badStart _ e _ _ _ he => rcases he with rfl | rfl <;> cases hok
  | badAddress => exact absurd hok (raise_err_ne_noError s)
  | rst => exact absurd rfl hbusy'
  | setw _ _ _ hidle | seth _ _ _ hidle | start _ _ _ hidle => exact absurd hidle hbusy
  | frame _ _ _ _ _ hf _ hpre => exact absurd (h.dump_seq hmode) (seq_ne_idle_of_frame i s (by simp [hf]) hpre)
  | frameSilent | dumpSilent => cases hfree

end

/-! ## Every step of a job -/

/-- A step that leaves the block busy and without error waits, is ignored by a stuck block, or executes a legal
operation. -/
theorem step_of_busy (s t : State) (hstep : step s = .next t) (hok : t.err = .noError) (hbusy : t.enc ≠ .idle) :
    t = s ∨ ∃ rest i, exec i { s with port := rest } = .next t := by
  rcases step_cases s with ⟨-, e⟩ | ⟨rest, -, e⟩ | ⟨_, _, -, -, e⟩ | ⟨_, rest, i, -, -, -, e⟩ | ⟨_, rest, _, -, -, -, e⟩
    <;> rw [e] at hstep
  · cases hstep; exact .inl rfl
  · cases hstep; exact absurd rfl hbusy
  · cases hstep; exact .inl rfl
  · exact .inr ⟨rest, i, hstep⟩
  · cases hstep; exact absurd hok (raise_err_ne_noError _)

/-- Settles O53. -/
theorem printJobSendsItsFramesInOrder : Obligations.PrintJobSendsItsFramesInOrder := by
  intro base chunks s t h hmode hbusy hjob hstep hok hfree hbusy'
  rcases step_of_busy s t hstep hok hbusy' with rfl | ⟨rest, i, hexec⟩
  · exact .inl hjob
  · exact printJob_exec (s := { s with port := rest }) i { h with } hmode hbusy hjob hexec hok hfree hbusy'

/-- Settles O55. -/
theorem dumpJobSendsItsChunksInOrder : Obligations.DumpJobSendsItsChunksInOrder := by
  intro base chunks s t h hmode hbusy hjob hstep hok hfree hbusy'
  rcases step_of_busy s t hstep hok hbusy' with rfl | ⟨rest, i, hexec⟩
  · exact .inl hjob
  · exact dumpJob_exec (s := { s with port := rest }) i { h with } hmode hbusy hjob hexec hok hfree hbusy'

/-! ## The end of a print job (R155) -/

theorem length_packetFrame (p : Packet) : (packetFrame p).length = p.payload.length + 10 :=
  frameBytes_length _ _ _

/-- DATA frames of 640-byte chunks have 650 bytes each. -/
theorem length_dataFrames (chunks : List (List Byte)) (h : ∀ c ∈ chunks, c.length = 640) :
    ((chunks.map dataFrame).flatten).length = 650 * chunks.length := by
  induction chunks with
  | nil => rfl
  | cons c cs ih =>
    have hc : (dataFrame c).length = 650 := by rw [dataFrame, frameBytes_length, h c List.mem_cons_self]
    rw [List.map_cons, List.flatten_cons, List.length_append, hc, ih fun d hd => h d (List.mem_cons_of_mem c hd),
      List.length_cons]
    omega

/-- Settles O54: in `S_DONE` every chunk is drained and ten REPORTs are counted. -/
theorem finishedPrintJobHasSentEverything : Obligations.FinishedPrintJobHasSentEverything := by
  intro base chunks s h hjob hseq
  obtain ⟨⟨hlen, h640⟩, hbytes⟩ := hjob
  obtain ⟨hlast, -⟩ := h.done_place (h.late_seq (.inr (.inr hseq)))
  have hcount : chunks.length = s.nchunk.toNat := by rw [hlen, hlast]
  rw [hseq, h.report_count.2.1 hseq] at hbytes
  refine ⟨hcount, by simpa only [printJobBytes, List.append_assoc] using hbytes, ?_⟩
  rw [hbytes]
  simp only [printJobBytes, List.length_append, length_packetFrame, length_dataFrames chunks h640, hcount,
    List.length_flatten, List.map_replicate, List.sum_replicate, smul_eq_mul]
  omega

end Sys2Proof.Proofs
end

section
/-! PROOFS. What the operations write (10_state.md R20 to R35): each register's writers, the outputs that only grow
(R37; 70_reset_and_hazards.md R191), and the paths of the phases (60_exceptions.md R180). -/

namespace Sys2Proof.Proofs

open Sys2Proof.Machine Sys2Proof.Safety Sys2Proof.Laws

/-! ## What follows a sent frame (42_checksum_framer.md R146 to R150) writes `SEQ`, `RPT`, or what R151 writes -/

section
variable (i : Instr) (s : State)

@[simp] theorem sentFrame_imgW : (sentFrame i s).imgW = s.imgW := by cases i <;> rfl
@[simp] theorem sentFrame_imgH : (sentFrame i s).imgH = s.imgH := by cases i <;> rfl
@[simp] theorem sentFrame_mode : (sentFrame i s).mode = s.mode := by cases i <;> rfl
@[simp] theorem sentFrame_nchunk : (sentFrame i s).nchunk = s.nchunk := by cases i <;> rfl
@[simp] theorem sentFrame_tr : (sentFrame i s).tr = s.tr := by cases i <;> rfl
@[simp] theorem sentFrame_tc : (sentFrame i s).tc = s.tc := by cases i <;> rfl
@[simp] theorem sentFrame_y : (sentFrame i s).y = s.y := by cases i <;> rfl
@[simp] theorem sentFrame_x : (sentFrame i s).x = s.x := by cases i <;> rfl
@[simp] theorem sentFrame_lo : (sentFrame i s).lo = s.lo := by cases i <;> rfl
@[simp] theorem sentFrame_hi : (sentFrame i s).hi = s.hi := by cases i <;> rfl
@[simp] theorem sentFrame_reads : (sentFrame i s).reads = s.reads := by cases i <;> rfl

theorem sentFrame_chunk_cb (h : i ≠ .frameData) :
    (sentFrame i s).chunk = s.chunk ∧ (sentFrame i s).cb = s.cb := by
  cases i with
  | frameData => exact absurd rfl h
  | _ => exact ⟨rfl, rfl⟩

theorem sentFrame_rpt (hp : i ≠ .framePrint) (hr : i ≠ .frameReport) : (sentFrame i s).rpt = s.rpt := by
  cases i with
  | framePrint => exact absurd rfl hp
  | frameReport => exact absurd rfl hr
  | _ => rfl

end

/-! ## The writers of each register -/

theorem takesPixels_of_completesRow {i : Instr} {lo hi : Byte} {s : State} (h : CompletesRow i lo hi s) :
    TakesPixels i := by
  rcases h with ⟨_, rfl, -⟩ | ⟨_, _, _, _, _, _, _, _, rfl, -⟩ <;> trivial

section
variable {i : Instr} {s t : State}

theorem imgW_of_exec (h : exec i s = .next t) (hrst : i ≠ .rst) (hset : ∀ v, i ≠ .setw v) : t.imgW = s.imgW := by
  cases exec_does i s t h with
  | rst e => exact absurd e hrst
  | setw v e => exact absurd e (hset v)
  | pixelRow | pixelRowNowhere => exact advance_imgW _
  | frame => exact sentFrame_imgW i _
  | _ => rfl

theorem imgH_of_exec (h : exec i s = .next t) (hrst : i ≠ .rst) (hset : ∀ v, i ≠ .seth v) : t.imgH = s.imgH := by
  cases exec_does i s t h with
  | rst e => exact absurd e hrst
  | seth v e => exact absurd e (hset v)
  | pixelRow | pixelRowNowhere => exact advance_imgH _
  | frame => exact sentFrame_imgH i _
  | _ => rfl

theorem mode_nchunk_of_exec (h : exec i s = .next t) (hrst : i ≠ .rst) (hstart : ∀ d, i ≠ .start d) :
    t.mode = s.mode ∧ t.nchunk = s.nchunk := by
  cases exec_does i s t h with
  | rst e => exact absurd e hrst
  | start d e => exact absurd e (hstart d)
  | pixelRow | pixelRowNowhere => exact ⟨advance_mode _, advance_nchunk _⟩
  | frame => exact ⟨sentFrame_mode i _, sentFrame_nchunk i _⟩
  | _ => exact ⟨rfl, rfl⟩

theorem place_of_exec (h : exec i s = .next t) (hrst : i ≠ .rst) (hstart : ∀ d, i ≠ .start d) (hpix : ¬ TakesPixels i) :
    t.tr = s.tr ∧ t.tc = s.tc ∧ t.y = s.y ∧ t.x = s.x := by
  cases exec_does i s t h with
  | rst e => exact absurd e hrst
  | start d e => exact absurd e (hstart d)
  | pixel p e => subst e; exact absurd trivial hpix
  | pixelRow lo hi e | pixelRowNowhere lo hi e => exact absurd (takesPixels_of_completesRow e) hpix
  | frame => exact ⟨sentFrame_tr i _, sentFrame_tc i _, sentFrame_y i _, sentFrame_x i _⟩
  | _ => exact ⟨rfl, rfl, rfl, rfl⟩

theorem planes_of_exec (h : exec i s = .next t) (hrst : i ≠ .rst) (hpix : ¬ TakesPixels i) :
    t.lo = s.lo ∧ t.hi = s.hi := by
  cases exec_does i s t h with
  | rst e => exact absurd e hrst
  | pixel p e => subst e; exact absurd trivial hpix
  | pixelRow lo hi e | pixelRowNowhere lo hi e => exact absurd (takesPixels_of_completesRow e) hpix
  | frame => exact ⟨sentFrame_lo i _, sentFrame_hi i _⟩
  | _ => exact ⟨rfl, rfl⟩

theorem ne_frameData_of_not_drains (h : ¬ Drains i) : i ≠ .frameData := by
  rintro rfl
  exact h trivial

theorem chunk_of_exec (h : exec i s = .next t) (hrst : i ≠ .rst) (hstart : ∀ d, i ≠ .start d) (hdrain : ¬ Drains i) :
    t.chunk = s.chunk := by
  cases exec_does i s t h with
  | rst e => exact absurd e hrst
  | start d e => exact absurd e (hstart d)
  | pixelRow | pixelRowNowhere => exact advance_chunk _
  | frame => exact (sentFrame_chunk_cb i _ (ne_frameData_of_not_drains hdrain)).1
  | dump rest e => subst e; exact absurd trivial hdrain
  | _ => rfl

theorem enc_cb_of_exec (h : exec i s = .next t) (hrst : i ≠ .rst) (hstart : ∀ d, i ≠ .start d) (hpix : ¬ TakesPixels i)
    (hdrain : ¬ Drains i) : t.enc = s.enc ∧ t.cb = s.cb := by
  cases exec_does i s t h with
  | rst e => exact absurd e hrst
  | start d e => exact absurd e (hstart d)
  | pixelRow lo hi e | pixelRowNowhere lo hi e => exact absurd (takesPixels_of_completesRow e) hpix
  | frame =>
    have hi := ne_frameData_of_not_drains hdrain
    exact ⟨sentFrame_enc i _ hi, (sentFrame_chunk_cb i _ hi).2⟩
  | dump rest e => subst e; exact absurd trivial hdrain
  | _ => exact ⟨rfl, rfl⟩

theorem rpt_of_exec (h : exec i s = .next t) (hrst : i ≠ .rst) (hstart : ∀ d, i ≠ .start d) (hp : i ≠ .framePrint)
    (hr : i ≠ .frameReport) : t.rpt = s.rpt := by
  cases exec_does i s t h with
  | rst e => exact absurd e hrst
  | start d e => exact absurd e (hstart d)
  | pixelRow | pixelRowNowhere => exact advance_rpt _
  | frame => exact sentFrame_rpt i _ hp hr
  | _ => rfl

theorem seq_of_exec (h : exec i s = .next t) (hrst : i ≠ .rst) (hstart : ∀ d, i ≠ .start d)
    (hframe : frameOf i s = none ∨ i = .frameData) : t.seq = s.seq := by
  cases exec_does i s t h with
  | rst e => exact absurd e hrst
  | start d e => exact absurd e (hstart d)
  | pixelRow | pixelRowNowhere => exact advance_seq _
  | frame _ _ _ _ _ hf =>
    rcases hframe with hnone | rfl
    · exact nomatch hnone.symm.trans hf
    · exact advanceChunk_seq _
  | _ => rfl

theorem link_of_exec (h : exec i s = .next t) (hrst : i ≠ .rst) (hnone : frameOf i s = none) :
    t.cks = s.cks ∧ t.rsp1 = s.rsp1 ∧ t.rsp2 = s.rsp2 := by
  cases exec_does i s t h with
  | rst e => exact absurd e hrst
  | pixelRow | pixelRowNowhere => exact ⟨advance_cks _, advance_rsp1 _, advance_rsp2 _⟩
  | frame _ _ _ _ _ hf => exact nomatch hnone.symm.trans hf
  | frameFails _ _ _ hf | frameSilent _ _ _ hf => simp [hnone] at hf
  | _ => exact ⟨rfl, rfl, rfl⟩

theorem hist_of_exec (h : exec i s = .next t) (hnone : frameOf i s = none) (hdump : i ≠ .dump) : t.hist = s.hist := by
  cases exec_does i s t h with
  | pixelRow | pixelRowNowhere => exact advance_hist _
  | frame _ _ _ _ _ hf => exact nomatch hnone.symm.trans hf
  | frameFails _ _ _ hf | frameSilent _ _ _ hf => simp [hnone] at hf
  | dump _ e | dumpFails _ _ e | dumpSilent _ _ e => exact absurd e hdump
  | _ => rfl

end

/-- Settles O58, register by register. -/
theorem onlyTheseOperationsWriteThese : Obligations.OnlyTheseOperationsWriteThese := by
  intro i s t h hrst
  refine ⟨imgW_of_exec h hrst, imgH_of_exec h hrst, mode_nchunk_of_exec h hrst, place_of_exec h hrst,
    planes_of_exec h hrst, chunk_of_exec h hrst, fun hstart hpix hdrain => ?_, rpt_of_exec h hrst, seq_of_exec h hrst, ?_,
    link_of_exec h hrst, hist_of_exec h⟩
  · obtain ⟨henc, hcb⟩ := enc_cb_of_exec h hrst hstart hpix hdrain
    exact ⟨henc, fun a => by rw [hcb]⟩
  · exact (err_of_exec i s t h).resolve_left fun hr => hrst hr.1

/-! ## The outputs only grow (R37; 70_reset_and_hazards.md R191) -/

/-- `t` has the outputs of `s` and perhaps more, and the same packet parameters. -/
def OutputsGrow (s t : State) : Prop :=
  (∃ l, t.hist = s.hist ++ l) ∧ (∃ l, t.reads = s.reads ++ l) ∧ t.packets = s.packets

section
variable {s t : State}

theorem outputsGrow_of_eq (hhist : t.hist = s.hist) (hreads : t.reads = s.reads) (hpackets : t.packets = s.packets) :
    OutputsGrow s t :=
  ⟨⟨[], by rw [hhist, List.append_nil]⟩, ⟨[], by rw [hreads, List.append_nil]⟩, hpackets⟩

theorem outputsGrow_of_events {evs : List Event} (hhist : t.hist = s.hist ++ evs) (hreads : t.reads = s.reads)
    (hpackets : t.packets = s.packets) : OutputsGrow s t :=
  ⟨⟨evs, hhist⟩, ⟨[], by rw [hreads, List.append_nil]⟩, hpackets⟩

theorem outputsGrow_of_exec (i : Instr) (h : exec i s = .next t) : OutputsGrow s t := by
  cases exec_does i s t h with
  | pixelRow | pixelRowNowhere => exact outputsGrow_of_eq (advance_hist _) (advance_reads _) (advance_packets _)
  | frame => exact outputsGrow_of_events (sentFrame_hist i _) (sentFrame_reads i _) (sentFrame_packets i _)
  | frameFails | frameSilent | dump | dumpFails | dumpSilent => exact outputsGrow_of_events rfl rfl rfl
  | read v => exact ⟨⟨[], (List.append_nil _).symm⟩, ⟨[v], rfl⟩, rfl⟩
  | _ => exact outputsGrow_of_eq rfl rfl rfl

end

/-- Settles O57, by the cases of a step. -/
theorem historyOnlyGrows : Obligations.HistoryOnlyGrows := by
  intro s t hstep
  rcases step_cases s with ⟨-, e⟩ | ⟨rest, -, e⟩ | ⟨_, _, -, -, e⟩ | ⟨_, rest, i, -, -, -, e⟩ | ⟨_, rest, _, -, -, -, e⟩
    <;> rw [e] at hstep
  case inr.inr.inr.inl => exact outputsGrow_of_exec (s := { s with port := rest }) i hstep
  all_goals cases hstep; exact outputsGrow_of_eq rfl rfl rfl

/-! ## The paths of the phases (60_exceptions.md R180; 10_state.md R26, R27) -/

/-- `ENC` stays or moves one place along its path. -/
def EncMove (p q : EncPhase) : Prop :=
  q = p ∨ (p, q) ∈ [(EncPhase.idle, EncPhase.fill), (.fill, .full), (.full, .fill), (.full, .done)]

/-- `SEQ` stays or moves one place along its path. -/
def SeqMove (p q : SeqPhase) : Prop :=
  q = p ∨ (p, q) ∈
    [(SeqPhase.idle, SeqPhase.ready), (.ready, .data), (.data, .emptied), (.emptied, .report), (.report, .done)]

section
variable {s t : State}

theorem encMove_advance (hfill : s.enc = .fill) : EncMove s.enc (advance s).enc := by
  obtain ⟨-, ⟨-, -, -, -, e⟩ | ⟨-, -, -, -, -, e⟩ | ⟨-, -, -, -, -, e⟩⟩ := advance_advanced s
  · exact .inl e
  · exact .inl e
  · rw [e, hfill]
    split_ifs
    · exact .inr (by decide)
    · exact .inl rfl

theorem encMove_advanceChunk (hfull : s.enc = .full) : EncMove s.enc (advanceChunk s).enc := by
  rw [advanceChunk_enc, hfull]
  split_ifs <;> exact .inr (by decide)

/-- A START moves both phases out of idle, in dump mode only `ENC` (R103; item 1 of R39). -/
theorem moves_startedJob (d : Mode) (h : BlockInv s) (hidle : s.enc = .idle) :
    EncMove s.enc (startedJob d s).enc ∧ SeqMove s.seq (startedJob d s).seq := by
  obtain ⟨hseq, -⟩ := h.idle_blank hidle
  rw [hidle, hseq]
  cases d with
  | print => exact ⟨.inr (by simp), .inr (by simp)⟩
  | dump => exact ⟨.inr (by simp), .inl rfl⟩

/-- A sent frame moves `SEQ` one place, or hands the chunk over (R146 to R150). -/
theorem moves_sentFrame (i : Instr) (u : State) (hf : (frameOf i s).isSome) (hpre : Pre i s) (henc : u.enc = s.enc)
    (hseq : u.seq = s.seq) : EncMove s.enc (sentFrame i u).enc ∧ SeqMove s.seq (sentFrame i u).seq := by
  rcases frameOf_isSome i s hf with rfl | rfl | rfl | rfl | rfl <;> simp only [Pre] at hpre
  · exact ⟨.inl henc, .inr (by simp [hpre, sentFrame])⟩
  · exact ⟨henc ▸ encMove_advanceChunk (henc.trans hpre.2), .inl hseq⟩
  · exact ⟨.inl henc, .inr (by simp [hpre.1, sentFrame])⟩
  · exact ⟨.inl henc, .inr (by simp [hpre, sentFrame])⟩
  · refine ⟨.inl henc, ?_⟩
    rw [sentFrame, countReport_seq, hseq, hpre]
    split_ifs
    · exact .inr (by decide)
    · exact .inl rfl

theorem moves_of_exec (i : Instr) (h : BlockInv s) (hexec : exec i s = .next t) (hrst : i ≠ .rst) :
    EncMove s.enc t.enc ∧ SeqMove s.seq t.seq := by
  cases exec_does i s t hexec with
  | rst e => exact absurd e hrst
  | start d _ _ hidle => exact moves_startedJob d h hidle
  | pixelRow lo hi _ _ hfill | pixelRowNowhere lo hi _ _ hfill => exact ⟨encMove_advance hfill, .inl (advance_seq _)⟩
  | frame cmd comp pl rs rest hf _ hpre => exact moves_sentFrame i _ (by simp [hf]) hpre rfl rfl
  | dump _ e _ hpre => subst e; exact ⟨encMove_advanceChunk hpre.2, .inl rfl⟩
  | _ => exact ⟨.inl rfl, .inl rfl⟩

end

/-- Settles O59: a reset and RST leave the reset state, every other step moves the phases along their paths. -/
theorem phasesMoveOnlyForward : Obligations.PhasesMoveOnlyForward := by
  intro s t h hstep
  rcases step_cases s with ⟨-, e⟩ | ⟨rest, hport, e⟩ | ⟨_, _, -, -, e⟩ | ⟨w, rest, i, hport, -, hd, e⟩
    | ⟨_, rest, _, -, -, -, e⟩ <;> rw [e] at hstep
  · cases hstep; exact .inr ⟨.inl rfl, .inl rfl⟩
  · cases hstep; exact .inl ⟨isReset_externalReset _, rest, .inl hport⟩
  · cases hstep; exact .inr ⟨.inl rfl, .inl rfl⟩
  · by_cases hrst : i = .rst
    · subst hrst
      cases hstep
      exact .inl ⟨isReset_resetBlock _, rest, .inr ⟨w, hport, hd⟩⟩
    · exact .inr (moves_of_exec (s := { s with port := rest }) i { h with } hstep hrst)
  · cases hstep; exact .inr ⟨.inl rfl, .inl rfl⟩

end Sys2Proof.Proofs
end

section
/-! PROOFS. A whole job of an image (70_reset_and_hazards.md R193): the dump job of R156 and the print job of R155 send
the chunks of R130. -/

namespace Sys2Proof.Proofs

open Sys2Proof.Machine Sys2Proof.Safety Sys2Proof.Laws

/-- A loop over operations keeps what each round keeps. -/
theorem runAll_flatMap_range (ops : Nat → List Instr) (P : Nat → State → Prop) (n : Nat) (s : State) (h0 : P 0 s)
    (hround : ∀ c t, c < n → P c t → ∃ u, runAll (ops c) t = .next u ∧ P (c + 1) u) :
    ∃ t, runAll ((List.range n).flatMap ops) s = .next t ∧ P n t := by
  induction n with
  | zero => exact ⟨s, rfl, h0⟩
  | succ n ih =>
    obtain ⟨t, hrun, ht⟩ := ih fun c t hc => hround c t (by omega)
    obtain ⟨u, hlast, hu⟩ := hround n t (by omega) ht
    refine ⟨u, ?_, hu⟩
    rw [List.range_succ, List.flatMap_append, List.flatMap_singleton, runAll_append, hrun, andThen_next, hlast]

/-- Operations one after the other keep the invariant (10_state.md R39). -/
theorem blockInv_runAll (is : List Instr) (s t : State) (h : BlockInv s) (hrun : runAll is s = .next t) : BlockInv t := by
  induction is generalizing s with
  | nil => cases hrun; exact h
  | cons i is ih =>
    obtain ⟨u, hu⟩ := exec_answers i s
    rw [runAll_cons, hu, andThen_next] at hrun
    exact ih u (blockInv_exec i s u h hu) hrun

/-! ## The beginning of a job (R193 steps 3 and 4) -/

/-- Without error the job START begins has the invariant, whatever the block held before. -/
theorem blockInv_startedJob_of_noError (d : Mode) (s : State) (herr : s.err = .noError)
    (hd : badDimensions s.imgW s.imgH = false) (hc : tooManyChunks s.imgH = false) : BlockInv (startedJob d s) := by
  have hblank : BlockInv { resetBlock s with imgW := s.imgW, imgH := s.imgH } :=
    blockInv_setDimensions (blockInv_of_isReset _ (isReset_resetBlock s) rfl) rfl s.imgW s.imgH
  exact { blockInv_startedJob d _ hblank hd hc with
    idle_blank := by simp
    reserved_bits := reservedBits _
    err_codes := by simp [herr] }

theorem checks_of_goodDimensions (w h : Byte) (hg : GoodDimensions w h) :
    badDimensions w h = false ∧ tooManyChunks h = false := by
  obtain ⟨hw, hw160, hwmod, hh, hh144, hhmod⟩ := hg
  rw [Bool.eq_false_iff, Bool.eq_false_iff, ne_eq, ne_eq, badDimensions_iff, tooManyChunks_iff]
  omega

/-- SETW, SETH and START begin a job of any good dimensions. -/
theorem runAll_begin (d : Mode) (w h : Byte) (s : State) (hg : GoodDimensions w h) (herr : s.err = .noError)
    (henc : s.enc = .idle) :
    runAll [.setw w, .seth h, .start d] s = .next (startedJob d { s with imgW := w, imgH := h }) := by
  obtain ⟨hd, hc⟩ := checks_of_goodDimensions w h hg
  rw [runAll_cons, exec_setw_idle w s herr henc, andThen_next, runAll_cons, exec_seth_idle h _ (by exact herr) (by exact henc),
    andThen_next, runAll_cons, exec_start_idle d _ (by exact herr) (by exact henc),
    if_neg (by simp [hd]), if_neg (by simp [hc]), andThen_next, runAll_nil]

/-! ## Between two bands -/

/-- The block of a job of width `w` and `n` chunks, with `c` chunks drained and nothing of the next one taken. -/
structure AtBand (w n c : Nat) (t : State) : Prop where
  inv : BlockInv t
  err : t.err = .noError
  width : t.imgW.toNat = w
  count : t.nchunk.toNat = n
  chunk : t.chunk.toNat = c
  blank : t.cb = []
  place : t.tr.toNat = 2 * c ∧ t.tc = 0#5 ∧ t.y = 0#3 ∧ t.x = 0#3
  phase : t.enc = if c < n then .fill else .done

section
variable {w n c : Nat} {t : State}

theorem atBand_startedJob (d : Mode) (w h : Byte) (s : State) (hg : GoodDimensions w h) (herr : s.err = .noError) :
    AtBand w.toNat (h.toNat / 16) 0 (startedJob d { s with imgW := w, imgH := h }) := by
  obtain ⟨hd, hc⟩ := checks_of_goodDimensions w h hg
  obtain ⟨-, -, -, hh, hh144, hhmod⟩ := hg
  exact {
    inv := blockInv_startedJob_of_noError d { s with imgW := w, imgH := h } herr hd hc
    err := herr
    width := rfl
    count := by rw [startedJob_nchunk, BitVec.toNat_ofNat]; dsimp only; omega
    chunk := rfl
    blank := rfl
    place := ⟨rfl, rfl, rfl, rfl⟩
    phase := by rw [startedJob_enc, if_pos (by omega)] }

/-- `t` with the chunk it is about to fill complete. -/
def bandFilled (u t : State) : State := { t with enc := .full, tr := t.tr + 2#5, lo := u.lo, hi := u.hi, cb := u.cb }

/-- The ROWs of the next band of an image fill the chunk with `K_c` (R130). -/
theorem AtBand.run_band (h : AtBand w n c t) (hc : c < n) (img : Image) :
    ∃ u, runAll (bandRows img w c) t = .next u ∧ chunkBytesOf u = encodedChunk img w c ∧ BlockInv u
      ∧ u = bandFilled u t := by
  have hfill : t.enc = .fill := by rw [h.phase, if_pos hc]
  obtain ⟨htr, htc, hy, hx⟩ := h.place
  obtain ⟨u, hrun, hbytes, hframe⟩ :=
    bandOfAnImageFillsTheChunk img t h.inv h.err hfill h.blank (by rw [htr, h.chunk]) htc hy hx
  rw [h.width, h.chunk] at hrun hbytes
  exact ⟨u, hrun, hbytes, blockInv_runAll _ t u h.inv hrun, hframe⟩

/-- The hand-over of the full chunk of a job comes to the next band (R151). -/
theorem atBand_advanceChunk (h : BlockInv t) (hfull : t.enc = .full) (hseq : t.seq = .data ∨ t.mode = .dump)
    (herr : t.err = .noError) (hw : t.imgW.toNat = w) (hn : t.nchunk.toNat = n) (hc : t.chunk.toNat = c) :
    AtBand w n (c + 1) (advanceChunk t) := by
  obtain ⟨hlt, htr, htc, hy, hx⟩ := h.full_place hfull
  obtain ⟨hcount, hphase⟩ := advanceChunk_phase t hlt
  rw [hc] at hcount
  refine {
    inv := blockInv_advanceChunk h hfull hseq, err := herr, width := hw, count := hn, chunk := hcount, blank := rfl
    place := ⟨by rw [advanceChunk_tr, htr, hc], htc, hy, hx⟩, phase := ?_ }
  rcases hphase with ⟨hdone, hlast⟩ | ⟨hfill, hmore⟩
  · rw [hdone, if_neg (by rw [← hcount, hlast, hn]; omega)]
  · rw [hfill, if_pos (by omega)]

end

/-! ## A dump job (R156) -/

/-- From `s`, the dump job of `img` has drained `c` of its `n` chunks, every byte taken by the sink. -/
structure DumpedTo (img : Image) (w n : Nat) (rest : List PutAnswer) (s : State) (c : Nat) (t : State) : Prop
    extends AtBand w n c t where
  mode : t.mode = .dump
  answers : t.putAnswers = List.replicate (640 * (n - c)) .ok ++ rest
  hist : t.hist = s.hist ++ ((List.range c).flatMap (encodedChunk img w)).map .tx
  link : t.cks = s.cks ∧ t.rsp1 = s.rsp1 ∧ t.rsp2 = s.rsp2

theorem dumpedTo_startedJob (img : Image) (w h : Byte) (s : State) (rest : List PutAnswer) (hg : GoodDimensions w h)
    (herr : s.err = .noError) (ha : s.putAnswers = List.replicate (640 * (h.toNat / 16)) .ok ++ rest) :
    DumpedTo img w.toNat (h.toNat / 16) rest s 0 (startedJob .dump { s with imgW := w, imgH := h }) :=
  { atBand_startedJob .dump w h s hg herr with
    mode := rfl
    answers := ha
    hist := (List.append_nil _).symm
    link := ⟨rfl, rfl, rfl⟩ }

/-- One band more, and its DUMP. -/
theorem DumpedTo.round {img : Image} {w n c : Nat} {rest : List PutAnswer} {s t : State} (hc : c < n)
    (h : DumpedTo img w n rest s c t) :
    ∃ u, runAll (bandRows img w c ++ [.dump]) t = .next u ∧ DumpedTo img w n rest s (c + 1) u := by
  obtain ⟨u, hrun, hbytes, hinv, hu⟩ := h.toAtBand.run_band hc img
  have ha : u.putAnswers = List.replicate 640 .ok ++ (List.replicate (640 * (n - (c + 1))) .ok ++ rest) := by
    have hsame : u.putAnswers = t.putAnswers := by rw [hu]; rfl
    have hcount : 640 * (n - c) = 640 + 640 * (n - (c + 1)) := by omega
    rw [hsame, h.answers, hcount, List.replicate_add, List.append_assoc]
  obtain ⟨hmode, henc, herr, hw, hn, hchunk⟩ : u.mode = .dump ∧ u.enc = .full ∧ u.err = .noError ∧ u.imgW.toNat = w
      ∧ u.nchunk.toNat = n ∧ u.chunk.toNat = c := by
    rw [hu]
    exact ⟨h.mode, rfl, h.err, h.width, h.count, h.chunk⟩
  have hdump := dumpChunk_done advanceChunk u _ ha
  rw [← exec_dump_of_pre herr hmode henc] at hdump
  refine ⟨_, by rw [runAll_append, hrun, andThen_next]; exact hdump, ?_⟩
  have hinv' := blockInv_setSurroundings hinv u.port u.xferAnswers (List.replicate (640 * (n - (c + 1))) .ok ++ rest) u.stuck
    (u.hist ++ (chunkBytesOf u).map .tx) u.reads
  exact { atBand_advanceChunk hinv' henc (.inr hmode) herr hw hn hchunk with
    mode := hmode
    answers := rfl
    hist := by
      rw [advanceChunk_hist, hbytes, List.range_succ, List.flatMap_append, List.flatMap_singleton, List.map_append,
        ← List.append_assoc, ← h.hist, hu]
      rfl
    link := by
      rw [hu]
      exact h.link }

/-- Settles O36, by induction on the bands. -/
theorem dumpJobSendsTheEncodedImage : Obligations.DumpJobSendsTheEncodedImage := by
  intro img w h s rest hg herr henc ha
  obtain ⟨t, hrun, ht⟩ := runAll_flatMap_range (fun c => bandRows img w.toNat c ++ [.dump])
    (DumpedTo img w.toNat (h.toNat / 16) rest s) (h.toNat / 16) _ (dumpedTo_startedJob img w h s rest hg herr ha)
    fun c t hc ht => ht.round hc
  refine ⟨t, ?_, ?_, ht.mode, ht.err, ht.chunk, ht.blank, ht.link.1, ht.link.2.1, ht.link.2.2, ht.hist⟩
  · rw [dumpJobOps, runAll_append, runAll_begin .dump w h s hg herr henc, andThen_next, hrun]
  · rw [ht.phase, if_neg (lt_irrefl _)]

end Sys2Proof.Proofs
end

section
/-! PROOFS. A whole print job of an image (42_checksum_framer.md R155; 70_reset_and_hazards.md R193 steps 3 to 7). -/

namespace Sys2Proof.Proofs

open Sys2Proof.Machine Sys2Proof.Safety Sys2Proof.Laws

theorem runAll_append_next {is js : List Instr} {s t u : State} (h : runAll is s = .next t) (h' : runAll js t = .next u) :
    runAll (is ++ js) s = .next u := by
  rw [runAll_append, h, andThen_next, h']

/-! ## The print link (R142 to R144) -/

/-- Since `s` the block has sent `bytes`, each answered by the next of `rs`; the last two answers are its status. -/
structure LinkAt (s : State) (rs : List Byte) (rest : List XferAnswer) (bytes : List Byte) (t : State) : Prop where
  answers : t.xferAnswers = (rs.drop bytes.length).map .ok ++ rest
  sent : txBytes t.hist = txBytes s.hist ++ bytes
  packets : t.packets = s.packets
  status : bytes ≠ [] → t.rsp1 = rs.getD (bytes.length - 2) 0 ∧ t.rsp2 = rs.getD (bytes.length - 1) 0

section
variable {s t : State} {rs : List Byte} {rest : List XferAnswer} {bytes : List Byte}

/-- The responses that `k` more bytes take, and the answers left. -/
theorem LinkAt.split (h : LinkAt s rs rest bytes t) (k : Nat) :
    t.xferAnswers = ((rs.drop bytes.length).take k).map .ok ++ ((rs.drop (bytes.length + k)).map .ok ++ rest) := by
  rw [h.answers, ← List.append_assoc, ← List.map_append, ← List.drop_drop, List.take_append_drop]

/-- A frame answered to its end. -/
theorem LinkAt.afterFrame (h : LinkAt s rs rest bytes t) (cmd comp : Byte) (pl : List Byte)
    (hlen : (bytes ++ frameBytes cmd comp pl).length ≤ rs.length) :
    LinkAt s rs rest (bytes ++ frameBytes cmd comp pl)
      (afterFrame cmd comp pl ((rs.drop bytes.length).take (pl.length + 10))
        ((rs.drop (bytes.length + (pl.length + 10))).map .ok ++ rest) t) := by
  rw [List.length_append, frameBytes_length] at hlen
  have hrs : ((rs.drop bytes.length).take (pl.length + 10)).length = pl.length + 10 := by
    rw [List.length_take, List.length_drop]; omega
  have hget (i : Nat) (hi : i < pl.length + 10) :
      ((rs.drop bytes.length).take (pl.length + 10)).getD i 0 = rs.getD (bytes.length + i) 0 := by
    simp [hi]
  refine ⟨?_, ?_, h.packets, fun _ => ⟨(hget _ (by omega)).trans ?_, (hget _ (by omega)).trans ?_⟩⟩
  · rw [List.length_append, frameBytes_length]
    rfl
  · rw [txBytes_afterFrame _ _ _ _ _ _ hrs, h.sent, List.append_assoc]
  · rw [List.length_append, frameBytes_length]
    congr 1; omega
  · rw [List.length_append, frameBytes_length]
    congr 1; omega

theorem LinkAt.sentFrame (h : LinkAt s rs rest bytes t) (i : Instr) : LinkAt s rs rest bytes (sentFrame i t) := by
  cases i <;> exact { h with }

end

/-! ## The stages of a print job -/

/-- A frame answered to its end, other than DATA, leaves the job between the same bands. -/
theorem AtBand.sentFrame {w n c : Nat} {t : State} (h : AtBand w n c t) (i : Instr) (hi : i ≠ .frameData)
    (cmd comp : Byte) (pl rs : List Byte) (rest : List XferAnswer)
    (hinv : BlockInv (sentFrame i (afterFrame cmd comp pl rs rest t))) :
    AtBand w n c (sentFrame i (afterFrame cmd comp pl rs rest t)) := by
  obtain ⟨hchunk, hcb⟩ := sentFrame_chunk_cb i (Safety.afterFrame cmd comp pl rs rest t) hi
  exact {
    inv := hinv
    err := (sentFrame_err i _).trans h.err
    width := by rw [sentFrame_imgW]; exact h.width
    count := by rw [sentFrame_nchunk]; exact h.count
    chunk := by rw [hchunk]; exact h.chunk
    blank := hcb.trans h.blank
    place := by rw [sentFrame_tr, sentFrame_tc, sentFrame_y, sentFrame_x]; exact h.place
    phase := (sentFrame_enc i _ hi).trans h.phase }

/-- Where a sent frame moves `SEQ` and `RPT` depends on these two alone. -/
theorem sentFrame_seq_rpt_congr (i : Instr) {s t : State} (hseq : t.seq = s.seq) (hrpt : t.rpt = s.rpt) :
    (sentFrame i t).seq = (sentFrame i s).seq ∧ (sentFrame i t).rpt = (sentFrame i s).rpt := by
  cases i <;> simp [sentFrame, hseq, hrpt]

/-- From `s`, the print job is in phase `q`, has drained `c` of its `n` chunks, and has sent `bytes`. -/
structure PrintAt (w n c : Nat) (s : State) (rs : List Byte) (rest : List XferAnswer) (q : SeqPhase) (bytes : List Byte)
    (t : State) : Prop extends AtBand w n c t, LinkAt s rs rest bytes t where
  seq : t.seq = q

section
variable {w n c : Nat} {s t : State} {rs : List Byte} {rest : List XferAnswer} {q : SeqPhase} {bytes : List Byte}

theorem printAt_startedJob (w h : Byte) (s : State) (hg : GoodDimensions w h) (herr : s.err = .noError)
    (ha : s.xferAnswers = rs.map .ok ++ rest) :
    PrintAt w.toNat (h.toNat / 16) 0 s rs rest .ready [] (startedJob .print { s with imgW := w, imgH := h }) :=
  { atBand_startedJob .print w h s hg herr with
    answers := ha
    sent := (List.append_nil _).symm
    packets := rfl
    status := fun hne => absurd rfl hne
    seq := rfl }

/-- A frame of a packet parameter: it moves `SEQ` and `RPT` alone on (R146, R148 to R150). -/
theorem PrintAt.packet_frame (h : PrintAt w n c s rs rest q bytes t) (op : Instr) (p : Packet) (hop : op ≠ .frameData)
    (hpre : Pre op t) (hf : frameOf op t = some (p.cmd, p.comp, p.payload))
    (hlen : (bytes ++ packetFrame p).length ≤ rs.length) :
    ∃ u, exec op t = .next u ∧ PrintAt w n c s rs rest (sentFrame op t).seq (bytes ++ packetFrame p) u
      ∧ u.rpt = (sentFrame op t).rpt := by
  have hl := hlen
  rw [List.length_append, length_packetFrame] at hl
  have hexec := exec_frame_done h.err hpre hf (h.toLinkAt.split (p.payload.length + 10))
    (by rw [List.length_take, List.length_drop]; omega)
  have hinv := blockInv_exec op t _ h.inv hexec
  have hband := h.toAtBand.sentFrame op hop _ _ _ _ _ hinv
  have hlink := (h.toLinkAt.afterFrame p.cmd p.comp p.payload hlen).sentFrame op
  obtain ⟨hseq, hrpt⟩ := sentFrame_seq_rpt_congr op (t := afterFrame p.cmd p.comp p.payload _ _ t) (s := t) rfl rfl
  exact ⟨_, hexec, { hband, hlink with seq := hseq }, hrpt⟩

/-- The hand-over after a DATA frame (R151). -/
theorem printAt_advanceChunk (cmd comp : Byte) (pl rs' : List Byte) (rest' : List XferAnswer) (hinv : BlockInv t)
    (hfull : t.enc = .full) (hseq : t.seq = .data) (herr : t.err = .noError) (hw : t.imgW.toNat = w)
    (hn : t.nchunk.toNat = n) (hc : t.chunk.toNat = c)
    (hlink : LinkAt s rs rest bytes (afterFrame cmd comp pl rs' rest' t)) :
    PrintAt w n (c + 1) s rs rest .data bytes (advanceChunk (afterFrame cmd comp pl rs' rest' t)) := by
  have hinv' : BlockInv (afterFrame cmd comp pl rs' rest' t) :=
    blockInv_exchanged t hinv (by simp [hfull]) _ _ _ t.stuck _ rest' t.putAnswers
  exact { atBand_advanceChunk hinv' hfull (.inl hseq) herr hw hn hc, hlink.sentFrame .frameData with seq := hseq }

/-- FRAME.DATA of a full chunk whose bytes are `pl`, and the hand-over (R147, R151). -/
theorem exec_frameData_of_link {pl : List Byte} (hpl : chunkBytesOf t = pl) (hinv : BlockInv t) (hfull : t.enc = .full)
    (hseq : t.seq = .data) (herr : t.err = .noError) (hw : t.imgW.toNat = w) (hn : t.nchunk.toNat = n)
    (hc : t.chunk.toNat = c) (hlink : LinkAt s rs rest bytes t) (hlen : (bytes ++ dataFrame pl).length ≤ rs.length) :
    ∃ u, exec .frameData t = .next u ∧ PrintAt w n (c + 1) s rs rest .data (bytes ++ dataFrame pl) u := by
  have hl := hlen
  rw [List.length_append, dataFrame, frameBytes_length] at hl
  have hf : frameOf .frameData t = some (0x04, 0x00, pl) := by rw [frameOf, hpl]
  have hexec := exec_frame_done (op := .frameData) herr ⟨hseq, hfull⟩ hf (hlink.split (pl.length + 10))
    (by rw [List.length_take, List.length_drop]; omega)
  exact ⟨_, hexec, printAt_advanceChunk _ _ _ _ _ hinv hfull hseq herr hw hn hc (hlink.afterFrame _ _ _ hlen)⟩

/-- One band more, and its FRAME.DATA. -/
theorem PrintAt.round (img : Image) (h : PrintAt w n c s rs rest .data bytes t) (hc : c < n)
    (hlen : (bytes ++ dataFrame (encodedChunk img w c)).length ≤ rs.length) :
    ∃ u, runAll (bandRows img w c ++ [.frameData]) t = .next u
      ∧ PrintAt w n (c + 1) s rs rest .data (bytes ++ dataFrame (encodedChunk img w c)) u := by
  obtain ⟨u, hrun, hbytes, hinv, hu⟩ := h.toAtBand.run_band hc img
  obtain ⟨hseq, henc, herr, hw, hn, hchunk⟩ : u.seq = .data ∧ u.enc = .full ∧ u.err = .noError ∧ u.imgW.toNat = w
      ∧ u.nchunk.toNat = n ∧ u.chunk.toNat = c := by
    rw [hu]
    exact ⟨h.seq, rfl, h.err, h.width, h.count, h.chunk⟩
  have hlink : LinkAt s rs rest bytes u := by
    rw [hu]
    exact { h.toLinkAt with }
  obtain ⟨v, hexec, hv⟩ := exec_frameData_of_link hbytes hinv henc hseq herr hw hn hchunk hlink hlen
  exact ⟨v, runAll_append_next (js := [.frameData]) hrun hexec, hv⟩

/-- The DATA frames of the first `c` chunks of an image. -/
def dataFrames (img : Image) (w c : Nat) : List Byte :=
  ((List.range c).map fun c => dataFrame (encodedChunk img w c)).flatten

theorem dataFrames_succ (img : Image) (w c : Nat) :
    dataFrames img w (c + 1) = dataFrames img w c ++ dataFrame (encodedChunk img w c) := by
  simp [dataFrames, List.range_succ]

theorem length_dataFrames_image (img : Image) (w c : Nat) : (dataFrames img w c).length = 650 * c := by
  have h640 : ∀ k ∈ (List.range c).map (encodedChunk img w), k.length = 640 := by simp [encodedChunk]
  have hlen := length_dataFrames _ h640
  rwa [List.map_map, List.length_map, List.length_range] at hlen

/-- All the bands of an image, each with its FRAME.DATA. -/
theorem PrintAt.rounds (img : Image) (h : PrintAt w n 0 s rs rest .data bytes t)
    (hlen : bytes.length + 650 * n ≤ rs.length) :
    ∃ u, runAll ((List.range n).flatMap fun c => bandRows img w c ++ [.frameData]) t = .next u
      ∧ PrintAt w n n s rs rest .data (bytes ++ dataFrames img w n) u := by
  refine runAll_flatMap_range _ (fun c u => PrintAt w n c s rs rest .data (bytes ++ dataFrames img w c) u) n t
    (by simpa [dataFrames] using h) fun c u hc hu => ?_
  rw [dataFrames_succ, ← List.append_assoc]
  refine hu.round img hc ?_
  rw [List.append_assoc, ← dataFrames_succ, List.length_append, length_dataFrames_image]
  omega

/-- One REPORT more (R150). -/
theorem PrintAt.report (h : PrintAt w n c s rs rest .report bytes t) (k : Nat) (hk : k < 10) (hrpt : t.rpt.toNat = k)
    (hlen : (bytes ++ packetFrame s.packets.pReport).length ≤ rs.length) :
    ∃ u, exec .frameReport t = .next u ∧ u.rpt.toNat = k + 1
      ∧ PrintAt w n c s rs rest (if k + 1 = 10 then .done else .report) (bytes ++ packetFrame s.packets.pReport) u := by
  have hnext : (t.rpt + 1#4).toNat = k + 1 := by rw [toNat_add_one_of_lt _ (by omega), hrpt]
  obtain ⟨u, hexec, hu, hurpt⟩ := h.packet_frame .frameReport s.packets.pReport (by simp) h.seq
    (by rw [← h.packets]; rfl) hlen
  rw [Laws.sentFrame, countReport_seq, hnext, h.seq] at hu
  exact ⟨u, hexec, by rw [hurpt]; exact hnext, hu⟩

/-- The bytes of `k` REPORT frames. -/
def reportFrames (pk : Packets) (k : Nat) : List Byte := (List.replicate k (packetFrame pk.pReport)).flatten

theorem reportFrames_succ (pk : Packets) (k : Nat) :
    reportFrames pk (k + 1) = reportFrames pk k ++ packetFrame pk.pReport := by
  simp [reportFrames, List.replicate_succ']

theorem length_reportFrames (pk : Packets) (k : Nat) :
    (reportFrames pk k).length = k * (packetFrame pk.pReport).length := by
  simp [reportFrames]

/-- The ten REPORTs, the last of which ends the job (R150). -/
theorem PrintAt.reports (h : PrintAt w n c s rs rest .report bytes t) (hrpt : t.rpt = 0#4)
    (hlen : bytes.length + 10 * (packetFrame s.packets.pReport).length ≤ rs.length) :
    ∃ u, runAll (List.replicate 10 .frameReport) t = .next u ∧ u.rpt.toNat = 10
      ∧ PrintAt w n c s rs rest .done (bytes ++ reportFrames s.packets 10) u := by
  refine runAll_flatMap_range (fun _ => [.frameReport])
    (fun k u => u.rpt.toNat = k ∧
      PrintAt w n c s rs rest (if k = 10 then .done else .report) (bytes ++ reportFrames s.packets k) u)
    10 t ⟨by rw [hrpt]; rfl, by simpa [reportFrames] using h⟩ fun k u hk ⟨hcount, hu⟩ => ?_
  rw [if_neg (by omega)] at hu
  rw [reportFrames_succ, ← List.append_assoc]
  refine hu.report k hk hcount ?_
  have hk10 := Nat.mul_le_mul_right (packetFrame s.packets.pReport).length (show k + 1 ≤ 10 by omega)
  rw [List.append_assoc, ← reportFrames_succ, List.length_append, length_reportFrames]
  omega

end

/-- Settles O37, stage by stage: INIT, the bands, EMPTY, PRINT, the REPORTs. -/
theorem printJobSendsTheEncodedImage : Obligations.PrintJobSendsTheEncodedImage := by
  intro img w h s rs rest hg herr henc ha hlen
  have hI := length_packetFrame s.packets.pInit
  have hE := length_packetFrame s.packets.pEmpty
  have hP := length_packetFrame s.packets.pPrint
  have hR := length_packetFrame s.packets.pReport
  have hD := length_dataFrames_image img w.toNat (h.toNat / 16)
  have h0 := printAt_startedJob w h s hg herr ha
  obtain ⟨t1, hrun1, h1, -⟩ := h0.packet_frame .frameInit s.packets.pInit (by simp) h0.seq rfl
    (by simp only [List.length_append, List.length_nil]; omega)
  obtain ⟨t2, hrun2, h2⟩ := PrintAt.rounds img h1 (by simp only [List.length_append, List.length_nil]; omega)
  have hdone : t2.enc = .done := by rw [h2.phase, if_neg (lt_irrefl _)]
  obtain ⟨t3, hrun3, h3, -⟩ := h2.packet_frame .frameEmpty s.packets.pEmpty (by simp) ⟨h2.seq, hdone⟩
    (by rw [← h2.packets]; rfl) (by simp only [List.length_append, List.length_nil]; omega)
  obtain ⟨t4, hrun4, h4, hrpt4⟩ := h3.packet_frame .framePrint s.packets.pPrint (by simp) h3.seq
    (by rw [← h3.packets]; rfl) (by simp only [List.length_append, List.length_nil]; omega)
  obtain ⟨t, hrun5, hrpt, ht⟩ := PrintAt.reports h4 hrpt4 (by simp only [List.length_append, List.length_nil]; omega)
  have hall : ([] ++ packetFrame s.packets.pInit ++ dataFrames img w.toNat (h.toNat / 16) ++ packetFrame s.packets.pEmpty
      ++ packetFrame s.packets.pPrint ++ reportFrames s.packets 10).length = rs.length := by
    simp only [List.length_append, List.length_nil, length_reportFrames]
    omega
  have hstatus := ht.status (List.ne_nil_of_length_pos (by rw [hall]; omega))
  rw [hall] at hstatus
  refine ⟨t, ?_, ht.seq, ?_, ht.err, ht.chunk, hrpt, ht.blank, hstatus.1, hstatus.2, ?_⟩
  · have hbegin := runAll_append_next (js := [.frameInit]) (runAll_begin .print w h s hg herr henc) hrun1
    have hend := runAll_append_next (is := [.frameEmpty]) (js := [.framePrint]) hrun3 hrun4
    exact runAll_append_next (runAll_append_next (runAll_append_next hbegin hrun2) hend) hrun5
  · rw [ht.phase, if_neg (lt_irrefl _)]
  · simpa only [List.nil_append, List.append_assoc, dataFrames, reportFrames] using ht.sent

end Sys2Proof.Proofs
end
